-- ==== Sys2Proof/Word.lean ====
section
/-! DEFINITION. The word types of the core: every architectural word is 32 bits (00_scope.md R9), an
instruction is one halfword (30_encoding.md R70), memory is addressed in bytes (20_memory.md R50). -/

namespace Sys2Proof

/-- `word32` (R9). -/
abbrev Word := BitVec 32

/-- A halfword: one Thumb instruction (R70). -/
abbrev Half := BitVec 16

/-- The smallest addressable unit (R50). -/
abbrev Byte := BitVec 8

end Sys2Proof
end

