-- ==== Sys2Proof/Syntax.lean ====
section
/-! DEFINITION. The instructions: one constructor per row of spec/opcode_table.json (30_encoding.md R70 to R94).
A register operand is its number, in the range its field can hold; an immediate is its field as encoded, and
Machine/Operands.lean assembles the value the instruction uses (R92). -/

namespace Sys2Proof

/-- A Thumb instruction. -/
inductive Instr where
  -- F1: shift by an immediate (30_encoding.md R74; R100 to R102).
  | lslImm (rd rs : Fin 8) (imm5 : BitVec 5)
  | lsrImm (rd rs : Fin 8) (imm5 : BitVec 5)
  | asrImm (rd rs : Fin 8) (imm5 : BitVec 5)
  -- F2: add or subtract, register or 3-bit immediate (R75; R103 to R106).
  | addReg (rd rs rn : Fin 8)
  | subReg (rd rs rn : Fin 8)
  | addImm3 (rd rs : Fin 8) (imm3 : BitVec 3)
  | subImm3 (rd rs : Fin 8) (imm3 : BitVec 3)
  -- F3: 8-bit immediate operations (R76; R107 to R110).
  | movImm (rd : Fin 8) (imm8 : BitVec 8)
  | cmpImm (rd : Fin 8) (imm8 : BitVec 8)
  | addImm8 (rd : Fin 8) (imm8 : BitVec 8)
  | subImm8 (rd : Fin 8) (imm8 : BitVec 8)
  -- F4: ALU operations on two low registers (R77; R121 to R136).
  | and (rd rs : Fin 8)
  | eor (rd rs : Fin 8)
  | lslReg (rd rs : Fin 8)
  | lsrReg (rd rs : Fin 8)
  | asrReg (rd rs : Fin 8)
  | adc (rd rs : Fin 8)
  | sbc (rd rs : Fin 8)
  | ror (rd rs : Fin 8)
  | tst (rd rs : Fin 8)
  | neg (rd rs : Fin 8)
  | cmpReg (rd rs : Fin 8)
  | cmn (rd rs : Fin 8)
  | orr (rd rs : Fin 8)
  | mul (rd rs : Fin 8)
  | bic (rd rs : Fin 8)
  | mvn (rd rs : Fin 8)
  -- F5: hi-register operations (R78; R141 to R143); `rd` is H1:Rd and `rs` is H2:Rs.
  | addHi (rd rs : Fin 16)
  | cmpHi (rd rs : Fin 16)
  | movHi (rd rs : Fin 16)
  -- F5: branch and exchange (R144, R145); `sbz` is op bits 2:0, which the core ignores (D11).
  | bx (rs : Fin 16) (sbz : BitVec 3)
  | blxReg (rs : Fin 16) (sbz : BitVec 3)
  -- F6: PC-relative load (R79; R150).
  | ldrPc (rd : Fin 8) (imm8 : BitVec 8)
  -- F7, F8: register-offset loads and stores (R80, R81; R151 to R158).
  | strReg (rd rb ro : Fin 8)
  | strbReg (rd rb ro : Fin 8)
  | ldrReg (rd rb ro : Fin 8)
  | ldrbReg (rd rb ro : Fin 8)
  | strhReg (rd rb ro : Fin 8)
  | ldrsbReg (rd rb ro : Fin 8)
  | ldrhReg (rd rb ro : Fin 8)
  | ldrshReg (rd rb ro : Fin 8)
  -- F9, F10: immediate-offset loads and stores (R82, R83; R159 to R164).
  | strImm (rd rb : Fin 8) (imm5 : BitVec 5)
  | ldrImm (rd rb : Fin 8) (imm5 : BitVec 5)
  | strbImm (rd rb : Fin 8) (imm5 : BitVec 5)
  | ldrbImm (rd rb : Fin 8) (imm5 : BitVec 5)
  | strhImm (rd rb : Fin 8) (imm5 : BitVec 5)
  | ldrhImm (rd rb : Fin 8) (imm5 : BitVec 5)
  -- F11: SP-relative load and store (R84; R165, R166).
  | strSp (rd : Fin 8) (imm8 : BitVec 8)
  | ldrSp (rd : Fin 8) (imm8 : BitVec 8)
  -- F12: load address (R85; R180, R181).
  | addPc (rd : Fin 8) (imm8 : BitVec 8)
  | addSp (rd : Fin 8) (imm8 : BitVec 8)
  -- F13: adjust SP (R86; R182, R183).
  | addSpImm (imm7 : BitVec 7)
  | subSpImm (imm7 : BitVec 7)
  -- F14: PUSH and POP (R87; R184 to R186); `r` adds LR or PC.
  | push (r : Bool) (rlist : BitVec 8)
  | pop (r : Bool) (rlist : BitVec 8)
  -- F15: multiple store and load (R88; R191 to R193).
  | stmia (rb : Fin 8) (rlist : BitVec 8)
  | ldmia (rb : Fin 8) (rlist : BitVec 8)
  -- F16: conditional branches (R89; R201).
  | beq (imm8 : BitVec 8)
  | bne (imm8 : BitVec 8)
  | bcs (imm8 : BitVec 8)
  | bcc (imm8 : BitVec 8)
  | bmi (imm8 : BitVec 8)
  | bpl (imm8 : BitVec 8)
  | bvs (imm8 : BitVec 8)
  | bvc (imm8 : BitVec 8)
  | bhi (imm8 : BitVec 8)
  | bls (imm8 : BitVec 8)
  | bge (imm8 : BitVec 8)
  | blt (imm8 : BitVec 8)
  | bgt (imm8 : BitVec 8)
  | ble (imm8 : BitVec 8)
  -- F16: cond 14, reserved-undefined, and SWI (R202, R203).
  | udfDE (ignored : BitVec 8)
  | swi (imm8 : BitVec 8)
  -- F18: unconditional branch (R90; R204).
  | b (imm11 : BitVec 11)
  -- F19: long branch with link, two instructions (R91; R205 to R207).
  | blxSuffix (imm11 : BitVec 11)
  | blPrefix (imm11 : BitVec 11)
  | blSuffix (imm11 : BitVec 11)
  -- The encodings no format accepts (R94; R208); `ignored` is every bit the row leaves free.
  | udfB1 (ignored : BitVec 8)
  | udfB2B3 (ignored : BitVec 9)
  | udfB6B7 (ignored : BitVec 9)
  | udfB8BB (ignored : BitVec 10)
  | udfBEBF (ignored : BitVec 9)
deriving DecidableEq, Repr

end Sys2Proof
end

