-- ==== Sys2Proof/Decode.lean ====
section
/-! DEFINITION. The decoder, and the encoder written from the same tables (30_encoding.md R72 to R94, R99).

`decode` is total on halfwords: each of the 65536 words is one instruction or one undefined row (R73). It does not
depend on `arch`: BLX on ARMv4 decodes to its own row, whose meaning raises Undefined there (R94, D8). -/

namespace Sys2Proof

/-- The low register named by the three bits from `lo` up. -/
def regField (w : Half) (lo : Nat) : Fin 8 :=
  ⟨(w.extractLsb' lo 3).toNat, (w.extractLsb' lo 3).isLt⟩

/-- F5's first operand, `(op & 7) | ((op & 0x80) >> 4)`, that is H1:Rd (R78). -/
def hiDest (w : Half) : Fin 16 :=
  ⟨(w.extractLsb' 7 1 ++ w.extractLsb' 0 3).toNat, (w.extractLsb' 7 1 ++ w.extractLsb' 0 3).isLt⟩

/-- F5's source operand, `(op >> 3) & 0xF`, that is H2:Rs (R78). -/
def hiSource (w : Half) : Fin 16 :=
  ⟨(w.extractLsb' 3 4).toNat, (w.extractLsb' 3 4).isLt⟩

/-- F2 (R75), by bits 10:9, I then S; C1 of 90_conflicts.md. -/
def decodeF2 (w : Half) : Instr :=
  match (w.extractLsb' 9 2).toNat with
  | 0 => .addReg (regField w 0) (regField w 3) (regField w 6)
  | 1 => .subReg (regField w 0) (regField w 3) (regField w 6)
  | 2 => .addImm3 (regField w 0) (regField w 3) (w.extractLsb' 6 3)
  | _ => .subImm3 (regField w 0) (regField w 3) (w.extractLsb' 6 3)

/-- F4's secondary table, by bits 9:6 (R77). -/
def decodeF4 (w : Half) : Instr :=
  match (w.extractLsb' 6 4).toNat with
  | 0  => .and (regField w 0) (regField w 3)
  | 1  => .eor (regField w 0) (regField w 3)
  | 2  => .lslReg (regField w 0) (regField w 3)
  | 3  => .lsrReg (regField w 0) (regField w 3)
  | 4  => .asrReg (regField w 0) (regField w 3)
  | 5  => .adc (regField w 0) (regField w 3)
  | 6  => .sbc (regField w 0) (regField w 3)
  | 7  => .ror (regField w 0) (regField w 3)
  | 8  => .tst (regField w 0) (regField w 3)
  | 9  => .neg (regField w 0) (regField w 3)
  | 10 => .cmpReg (regField w 0) (regField w 3)
  | 11 => .cmn (regField w 0) (regField w 3)
  | 12 => .orr (regField w 0) (regField w 3)
  | 13 => .mul (regField w 0) (regField w 3)
  | 14 => .bic (regField w 0) (regField w 3)
  | _  => .mvn (regField w 0) (regField w 3)

/-- F5, by bits 9:8, and bit 7 within sub 3 (R78). -/
def decodeF5 (w : Half) : Instr :=
  match (w.extractLsb' 8 2).toNat with
  | 0 => .addHi (hiDest w) (hiSource w)
  | 1 => .cmpHi (hiDest w) (hiSource w)
  | 2 => .movHi (hiDest w) (hiSource w)
  | _ => if w.getLsbD 7 then .blxReg (hiSource w) (w.extractLsb' 0 3) else .bx (hiSource w) (w.extractLsb' 0 3)

/-- F7 (bit 9 clear) and F8 (bit 9 set), by bits 11:9 (R80, R81, R99). -/
def decodeF7F8 (w : Half) : Instr :=
  match (w.extractLsb' 9 3).toNat with
  | 0 => .strReg (regField w 0) (regField w 3) (regField w 6)
  | 1 => .strhReg (regField w 0) (regField w 3) (regField w 6)
  | 2 => .strbReg (regField w 0) (regField w 3) (regField w 6)
  | 3 => .ldrsbReg (regField w 0) (regField w 3) (regField w 6)
  | 4 => .ldrReg (regField w 0) (regField w 3) (regField w 6)
  | 5 => .ldrhReg (regField w 0) (regField w 3) (regField w 6)
  | 6 => .ldrbReg (regField w 0) (regField w 3) (regField w 6)
  | _ => .ldrshReg (regField w 0) (regField w 3) (regField w 6)

/-- The `1011????` block, by bits 11:8: F13, F14 and the undefined encodings (R72, R86, R87, R94, R99). -/
def decodeMisc (w : Half) : Instr :=
  match (w.extractLsb' 8 4).toNat with
  | 0  => if w.getLsbD 7 then .subSpImm (w.extractLsb' 0 7) else .addSpImm (w.extractLsb' 0 7)
  | 1  => .udfB1 (w.extractLsb' 0 8)
  | 2  => .udfB2B3 (w.extractLsb' 0 9)
  | 3  => .udfB2B3 (w.extractLsb' 0 9)
  | 4  => .push (w.getLsbD 8) (w.extractLsb' 0 8)
  | 5  => .push (w.getLsbD 8) (w.extractLsb' 0 8)
  | 6  => .udfB6B7 (w.extractLsb' 0 9)
  | 7  => .udfB6B7 (w.extractLsb' 0 9)
  | 8  => .udfB8BB (w.extractLsb' 0 10)
  | 9  => .udfB8BB (w.extractLsb' 0 10)
  | 10 => .udfB8BB (w.extractLsb' 0 10)
  | 11 => .udfB8BB (w.extractLsb' 0 10)
  | 12 => .pop (w.getLsbD 8) (w.extractLsb' 0 8)
  | 13 => .pop (w.getLsbD 8) (w.extractLsb' 0 8)
  | _  => .udfBEBF (w.extractLsb' 0 9)

/-- F16, by the cond field, bits 11:8 (R89, R200). -/
def decodeF16 (w : Half) : Instr :=
  match (w.extractLsb' 8 4).toNat with
  | 0  => .beq (w.extractLsb' 0 8)
  | 1  => .bne (w.extractLsb' 0 8)
  | 2  => .bcs (w.extractLsb' 0 8)
  | 3  => .bcc (w.extractLsb' 0 8)
  | 4  => .bmi (w.extractLsb' 0 8)
  | 5  => .bpl (w.extractLsb' 0 8)
  | 6  => .bvs (w.extractLsb' 0 8)
  | 7  => .bvc (w.extractLsb' 0 8)
  | 8  => .bhi (w.extractLsb' 0 8)
  | 9  => .bls (w.extractLsb' 0 8)
  | 10 => .bge (w.extractLsb' 0 8)
  | 11 => .blt (w.extractLsb' 0 8)
  | 12 => .bgt (w.extractLsb' 0 8)
  | 13 => .ble (w.extractLsb' 0 8)
  | 14 => .udfDE (w.extractLsb' 0 8)
  | _  => .swi (w.extractLsb' 0 8)

/-- The primary dispatch (R72), by bits 15:11. -/
def decode (w : Half) : Instr :=
  match (w.extractLsb' 11 5).toNat with
  | 0  => .lslImm (regField w 0) (regField w 3) (w.extractLsb' 6 5)
  | 1  => .lsrImm (regField w 0) (regField w 3) (w.extractLsb' 6 5)
  | 2  => .asrImm (regField w 0) (regField w 3) (w.extractLsb' 6 5)
  | 3  => decodeF2 w
  | 4  => .movImm (regField w 8) (w.extractLsb' 0 8)
  | 5  => .cmpImm (regField w 8) (w.extractLsb' 0 8)
  | 6  => .addImm8 (regField w 8) (w.extractLsb' 0 8)
  | 7  => .subImm8 (regField w 8) (w.extractLsb' 0 8)
  | 8  => if w.getLsbD 10 then decodeF5 w else decodeF4 w
  | 9  => .ldrPc (regField w 8) (w.extractLsb' 0 8)
  | 10 => decodeF7F8 w
  | 11 => decodeF7F8 w
  | 12 => .strImm (regField w 0) (regField w 3) (w.extractLsb' 6 5)
  | 13 => .ldrImm (regField w 0) (regField w 3) (w.extractLsb' 6 5)
  | 14 => .strbImm (regField w 0) (regField w 3) (w.extractLsb' 6 5)
  | 15 => .ldrbImm (regField w 0) (regField w 3) (w.extractLsb' 6 5)
  | 16 => .strhImm (regField w 0) (regField w 3) (w.extractLsb' 6 5)
  | 17 => .ldrhImm (regField w 0) (regField w 3) (w.extractLsb' 6 5)
  | 18 => .strSp (regField w 8) (w.extractLsb' 0 8)
  | 19 => .ldrSp (regField w 8) (w.extractLsb' 0 8)
  | 20 => .addPc (regField w 8) (w.extractLsb' 0 8)
  | 21 => .addSp (regField w 8) (w.extractLsb' 0 8)
  | 22 => decodeMisc w
  | 23 => decodeMisc w
  | 24 => .stmia (regField w 8) (w.extractLsb' 0 8)
  | 25 => .ldmia (regField w 8) (w.extractLsb' 0 8)
  | 26 => decodeF16 w
  | 27 => decodeF16 w
  | 28 => .b (w.extractLsb' 0 11)
  | 29 => .blxSuffix (w.extractLsb' 0 11)
  | 30 => .blPrefix (w.extractLsb' 0 11)
  | _  => .blSuffix (w.extractLsb' 0 11)

/-- Why a sequence of bytes gives no instruction. No halfword is refused (R73); only a missing byte is. -/
inductive DecodeError where
  | truncated
deriving DecidableEq, Repr

/-- The first instruction of a sequence of bytes, and the bytes after it: two bytes, the low one first (R70, R51). -/
def decodeBytes : List Byte → Except DecodeError (Instr × List Byte)
  | lo :: hi :: rest => .ok (decode (hi ++ lo), rest)
  | _ => .error .truncated

/-- The bytes of a halfword as memory holds them (R51). -/
def halfBytes (w : Half) : List Byte := [w.extractLsb' 0 8, w.extractLsb' 8 8]

/-- The instruction the decoder reads from the table's word `w` of `nbits` bits, every bit above them 0. -/
def decodeTableWord (nbits w : Nat) : Option Instr :=
  match decodeBytes (halfBytes (BitVec.ofNat 16 (w % 2 ^ nbits))) with
  | .ok (i, _) => some i
  | .error _ => none

/-- The three bits of a low register's number. -/
def lowBits (r : Fin 8) : BitVec 3 := BitVec.ofNat 3 r.val

/-- The four bits of a register's number. -/
def hiBits (r : Fin 16) : BitVec 4 := BitVec.ofNat 4 r.val

/-- F2 and F7, F8: seven fixed bits and three fields of three bits. -/
def word7 (key : BitVec 7) (f8 f5 : BitVec 3) (rd : Fin 8) : Half := key ++ f8 ++ f5 ++ lowBits rd

/-- F1, F9, F10: five fixed bits, a 5-bit immediate and two low registers. -/
def wordImm5 (key : BitVec 5) (imm5 : BitVec 5) (rb rd : Fin 8) : Half := key ++ imm5 ++ lowBits rb ++ lowBits rd

/-- F3, F6, F11, F12, F15: five fixed bits, a low register and eight bits. -/
def wordImm8 (key : BitVec 5) (rd : Fin 8) (imm8 : BitVec 8) : Half := key ++ lowBits rd ++ imm8

/-- F4: `010000`, the sub-operation and two low registers. -/
def wordAlu (sub : BitVec 4) (rs rd : Fin 8) : Half := 0b010000#6 ++ sub ++ lowBits rs ++ lowBits rd

/-- F5: `010001`, the sub-operation, H1, H2:Rs and Rd[2:0]. -/
def wordHi (sub : BitVec 2) (rs rd : Fin 16) : Half :=
  0b010001#6 ++ sub ++ (hiBits rd).extractLsb' 3 1 ++ hiBits rs ++ (hiBits rd).extractLsb' 0 3

/-- F5 sub 3: bit 7 picks BLX, and bits 2:0 are ignored. -/
def wordBx (link : BitVec 1) (rs : Fin 16) (sbz : BitVec 3) : Half := 0b01000111#8 ++ link ++ hiBits rs ++ sbz

/-- F14: `1011 L 10 R rlist`. -/
def wordStack (load : BitVec 1) (r : Bool) (rlist : BitVec 8) : Half :=
  0b1011#4 ++ load ++ 0b10#2 ++ BitVec.ofBool r ++ rlist

/-- F16: `1101`, the cond field and eight bits. -/
def wordCond (cond : BitVec 4) (imm8 : BitVec 8) : Half := 0b1101#4 ++ cond ++ imm8

/-- F18, F19: five fixed bits and eleven bits. -/
def wordImm11 (key : BitVec 5) (imm11 : BitVec 11) : Half := key ++ imm11

/-- The word of an instruction, from the format tables of 30_encoding.md R74 to R94. -/
def encode : Instr → Half
  | .lslImm rd rs imm5    => wordImm5 0b00000#5 imm5 rs rd
  | .lsrImm rd rs imm5    => wordImm5 0b00001#5 imm5 rs rd
  | .asrImm rd rs imm5    => wordImm5 0b00010#5 imm5 rs rd
  | .addReg rd rs rn      => word7 0b0001100#7 (lowBits rn) (lowBits rs) rd
  | .subReg rd rs rn      => word7 0b0001101#7 (lowBits rn) (lowBits rs) rd
  | .addImm3 rd rs imm3   => word7 0b0001110#7 imm3 (lowBits rs) rd
  | .subImm3 rd rs imm3   => word7 0b0001111#7 imm3 (lowBits rs) rd
  | .movImm rd imm8       => wordImm8 0b00100#5 rd imm8
  | .cmpImm rd imm8       => wordImm8 0b00101#5 rd imm8
  | .addImm8 rd imm8      => wordImm8 0b00110#5 rd imm8
  | .subImm8 rd imm8      => wordImm8 0b00111#5 rd imm8
  | .and rd rs            => wordAlu 0#4 rs rd
  | .eor rd rs            => wordAlu 1#4 rs rd
  | .lslReg rd rs         => wordAlu 2#4 rs rd
  | .lsrReg rd rs         => wordAlu 3#4 rs rd
  | .asrReg rd rs         => wordAlu 4#4 rs rd
  | .adc rd rs            => wordAlu 5#4 rs rd
  | .sbc rd rs            => wordAlu 6#4 rs rd
  | .ror rd rs            => wordAlu 7#4 rs rd
  | .tst rd rs            => wordAlu 8#4 rs rd
  | .neg rd rs            => wordAlu 9#4 rs rd
  | .cmpReg rd rs         => wordAlu 10#4 rs rd
  | .cmn rd rs            => wordAlu 11#4 rs rd
  | .orr rd rs            => wordAlu 12#4 rs rd
  | .mul rd rs            => wordAlu 13#4 rs rd
  | .bic rd rs            => wordAlu 14#4 rs rd
  | .mvn rd rs            => wordAlu 15#4 rs rd
  | .addHi rd rs          => wordHi 0#2 rs rd
  | .cmpHi rd rs          => wordHi 1#2 rs rd
  | .movHi rd rs          => wordHi 2#2 rs rd
  | .bx rs sbz            => wordBx 0#1 rs sbz
  | .blxReg rs sbz        => wordBx 1#1 rs sbz
  | .ldrPc rd imm8        => wordImm8 0b01001#5 rd imm8
  | .strReg rd rb ro      => word7 0b0101000#7 (lowBits ro) (lowBits rb) rd
  | .strhReg rd rb ro     => word7 0b0101001#7 (lowBits ro) (lowBits rb) rd
  | .strbReg rd rb ro     => word7 0b0101010#7 (lowBits ro) (lowBits rb) rd
  | .ldrsbReg rd rb ro    => word7 0b0101011#7 (lowBits ro) (lowBits rb) rd
  | .ldrReg rd rb ro      => word7 0b0101100#7 (lowBits ro) (lowBits rb) rd
  | .ldrhReg rd rb ro     => word7 0b0101101#7 (lowBits ro) (lowBits rb) rd
  | .ldrbReg rd rb ro     => word7 0b0101110#7 (lowBits ro) (lowBits rb) rd
  | .ldrshReg rd rb ro    => word7 0b0101111#7 (lowBits ro) (lowBits rb) rd
  | .strImm rd rb imm5    => wordImm5 0b01100#5 imm5 rb rd
  | .ldrImm rd rb imm5    => wordImm5 0b01101#5 imm5 rb rd
  | .strbImm rd rb imm5   => wordImm5 0b01110#5 imm5 rb rd
  | .ldrbImm rd rb imm5   => wordImm5 0b01111#5 imm5 rb rd
  | .strhImm rd rb imm5   => wordImm5 0b10000#5 imm5 rb rd
  | .ldrhImm rd rb imm5   => wordImm5 0b10001#5 imm5 rb rd
  | .strSp rd imm8        => wordImm8 0b10010#5 rd imm8
  | .ldrSp rd imm8        => wordImm8 0b10011#5 rd imm8
  | .addPc rd imm8        => wordImm8 0b10100#5 rd imm8
  | .addSp rd imm8        => wordImm8 0b10101#5 rd imm8
  | .addSpImm imm7        => 0b101100000#9 ++ imm7
  | .subSpImm imm7        => 0b101100001#9 ++ imm7
  | .push r rlist         => wordStack 0#1 r rlist
  | .pop r rlist          => wordStack 1#1 r rlist
  | .stmia rb rlist       => wordImm8 0b11000#5 rb rlist
  | .ldmia rb rlist       => wordImm8 0b11001#5 rb rlist
  | .beq imm8             => wordCond 0#4 imm8
  | .bne imm8             => wordCond 1#4 imm8
  | .bcs imm8             => wordCond 2#4 imm8
  | .bcc imm8             => wordCond 3#4 imm8
  | .bmi imm8             => wordCond 4#4 imm8
  | .bpl imm8             => wordCond 5#4 imm8
  | .bvs imm8             => wordCond 6#4 imm8
  | .bvc imm8             => wordCond 7#4 imm8
  | .bhi imm8             => wordCond 8#4 imm8
  | .bls imm8             => wordCond 9#4 imm8
  | .bge imm8             => wordCond 10#4 imm8
  | .blt imm8             => wordCond 11#4 imm8
  | .bgt imm8             => wordCond 12#4 imm8
  | .ble imm8             => wordCond 13#4 imm8
  | .udfDE ignored        => wordCond 14#4 ignored
  | .swi imm8             => wordCond 15#4 imm8
  | .b imm11              => wordImm11 0b11100#5 imm11
  | .blxSuffix imm11      => wordImm11 0b11101#5 imm11
  | .blPrefix imm11       => wordImm11 0b11110#5 imm11
  | .blSuffix imm11       => wordImm11 0b11111#5 imm11
  | .udfB1 ignored        => 0xB1#8 ++ ignored
  | .udfB2B3 ignored      => 0b1011001#7 ++ ignored
  | .udfB6B7 ignored      => 0b1011011#7 ++ ignored
  | .udfB8BB ignored      => 0b101110#6 ++ ignored
  | .udfBEBF ignored      => 0b1011111#7 ++ ignored

end Sys2Proof
end

