-- ==== Sys2Proof/Config.lean ====
section
/-! DEFINITION. The parameters of 00_scope.md R8, and the free values.

The parameters are fixed for a run and stand in State as the record `cfg` (DESIGN CHOICE, log 1), so that a
statement about every state is a statement about every choice of parameters. `vector_base` is not here: it is the
answer of the coprocessor in slot 15, read at each entry (60_exceptions.md R229). `wait_states` is not here: the
bus gives it per access (R8, log 4).

A free value is an opaque constant applied to the counter `State.draws`: nothing can be proved of it
(00_scope.md R15, `Draw()`; DESIGN CHOICE, log 5). -/

namespace Sys2Proof

/-- `arch` (R2, R3). -/
inductive Arch where
  | armv4 | armv5
deriving DecidableEq, Repr

/-- `adc_sbc_flags` (R8; 41_alu_register.md R126, R127, R137; D17). -/
inductive AdcSbcFlags where
  | source | architectural
deriving DecidableEq, Repr

/-- `v5_bkpt` (R8; 46_branch_swi.md R208; D9). -/
inductive V5Bkpt where
  | undefined | prefetchAbort
deriving DecidableEq, Repr

/-- `misaligned_halfword` (R8; 20_memory.md R56; D4). -/
inductive MisalignedHalfword where
  | unspecified | forceAlign
deriving DecidableEq, Repr

/-- `stm_empty_pc_value` (R8; 45_block_transfer.md R193; D16). -/
inductive StmEmptyPcValue where
  | aPlus4 | aPlus6
deriving DecidableEq, Repr

/-- `thumb_dabt_lr_offset` (R8; 60_exceptions.md R226; D27). -/
inductive ThumbDabtLrOffset where
  | four | six
deriving DecidableEq, Repr

/-- `bus_abort` (R8; 20_memory.md R62; D5). -/
inductive BusAbort where
  | none | oracle
deriving DecidableEq, Repr

/-- The parameters of one instance of the block (R8). -/
structure Config where
  arch               : Arch
  adcSbcFlags        : AdcSbcFlags        := .source
  v5Bkpt             : V5Bkpt             := .undefined
  misalignedHalfword : MisalignedHalfword := .unspecified
  stmEmptyPcValue    : StmEmptyPcValue    := .aPlus4
  thumbDabtLrOffset  : ThumbDabtLrOffset  := .four
  fetchSeesStores    : Bool               := true
  busAbort           : BusAbort           := .none
deriving DecidableEq, Repr

/-- The n-th free word: `Draw()` of R15 (log 5). -/
opaque Config.freeWord : Nat → Word

/-- What an aborted access adds to the clock: 95_test_vectors.md Part 4 says R272 does not settle it (log 6). -/
opaque Config.freeCycles : Nat → Nat

/-- Whether the fetch abandoned at an interrupt reaches the bus: unspecified (60_exceptions.md R227, D26; log 7). -/
opaque Config.abandonedFetchReachesBus : Nat → Bool

end Sys2Proof
end

