-- ==== Sys2Proof/Machine/State.lean ====
section
/-! DEFINITION. The state of one core, its stops, and the state after reset (10_state.md; INVENTORY.md "State"). -/

namespace Sys2Proof.Machine

/-- The seven legal modes (10_state.md R28). -/
inductive Mode where
  | user | fiq | irq | supervisor | abort | undefined | system
deriving DecidableEq, Repr

/-- The six banks of R13 and R14 (R20, R21); `usr` is shared by User and System. -/
inductive Bank where
  | usr | fiq | svc | abt | irq | und
deriving DecidableEq, Repr

/-- The five privileged modes that have an SPSR (R30). -/
inductive ExcMode where
  | fiq | svc | abt | irq | und
deriving DecidableEq, Repr

/-- The eight exception kinds, in the source's order (60_exceptions.md R220). -/
inductive ExceptionKind where
  | reset | undefined | swi | prefetchAbort | dataAbort | addressOverflow | irq | fiq
deriving DecidableEq, Repr

/-- The name of one of the 30 physical register cells (R20). `usrHi i` and `fiqHi i` are R(8+i). -/
inductive Cell where
  | low (i : Fin 8)
  | usrHi (i : Fin 5)
  | fiqHi (i : Fin 5)
  | sp (b : Bank)
  | lr (b : Bank)
deriving DecidableEq, Repr

/-- The 30 physical register cells (R20). `sp` and `lr` hold R13 and R14, one for each bank in Bank's order. -/
structure Regs where
  low   : Vector Word 8
  usrHi : Vector Word 5
  fiqHi : Vector Word 5
  sp    : Vector Word 6
  lr    : Vector Word 6
deriving DecidableEq, Repr

/-- A program status register, all 32 bits of it by field (R27): `reserved` is bits 27:8 (R29), `m` is bits 4:0.
`Psr.toWord` and `Psr.ofWord` (Machine/Ops.lean) give the 32-bit word. -/
structure Psr where
  n : Bool
  z : Bool
  c : Bool
  v : Bool
  reserved : BitVec 20
  i : Bool
  f : Bool
  t : Bool
  m : BitVec 5
deriving DecidableEq, Repr

/-- The five SPSRs (R30). -/
structure Spsrs where
  fiq : Psr
  svc : Psr
  abt : Psr
  irq : Psr
  und : Psr
deriving DecidableEq, Repr

/-- The three virtual lines; true is asserted (R34). -/
structure Lines where
  fiq  : Bool
  irq  : Bool
  halt : Bool
deriving DecidableEq, Repr

/-- A coprocessor handle, known to the core only by its answer to `exception_vector()` (R33; log 15). -/
structure Coproc where
  exceptionVector : Word
deriving DecidableEq, Repr

/-- What the platform answers to one bus access (DESIGN CHOICE, log 4): its wait states (R8), an abort, heard only
under `bus_abort = oracle` (20_memory.md R62), and, for a read that plain memory does not answer, the data (R52, R61). -/
structure BusAnswer where
  waits : Nat := 0
  abort : Bool := false
  data  : Option Word := none
deriving DecidableEq, Repr

/-- The bus handle that `new(arch, bus)` takes (70_reset_and_hazards.md R260): what the platform behind it holds at that
moment, as the fields `mem`, `bus` and `stored` of State hold it afterwards (DESIGN CHOICE, log 17). The default is a bus
on which nothing is listed, nothing stands to be answered and nothing has been written. -/
structure BusHandle where
  mem     : List Host.Cell := []
  answers : List BusAnswer := []
  written : List Nat       := []
deriving DecidableEq, Repr

/-- Everything the core holds. `bus`, `draws` and `stored` are the model's own fields (logs 4, 5 and 8). -/
structure State where
  /-- The parameters of R8, fixed for a run (log 1). -/
  cfg    : Config
  /-- R0 to R14 of every bank (R20). -/
  regs   : Regs
  /-- The address of the next instruction to fetch; A + 2 while the instruction at A executes (R23). -/
  pc     : Word
  cpsr   : Psr
  spsr   : Spsrs
  lines  : Lines
  /-- The sixteen coprocessor slots (R33). -/
  coproc : Vector (Option Coproc) 16
  /-- The cycle counter, unbounded (R35, D30). -/
  clock  : Nat
  /-- Memory in the canonical form of Machine/Memory.lean. -/
  mem    : List Host.Cell
  /-- The platform's answers to the coming accesses, oldest first; past its end memory answers, with no wait. -/
  bus    : List BusAnswer
  /-- How many free values have been drawn. -/
  draws  : Nat
  /-- The addresses of the bytes written by this core and by other bus agents, rising; read by a fetch under
  `fetch_sees_stores = false` (20_memory.md R68). -/
  stored : List Nat
deriving DecidableEq, Repr

/-- Why the machine stops. -/
inductive Fault where
  /-- A step found T = 0 after the poll: ARM state belongs to the out-of-scope ARM decoder, the state is as it stood,
  and a run of this block ends (70_reset_and_hazards.md R266, R274). Raised by `boundary`. Safe (log 9). -/
  | handoff
deriving DecidableEq, Repr

/-- Why the model gives no next state: the spec's own `Refuse(reason)` (00_scope.md R15). -/
inductive Refusal where
  /-- An instruction whose meaning is not written. Raised by no arm of `exec`. Safe. -/
  | notModelled (mnemonic : String)
  /-- A mode field outside the seven values, at a step or at WriteCPSR (R40, R233). Raised by `boundary`, `writeCpsr`
  and, by the model's own choice, `spsrFor` (DESIGN CHOICE, log 12). Safe. -/
  | invalidMode
  /-- PUSH or POP with an empty list and R = 0 (44_sp_pc_stack.md R186). Raised by `execPush`, `execPop`. Safe. -/
  | emptyStackList
  /-- A halfword store at an odd address under `misaligned_halfword = unspecified` (20_memory.md R56). Raised by
  `execStrhReg`, `execStrhImm`. Safe. -/
  | misalignedHalfwordStore
  /-- Slot 15 answers neither 0 nor 0xFFFF0000 at an exception entry (60_exceptions.md R229). Raised by `enter`. Safe. -/
  | badVectorBase
  /-- The SPSR of User or System is asked for (R30, R245). Raised by `spsrFor`. Safe. -/
  | modeFault
  /-- `map_coprocessor` with an index outside 0..15 (R245). Raised by `mapCoprocessor`. Safe. -/
  | badSlot
  /-- `new` with an unknown architecture (R245). Raised by `newCpu`. Safe. -/
  | badArch
deriving DecidableEq, Repr

/-- The value of every register the spec leaves unspecified at power-on: R39 forbids zero (DESIGN CHOICE, log 2). -/
def unspecifiedWord : Word := 0xCCCCCCCC#32

/-- The fields of `unspecifiedWord`, for a status register (DESIGN CHOICE, log 2). -/
def unspecifiedPsr : Psr :=
  { n := true, z := true, c := false, v := false, reserved := 0xCCCCC#20, i := true, f := true, t := false, m := 0x0C#5 }

/-- The state after `new(arch, bus)` (R42, power-on column; R260), with the parameters of R8. -/
def State.powerOn (cfg : Config) (bus : BusHandle := {}) : State :=
  { cfg    := cfg
    regs   := { low := Vector.replicate 8 unspecifiedWord, usrHi := Vector.replicate 5 unspecifiedWord,
                fiqHi := Vector.replicate 5 unspecifiedWord, sp := Vector.replicate 6 unspecifiedWord,
                lr := Vector.replicate 6 unspecifiedWord }
    pc     := unspecifiedWord
    cpsr   := unspecifiedPsr
    spsr   := { fiq := unspecifiedPsr, svc := unspecifiedPsr, abt := unspecifiedPsr, irq := unspecifiedPsr,
                und := unspecifiedPsr }
    lines  := { fiq := false, irq := false, halt := false }
    coproc := Vector.replicate 16 none
    clock  := 0
    mem    := bus.mem
    bus    := bus.answers
    draws  := 0
    stored := bus.written }

/-- The state after `new(ARMv5, bus)` on a bus with nothing listed and then `reset()` (R42, reset column;
70_reset_and_hazards.md R261). The R14 written is the Supervisor bank's, the third; ARMv5 and the empty bus are DESIGN
CHOICEs (logs 1, 3 and 4). -/
def State.reset : State :=
  let p := State.powerOn { arch := .armv5 }
  { p with
    regs := { p.regs with lr := p.regs.lr.set 2 p.pc }
    pc   := 0x00000000#32
    cpsr := { p.cpsr with i := true, f := true, t := false, m := 0x13#5 }
    spsr := { p.spsr with svc := p.cpsr } }

end Sys2Proof.Machine
end

