-- ==== Sys2Proof/Machine/Memory.lean ====
section
/-! DEFINITION. Memory as a list of cells in one canonical form (20_memory.md R50 to R52), and the set of written
addresses. An address is a Nat below 2^32, reached from a word by `toNat`; byte order is decided here and nowhere
else. -/

namespace Sys2Proof.Machine

/-- What a byte nothing has written reads as (DESIGN CHOICE, log 3: the spec leaves the contents to the platform). -/
def Memory.unlisted : Byte := 0x00#8

/-- The cells from address `lo` up: strictly rising, below 2^32, none equal to what an unlisted byte reads as. -/
def Memory.wfFrom : Nat → List Host.Cell → Bool
  | _, [] => true
  | lo, (k, b) :: rest => decide (lo ≤ k) && decide (k < 2 ^ 32) && decide (b ≠ Memory.unlisted) && Memory.wfFrom (k + 1) rest

/-- The canonical form. -/
def Memory.wf (m : List Host.Cell) : Bool := Memory.wfFrom 0 m

/-- The byte listed at an address. -/
def Memory.find : List Host.Cell → Nat → Option Byte
  | [], _ => none
  | (k, b) :: rest, a => if k = a then some b else Memory.find rest a

/-- The byte at an address (R52, `Mem[a]`). -/
def Memory.byte (m : List Host.Cell) (a : Word) : Byte := (Memory.find m a.toNat).getD Memory.unlisted

/-- List a byte, in its place. -/
def Memory.insert : List Host.Cell → Nat → Byte → List Host.Cell
  | [], a, v => [(a, v)]
  | (k, b) :: rest, a, v =>
    if a < k then (a, v) :: (k, b) :: rest
    else if a = k then (a, v) :: rest
    else (k, b) :: Memory.insert rest a v

/-- Unlist an address, wherever it is listed. -/
def Memory.erase : List Host.Cell → Nat → List Host.Cell
  | [], _ => []
  | (k, b) :: rest, a => if k = a then Memory.erase rest a else (k, b) :: Memory.erase rest a

/-- Write one byte (R52, `Mem[a] <- v`), keeping the canonical form. -/
def Memory.setByte (m : List Host.Cell) (a : Word) (v : Byte) : List Host.Cell :=
  if v = Memory.unlisted then Memory.erase m a.toNat else Memory.insert m a.toNat v

/-- The width of an access (R13, R59). -/
inductive Width where
  | byte | half | word
deriving DecidableEq, Repr

/-- How many bytes an access covers. -/
def Width.bytes : Width → Nat
  | .byte => 1
  | .half => 2
  | .word => 4

/-- The low bytes of a value that an access of this width carries, zero-extended (R13). -/
def Width.trim : Width → Word → Word
  | .byte, v => (v.extractLsb' 0 8).zeroExtend 32
  | .half, v => (v.extractLsb' 0 16).zeroExtend 32
  | .word, v => v

/-- `MemRead(a, n)`: little-endian, zero-extended (R13, R51, R52). -/
def Memory.read (m : List Host.Cell) (w : Width) (a : Word) : Word :=
  match w with
  | .byte => (Memory.byte m a).zeroExtend 32
  | .half => (Memory.byte m (a + 1) ++ Memory.byte m a).zeroExtend 32
  | .word => Memory.byte m (a + 3) ++ Memory.byte m (a + 2) ++ Memory.byte m (a + 1) ++ Memory.byte m a

/-- `MemWrite(a, n, v)`: the low n bytes, the least significant at a (R13, R51, R52). -/
def Memory.write (m : List Host.Cell) (w : Width) (a v : Word) : List Host.Cell :=
  match w with
  | .byte => Memory.setByte m a (v.extractLsb' 0 8)
  | .half => Memory.setByte (Memory.setByte m a (v.extractLsb' 0 8)) (a + 1) (v.extractLsb' 8 8)
  | .word =>
    Memory.setByte
      (Memory.setByte (Memory.setByte (Memory.setByte m a (v.extractLsb' 0 8)) (a + 1) (v.extractLsb' 8 8))
        (a + 2) (v.extractLsb' 16 8))
      (a + 3) (v.extractLsb' 24 8)

/-- Add an address to a rising list without repeats. -/
def AddrSet.insert : List Nat → Nat → List Nat
  | [], a => [a]
  | k :: rest, a => if a < k then a :: k :: rest else if a = k then k :: rest else k :: AddrSet.insert rest a

/-- Add the bytes of an access of `n` bytes at `a`. -/
def AddrSet.insertRange (l : List Nat) (a : Word) : Nat → List Nat
  | 0 => l
  | n + 1 => AddrSet.insert (AddrSet.insertRange l a n) (a + BitVec.ofNat 32 n).toNat

end Sys2Proof.Machine
end

