-- ==== Sys2Proof/Machine/Ops.lean ====
section
/-! DEFINITION. The named operations every meaning is written with: registers (10_state.md), the bus (20_memory.md),
multiple transfers, taking an exception and returning from one (60_exceptions.md). -/

namespace Sys2Proof.Machine

/-- What an instruction answers. -/
abbrev Result := Host.Outcome State Fault Refusal

/-! ### Modes and the register view -/

/-- The encoding of a mode (R28). -/
def Mode.bits : Mode → BitVec 5
  | .user       => 0x10#5
  | .fiq        => 0x11#5
  | .irq        => 0x12#5
  | .supervisor => 0x13#5
  | .abort      => 0x17#5
  | .undefined  => 0x1B#5
  | .system     => 0x1F#5

/-- The mode a mode field names, if it is one of the seven values (R28). -/
def Mode.ofBits (m : BitVec 5) : Option Mode :=
  if m = 0x10#5 then some .user
  else if m = 0x11#5 then some .fiq
  else if m = 0x12#5 then some .irq
  else if m = 0x13#5 then some .supervisor
  else if m = 0x17#5 then some .abort
  else if m = 0x1B#5 then some .undefined
  else if m = 0x1F#5 then some .system
  else none

/-- The R13/R14 bank of a mode (R28). -/
def Mode.bank : Mode → Bank
  | .user       => .usr
  | .fiq        => .fiq
  | .irq        => .irq
  | .supervisor => .svc
  | .abort      => .abt
  | .undefined  => .und
  | .system     => .usr

/-- The SPSR of a mode; User and System have none (R30). -/
def Mode.excMode : Mode → Option ExcMode
  | .user       => none
  | .fiq        => some .fiq
  | .irq        => some .irq
  | .supervisor => some .svc
  | .abort      => some .abt
  | .undefined  => some .und
  | .system     => none

/-- The bank of a privileged mode with an SPSR. -/
def ExcMode.bank : ExcMode → Bank
  | .fiq => .fiq
  | .svc => .svc
  | .abt => .abt
  | .irq => .irq
  | .und => .und

/-- The mode field of a privileged mode with an SPSR (R28). -/
def ExcMode.bits : ExcMode → BitVec 5
  | .fiq => 0x11#5
  | .svc => 0x13#5
  | .abt => 0x17#5
  | .irq => 0x12#5
  | .und => 0x1B#5

/-- The R13/R14 bank that a mode field selects (R21). A field outside the seven values selects `usr` here, which no
step can reach: `boundary` refuses such a state (R40; log 12). -/
def bankOf (m : BitVec 5) : Bank :=
  match Mode.ofBits m with
  | some mode => mode.bank
  | none => .usr

/-- `phys(M, i)` for i in 0..14 (R21). -/
def phys (m : BitVec 5) (i : Fin 15) : Cell :=
  if h : i.val < 8 then .low ⟨i.val, h⟩
  else if h13 : i.val < 13 then
    if m = 0x11#5 then .fiqHi ⟨i.val - 8, by omega⟩ else .usrHi ⟨i.val - 8, by omega⟩
  else if i.val = 13 then .sp (bankOf m)
  else .lr (bankOf m)

/-- The place of a bank in `Regs.sp` and `Regs.lr`. -/
def Bank.index : Bank → Fin 6
  | .usr => 0
  | .fiq => 1
  | .svc => 2
  | .abt => 3
  | .irq => 4
  | .und => 5

/-- The contents of a physical cell. -/
def Regs.get (r : Regs) : Cell → Word
  | .low i   => r.low[i.val]
  | .usrHi i => r.usrHi[i.val]
  | .fiqHi i => r.fiqHi[i.val]
  | .sp b    => r.sp[b.index.val]
  | .lr b    => r.lr[b.index.val]

/-- Write a physical cell. -/
def Regs.set (r : Regs) (c : Cell) (v : Word) : Regs :=
  match c with
  | .low i   => { r with low := r.low.set i.val v }
  | .usrHi i => { r with usrHi := r.usrHi.set i.val v }
  | .fiqHi i => { r with fiqHi := r.fiqHi.set i.val v }
  | .sp b    => { r with sp := r.sp.set b.index.val v }
  | .lr b    => { r with lr := r.lr.set b.index.val v }

/-! ### Registers -/

/-- A physical cell of the machine. -/
def State.cell (s : State) (c : Cell) : Word := s.regs.get c

/-- Write a physical cell of the machine. -/
def State.setCell (s : State) (c : Cell) (v : Word) : State := { s with regs := s.regs.set c v }

/-- R0 to R7. -/
def State.low (s : State) (r : Fin 8) : Word := s.cell (.low r)

/-- Write R0 to R7. -/
def State.setLow (s : State) (r : Fin 8) (v : Word) : State := s.setCell (.low r) v

/-- SP, R13 of the current mode (R21, R26). -/
def State.sp (s : State) : Word := s.cell (.sp (bankOf s.cpsr.m))

/-- Write SP. -/
def State.setSp (s : State) (v : Word) : State := s.setCell (.sp (bankOf s.cpsr.m)) v

/-- LR, R14 of the current mode (R21, R26). -/
def State.lr (s : State) : Word := s.cell (.lr (bankOf s.cpsr.m))

/-- Write LR. -/
def State.setLr (s : State) (v : Word) : State := s.setCell (.lr (bankOf s.cpsr.m)) v

/-- The value R15 reads as while an instruction executes: `pc` holds A + 2, R15 reads A + 4 (R23, R24). -/
def State.pcRead (s : State) : Word := s.pc + 2

/-- Register read, `R[i]` (R24). -/
def State.readReg (s : State) (i : Fin 16) : Word :=
  if h : i.val < 15 then s.cell (phys s.cpsr.m ⟨i.val, h⟩) else s.pcRead

/-- Continue in Thumb state at `t`, bit 0 cleared (R25). -/
def State.jumpThumb (s : State) (t : Word) : State := { s with pc := t &&& ~~~(1#32) }

/-- Switch to ARM state at `t`, bits 1:0 cleared (R25, R144). -/
def State.jumpArm (s : State) (t : Word) : State :=
  { s with pc := t &&& ~~~(3#32), cpsr := { s.cpsr with t := false } }

/-- Bit 0 of the target selects the state: 1 stays Thumb, 0 switches to ARM (R144, R145, R185). -/
def State.jumpExchange (s : State) (t : Word) : State := if t.getLsbD 0 then s.jumpThumb t else s.jumpArm t

/-- Register write, `R[i] <- v`, in Thumb state (R25): R15 is a jump. -/
def State.writeReg (s : State) (i : Fin 16) (v : Word) : State :=
  if h : i.val < 15 then s.setCell (phys s.cpsr.m ⟨i.val, h⟩) v else s.jumpThumb v

/-! ### Status registers -/

/-- The 32-bit word of a status register (R27). -/
def Psr.toWord (p : Psr) : Word :=
  BitVec.ofBool p.n ++ BitVec.ofBool p.z ++ BitVec.ofBool p.c ++ BitVec.ofBool p.v ++ p.reserved ++
    BitVec.ofBool p.i ++ BitVec.ofBool p.f ++ BitVec.ofBool p.t ++ p.m

/-- The fields of a 32-bit status word (R27). -/
def Psr.ofWord (w : Word) : Psr :=
  { n := w.getLsbD 31, z := w.getLsbD 30, c := w.getLsbD 29, v := w.getLsbD 28, reserved := w.extractLsb' 8 20,
    i := w.getLsbD 7, f := w.getLsbD 6, t := w.getLsbD 5, m := w.extractLsb' 0 5 }

/-- `SPSR[m]` (R30). -/
def Spsrs.get (p : Spsrs) : ExcMode → Psr
  | .fiq => p.fiq
  | .svc => p.svc
  | .abt => p.abt
  | .irq => p.irq
  | .und => p.und

/-- `SPSR[m] <- v` (R30). -/
def Spsrs.set (p : Spsrs) (m : ExcMode) (v : Psr) : Spsrs :=
  match m with
  | .fiq => { p with fiq := v }
  | .svc => { p with svc := v }
  | .abt => { p with abt := v }
  | .irq => { p with irq := v }
  | .und => { p with und := v }

/-! ### Free values -/

/-- `Draw()`: a free value (R15; log 5). -/
def State.freeWord (s : State) : Word := Config.freeWord s.draws

/-- One more free value has been drawn. -/
def State.drawn (s : State) : State := { s with draws := s.draws + 1 }

/-! ### The bus -/

/-- The answer of one access: a value, or an abort (R62). -/
inductive Access (α : Type) where
  | ok (v : α) (s : State)
  | abort (s : State)

/-- What the platform answers to the next access (log 4). -/
def State.nextAnswer (s : State) : BusAnswer := s.bus.headD {}

/-- The next access is answered with an abort (R62). -/
def State.nextAborts (s : State) : Bool := decide (s.cfg.busAbort = .oracle) && s.nextAnswer.abort

/-- One bus access: the platform's answer is taken, and the clock advances by `wait_states + 1` (R272), or, where the
access aborts, by an amount the spec leaves open (log 6). -/
def State.access (s : State) : Access BusAnswer :=
  if s.nextAborts then
    .abort { s with bus := s.bus.tail, clock := s.clock + Config.freeCycles s.draws, draws := s.draws + 1 }
  else .ok s.nextAnswer { s with bus := s.bus.tail, clock := s.clock + (s.nextAnswer.waits + 1) }

/-- What a read of this width at this address finds: the platform's own answer, or memory's (R52, R61). -/
def State.readValue (s : State) (w : Width) (a : Word) : Word :=
  match s.nextAnswer.data with
  | some v => w.trim v
  | none => Memory.read s.mem w a

/-- A data read, `MemRead(a, n)` through the bus (R13, R61, R62). -/
def State.busRead (s : State) (w : Width) (a : Word) : Access Word :=
  match s.access with
  | .ok _ s' => .ok (s.readValue w a) s'
  | .abort s' => .abort s'

/-- Memory and the written addresses after `MemWrite(a, n, v)` (R52; log 8). -/
def State.storeBytes (s : State) (w : Width) (a v : Word) : State :=
  { s with mem := Memory.write s.mem w a v, stored := AddrSet.insertRange s.stored a w.bytes }

/-- A data write, `MemWrite(a, n, v)` through the bus (R13, R61, R62). -/
def State.busWrite (s : State) (w : Width) (a v : Word) : Access Unit :=
  match s.access with
  | .ok _ s' => .ok () (s'.storeBytes w a v)
  | .abort s' => .abort s'

/-- The word-aligned address of an access, `a & ~3` (R54, R55, R57). -/
def alignWord (a : Word) : Word := a &&& ~~~(3#32)

/-- The halfword-aligned address, `a & ~1` (R53, R56). -/
def alignHalf (a : Word) : Word := a &&& ~~~(1#32)

/-- The rotation of a misaligned word load, `ROR(v, 8 * a[1:0])` (R54). -/
def rotateLoaded (a v : Word) : Word := v.rotateRight (8 * (a.extractLsb' 0 2).toNat)

/-! ### Taking an exception, and returning from one -/

/-- The code of a kind, its place in the source's list (R220, D28). -/
def ExceptionKind.code : ExceptionKind → Nat
  | .reset           => 0
  | .undefined       => 1
  | .swi             => 2
  | .prefetchAbort   => 3
  | .dataAbort       => 4
  | .addressOverflow => 5
  | .irq             => 6
  | .fiq             => 7

/-- The target mode of a kind (R220). -/
def ExceptionKind.target : ExceptionKind → ExcMode
  | .reset           => .svc
  | .undefined       => .und
  | .swi             => .svc
  | .prefetchAbort   => .abt
  | .dataAbort       => .abt
  | .addressOverflow => .svc
  | .irq             => .irq
  | .fiq             => .fiq

/-- The kinds that set F (R220, R228). -/
def ExceptionKind.setsF : ExceptionKind → Bool
  | .reset           => true
  | .undefined       => false
  | .swi             => false
  | .prefetchAbort   => false
  | .dataAbort       => false
  | .addressOverflow => false
  | .irq             => false
  | .fiq             => true

/-- The link offset of a kind raised in ARM state (R220, "ARM off"). -/
def ExceptionKind.armOffset : ExceptionKind → Word
  | .reset           => 0
  | .undefined       => 0
  | .swi             => 0
  | .prefetchAbort   => 0
  | .dataAbort       => 4
  | .addressOverflow => 0
  | .irq             => 0
  | .fiq             => 0

/-- The link offset of a kind raised in Thumb state (R220, "Thumb off"; R226, D27). -/
def ExceptionKind.thumbOffset (c : Config) : ExceptionKind → Word
  | .reset           => 0
  | .undefined       => 0
  | .swi             => 0
  | .prefetchAbort   => 2
  | .dataAbort       => match c.thumbDabtLrOffset with
    | .four => 4
    | .six => 6
  | .addressOverflow => 0
  | .irq             => 2
  | .fiq             => 2

/-- `Off(E, T)` (R225, step 3). -/
def ExceptionKind.offset (e : ExceptionKind) (c : Config) (t : Bool) : Word :=
  if t then e.thumbOffset c else e.armOffset

/-- An interrupt whose mask bit is set (R225, steps 1 and 2; R224). -/
def State.masked (s : State) : ExceptionKind → Bool
  | .fiq             => s.cpsr.f
  | .irq             => s.cpsr.i
  | .reset           => false
  | .undefined       => false
  | .swi             => false
  | .prefetchAbort   => false
  | .dataAbort       => false
  | .addressOverflow => false

/-- The vector base: slot 15's answer, 0 when the slot is empty, none where the answer is outside the contract (R229). -/
def State.vectorBase (s : State) : Option Word :=
  match s.coproc[15] with
  | none => some 0x00000000#32
  | some h => if h.exceptionVector = 0x00000000#32 ∨ h.exceptionVector = 0xFFFF0000#32 then some h.exceptionVector else none

/-- Steps 3 to 8 of the entry (R225), with the link and the vector base computed. -/
def State.entered (s : State) (e : ExceptionKind) (lr base : Word) : State :=
  { s with
    regs  := s.regs.set (.lr e.target.bank) lr
    spsr  := s.spsr.set e.target s.cpsr
    cpsr  := { s.cpsr with m := e.target.bits, t := false, i := true, f := s.cpsr.f || e.setsF }
    pc    := base + BitVec.ofNat 32 (4 * e.code)
    lines := { s.lines with halt := false } }

/-- `Enter(E)` (R225); `pcRaise` is the pc value of R227. A masked interrupt returns with no effect. -/
def enter (e : ExceptionKind) (pcRaise : Word) (s : State) : Result :=
  if s.masked e then .next s
  else match s.vectorBase with
    | none => .refused .badVectorBase
    | some base => .next (s.entered e (pcRaise + e.offset s.cfg s.cpsr.t) base)

/-- `raise E` by the executing instruction: the pc value is `pc`, that is A + 2 (R15, R227). -/
def raise (e : ExceptionKind) (s : State) : Result := enter e s.pc s

/-- `spsr_for(mode)` (R30): the SPSR of a privileged mode, ModeFault for User and System (R245). The spec does not say
what it answers for a mode field outside the seven values: the model refuses it as an invalid mode (DESIGN CHOICE,
log 12). -/
def spsrFor (m : BitVec 5) (s : State) : Except Refusal Psr :=
  match Mode.ofBits m with
  | none => .error .invalidMode
  | some mode => match mode.excMode with
    | none => .error .modeFault
    | some x => .ok (s.spsr.get x)

/-- `WriteCPSR(v)`, the one operation a return needs (R233; R31). The register view follows the mode field (R22). -/
def writeCpsr (v : Word) (s : State) : Result :=
  match Mode.ofBits (Psr.ofWord v).m with
  | none => .refused .invalidMode
  | some _ => .next { s with cpsr := Psr.ofWord v }

/-- Set `pc` with the mask of the current instruction-set state (R32, R233). -/
def State.resumeAt (s : State) (target : Word) : State :=
  { s with pc := if s.cpsr.t then alignHalf target else alignWord target }

/-- A return from an exception (R233): `WriteCPSR(SPSR[m])` for the current mode m, then `pc` is set to the return
address with the mask of the restored T. ARM code asks for it; no Thumb instruction can. -/
def returnFromException (target : Word) (s : State) : Result :=
  match spsrFor s.cpsr.m s with
  | .error r => .refused r
  | .ok p => match writeCpsr p.toWord s with
    | .next s' => .next (s'.resumeAt target)
    | .fault r => .fault r
    | .refused r => .refused r

/-! ### Single transfers -/

/-- Finish a load: the value goes to Rd, or DataAbort is raised and Rd is not written (R167, R244). -/
def finishLoad (rd : Fin 8) (f : Word → Word) : Access Word → Result
  | .ok v s => .next (s.setLow rd (f v))
  | .abort s => raise .dataAbort s

/-- Finish a store: memory is written, or DataAbort is raised and it is not (R167, R244). -/
def finishStore : Access Unit → Result
  | .ok _ s => .next s
  | .abort s => raise .dataAbort s

/-- `R[Rd] <- LoadWord(a)` (R54). -/
def loadWordInto (rd : Fin 8) (a : Word) (s : State) : Result :=
  finishLoad rd (rotateLoaded a) (s.busRead .word (alignWord a))

/-- `StoreWord(a, v)` (R55). -/
def storeWordAt (a v : Word) (s : State) : Result := finishStore (s.busWrite .word (alignWord a) v)

/-- `R[Rd] <- zext_8(MemRead(a, 1))` (R154). -/
def loadByteInto (rd : Fin 8) (a : Word) (s : State) : Result := finishLoad rd id (s.busRead .byte a)

/-- `MemWrite(a, 1, v)` (R152). -/
def storeByteAt (a v : Word) (s : State) : Result := finishStore (s.busWrite .byte a v)

/-- `sext_8` of the low byte (R11). -/
def signByte (v : Word) : Word := (v.extractLsb' 0 8).signExtend 32

/-- `sext_16` of the low halfword (R11). -/
def signHalf (v : Word) : Word := (v.extractLsb' 0 16).signExtend 32

/-- `R[Rd] <- sext_8(MemRead(a, 1))` (R156). -/
def loadSignedByteInto (rd : Fin 8) (a : Word) (s : State) : Result := finishLoad rd signByte (s.busRead .byte a)

/-- A halfword load at an odd address with `misaligned_halfword = unspecified`: Rd gets `Draw()`, and no access is
named (R56, R61; log 18). -/
def drawInto (rd : Fin 8) (s : State) : Result := .next (s.drawn.setLow rd s.freeWord)

/-- LDRH at an address (R157, R164, R56). -/
def loadHalfInto (rd : Fin 8) (a : Word) (s : State) : Result :=
  if a.getLsbD 0 then
    match s.cfg.misalignedHalfword with
    | .unspecified => drawInto rd s
    | .forceAlign => finishLoad rd (fun v => v.rotateRight 8) (s.busRead .half (alignHalf a))
  else finishLoad rd id (s.busRead .half a)

/-- LDRSH at an address (R158, R56). -/
def loadSignedHalfInto (rd : Fin 8) (a : Word) (s : State) : Result :=
  if a.getLsbD 0 then
    match s.cfg.misalignedHalfword with
    | .unspecified => drawInto rd s
    | .forceAlign => finishLoad rd signByte (s.busRead .byte a)
  else finishLoad rd signHalf (s.busRead .half a)

/-- STRH at an address (R155, R163, R56). -/
def storeHalfAt (a v : Word) (s : State) : Result :=
  if a.getLsbD 0 then
    match s.cfg.misalignedHalfword with
    | .unspecified => .refused .misalignedHalfwordStore
    | .forceAlign => finishStore (s.busWrite .half (alignHalf a) v)
  else finishStore (s.busWrite .half a v)

/-! ### Multiple transfers -/

/-- The end of a multiple transfer: every word done, or an abort after `k` words (R231, R244). -/
inductive Transfer (α : Type) where
  | done (v : α) (s : State)
  | abort (k : Nat) (s : State)

/-- Store words at rising addresses from `a`, each access ignoring the low two address bits (R57). `k` words are
already done. -/
def storeWords : List Word → Nat → Word → State → Transfer Unit
  | [], _, _, s => .done () s
  | v :: rest, k, a, s =>
    match s.busWrite .word (alignWord a) v with
    | .ok _ s' => storeWords rest (k + 1) (a + 4) s'
    | .abort s' => .abort k s'

/-- Load `n` words from rising addresses from `a` (R57). `done` holds the words already loaded, in order. -/
def loadWords : Nat → List Word → Word → State → Transfer (List Word)
  | 0, done, _, s => .done done s
  | n + 1, done, a, s =>
    match s.busRead .word (alignWord a) with
    | .ok v s' => loadWords n (done ++ [v]) (a + 4) s'
    | .abort s' => .abort done.length s'

/-- Put words into low registers, one each. -/
def State.setLows (s : State) : List (Fin 8) → List Word → State
  | r :: rs, v :: vs => State.setLows (s.setLow r v) rs vs
  | _, _ => s

/-- The listed registers hold free values (R231, D37). -/
def State.spoilLows (s : State) : List (Fin 8) → State
  | [] => s
  | r :: rs => State.spoilLows (s.drawn.setLow r s.freeWord) rs

/-- SP holds a free value (R231, D37). -/
def State.spoilSp (s : State) : State := s.drawn.setSp s.freeWord

/-- The `k` words from `a` hold free values (R231, D37). -/
def State.spoilWords (s : State) (a : Word) : Nat → State
  | 0 => s
  | k + 1 => State.spoilWords { s.drawn with mem := Memory.write s.mem .word (alignWord a) s.freeWord } (a + 4) k

/-- DataAbort in a multiple transfer. At the first access nothing has been transferred and the exception is precise;
after it, what `spoil` names is a free value (R231, R244, D37; log 11). -/
def abortTransfer (k : Nat) (spoil : State → State) (s : State) : Result :=
  if k = 0 then raise .dataAbort s else raise .dataAbort (spoil s)

end Sys2Proof.Machine
end

