-- ==== Sys2Proof/Machine/Boundary.lean ====
section
/-! DEFINITION. One instruction boundary up to the execution of the fetched word: the mode check, the poll, the handoff
and the fetch (60_exceptions.md R223, R243; 70_reset_and_hazards.md R266, R267; 30_encoding.md R71). -/

namespace Sys2Proof.Machine

/-- The pc value of an interrupt's link, as if the fetch of the next instruction had happened and been abandoned (R227,
D2): that instruction's address plus its size (log 13). -/
def State.pcAbandoned (s : State) : Word := if s.cpsr.t then alignHalf s.pc + 2 else alignWord s.pc + 4

/-- Whether the abandoned fetch takes an answer of the bus is a free value (R227, D26; log 7). -/
def State.abandonFetch (s : State) : State :=
  { s with bus := if Config.abandonedFetchReachesBus s.draws then s.bus.tail else s.bus, draws := s.draws + 1 }

/-- An interrupt taken by the poll (R223, R227). -/
def takeInterrupt (e : ExceptionKind) (s : State) : Result := enter e s.pcAbandoned s.abandonFetch

/-- `Poll()` (R223): FIQ, then IRQ, then HALT's idle cycle; none where the fetch goes ahead. -/
def poll (s : State) : Option Result :=
  if s.lines.fiq && !s.cpsr.f then some (takeInterrupt .fiq s)
  else if s.lines.irq && !s.cpsr.i then some (takeInterrupt .irq s)
  else if s.lines.halt then some (.next { s with clock := s.clock + 1 })
  else none

/-- A byte of the halfword at `a` has been written, by this core or by another agent of the bus (R68; log 8). -/
def State.storedTo (s : State) (a : Word) : Bool := s.stored.contains a.toNat || s.stored.contains (a + 1).toNat

/-- `Fetch16(A)` and `pc <- A + 2` (R53, R71): the platform's answer or memory's; under `fetch_sees_stores = false`, a
free value from a written address (R68, D7). The increment happens even where the fetch aborts (R227, R243). Where R61's
answer of the platform and R68's free draw both apply, the draw is taken: the spec does not say which, and a free value
allows the platform's data too (DEDUCED, log 8). -/
def fetch16 (s : State) : Access Half :=
  let a := alignHalf s.pc
  match s.busRead .half a with
  | .abort s' => .abort { s' with pc := a + 2 }
  | .ok v s' =>
    if !s.cfg.fetchSeesStores && s.storedTo a then .ok (s'.freeWord.extractLsb' 0 16) { s'.drawn with pc := a + 2 }
    else .ok (v.extractLsb' 0 16) { s' with pc := a + 2 }

/-- What a boundary comes to: the step is over, or this word is to be executed. -/
inductive Boundary where
  | done (r : Result)
  | run (op : Half) (s : State)

/-- The step of R267 up to `execute`; the executed instruction's own cycle is charged here (R272). -/
def boundary (s : State) : Boundary :=
  if Mode.ofBits s.cpsr.m = none then .done (.refused .invalidMode)
  else match poll s with
    | some r => .done r
    | none =>
      if s.cpsr.t then
        match fetch16 s with
        | .ok op s' => .run op { s' with clock := s'.clock + 1 }
        | .abort s' => .done (raise .prefetchAbort s')
      else .done (.fault .handoff)

/-- The state with a word where the next step fetches, and all that this takes (log 10): Thumb state, a legal mode, no
line asserted, and a fetch answered by memory. -/
def State.loadFetchWord (s : State) (w : Half) : State :=
  let a := alignHalf s.pc
  { s with
    cpsr   := { s.cpsr with t := true, m := if Mode.ofBits s.cpsr.m = none then 0x13#5 else s.cpsr.m }
    lines  := { fiq := false, irq := false, halt := false }
    mem    := Memory.write s.mem .half a (w.zeroExtend 32)
    bus    := match s.bus with
      | [] => []
      | ans :: rest => { ans with abort := false, data := none } :: rest
    stored := s.stored.filter (fun k => k != a.toNat && k != (a + 1).toNat) }

end Sys2Proof.Machine
end

