-- ==== Sys2Proof/Machine/Flags.lean ====
section
/-! DEFINITION. Every flag computation (00_scope.md R14; 40_shift_addsub_imm.md; 41_alu_register.md), the shifter, and
the condition table (46_branch_swi.md R200). -/

namespace Sys2Proof.Machine

/-- `SetNZ(v)` (R14). -/
def Psr.setNZ (p : Psr) (v : Word) : Psr := { p with n := v.getLsbD 31, z := decide (v = 0#32) }

/-- `AddFlags(a, b, r)` (R14). -/
def Psr.addFlags (p : Psr) (a b r : Word) : Psr :=
  { p with c := r.ult a, v := ((a ^^^ r) &&& (b ^^^ r)).getLsbD 31 }

/-- `SubFlags(a, b, r)` (R14); C is no-borrow. -/
def Psr.subFlags (p : Psr) (a b r : Word) : Psr :=
  { p with c := r.ule a, v := ((a ^^^ b) &&& (a ^^^ r)).getLsbD 31 }

/-- Write C alone. -/
def Psr.setC (p : Psr) (c : Bool) : Psr := { p with c := c }

/-- The carry as a word, `cin`. -/
def Psr.carryIn (p : Psr) : Word := if p.c then 1 else 0

/-! ### The shifter: the result and the carry out, for an amount and the carry before -/

/-- Logical shift left (R100, R123). -/
def shiftLeft (v : Word) (n : Nat) (c : Bool) : Word × Bool :=
  if n = 0 then (v, c)
  else if n < 32 then (v <<< n, v.getLsbD (32 - n))
  else if n = 32 then (0, v.getLsbD 0)
  else (0, false)

/-- Logical shift right (R101, R124). -/
def shiftRight (v : Word) (n : Nat) (c : Bool) : Word × Bool :=
  if n = 0 then (v, c)
  else if n < 32 then (v >>> n, v.getLsbD (n - 1))
  else if n = 32 then (0, v.getLsbD 31)
  else (0, false)

/-- Arithmetic shift right (R102, R125). -/
def shiftArith (v : Word) (n : Nat) (c : Bool) : Word × Bool :=
  if n = 0 then (v, c)
  else if n < 32 then (v.sshiftRight n, v.getLsbD (n - 1))
  else (if v.getLsbD 31 then 0xFFFFFFFF#32 else 0, v.getLsbD 31)

/-- Rotate right (R128). -/
def rotate (v : Word) (n : Nat) (c : Bool) : Word × Bool :=
  if n = 0 then (v, c)
  else if n % 32 = 0 then (v, v.getLsbD 31)
  else (v.rotateRight (n % 32), (v.rotateRight (n % 32)).getLsbD 31)

/-! ### Flag-writing operations on the machine -/

/-- Write a result with N and Z from it, and C as given (R100 to R102, R123 to R125, R128). -/
def State.shiftInto (s : State) (rd : Fin 8) (out : Word × Bool) : State :=
  { s with cpsr := (s.cpsr.setC out.2).setNZ out.1 }.setLow rd out.1

/-- Write a result with N and Z from it (the logical operations, MOV and MUL). -/
def State.moveInto (s : State) (rd : Fin 8) (r : Word) : State := { s with cpsr := s.cpsr.setNZ r }.setLow rd r

/-- N and Z of a result that is not written (R129). -/
def State.testFlags (s : State) (r : Word) : State := { s with cpsr := s.cpsr.setNZ r }

/-- `r <- a + b; AddFlags(a, b, r); SetNZ(r)` (R132). -/
def State.addTest (s : State) (a b : Word) : State := { s with cpsr := (s.cpsr.addFlags a b (a + b)).setNZ (a + b) }

/-- `r <- a - b; SubFlags(a, b, r); SetNZ(r)` (R108, R131). -/
def State.subTest (s : State) (a b : Word) : State := { s with cpsr := (s.cpsr.subFlags a b (a - b)).setNZ (a - b) }

/-- An addition with its flags, into Rd (R103, R105, R109). -/
def State.addInto (s : State) (rd : Fin 8) (a b : Word) : State := (s.addTest a b).setLow rd (a + b)

/-- A subtraction with its flags, into Rd (R104, R106, R110). -/
def State.subInto (s : State) (rd : Fin 8) (a b : Word) : State := (s.subTest a b).setLow rd (a - b)

/-- C and V of ADC: of the base addition (R126), or of the whole operation (R137). -/
def Psr.adcFlags (p : Psr) (k : AdcSbcFlags) (a b r : Word) : Psr :=
  match k with
  | .source => p.addFlags a b (a + b)
  | .architectural =>
    { p with c := decide (2 ^ 32 ≤ a.toNat + b.toNat + p.carryIn.toNat), v := ((a ^^^ r) &&& (b ^^^ r)).getLsbD 31 }

/-- C and V of SBC: of the base subtraction (R127), or of the whole operation (R137). -/
def Psr.sbcFlags (p : Psr) (k : AdcSbcFlags) (a b r : Word) : Psr :=
  match k with
  | .source => p.subFlags a b (a - b)
  | .architectural =>
    { p with c := decide (b.toNat + (1 - p.carryIn.toNat) ≤ a.toNat), v := ((a ^^^ b) &&& (a ^^^ r)).getLsbD 31 }

/-! ### Conditions -/

/-- The fourteen conditions (R200). -/
inductive Cond where
  | eq | ne | cs | cc | mi | pl | vs | vc | hi | ls | ge | lt | gt | le
deriving DecidableEq, Repr

/-- `CondPass(cond)` over the flags before the instruction (R200). -/
def Cond.passes (k : Cond) (p : Psr) : Bool :=
  match k with
  | .eq => p.z
  | .ne => !p.z
  | .cs => p.c
  | .cc => !p.c
  | .mi => p.n
  | .pl => !p.n
  | .vs => p.v
  | .vc => !p.v
  | .hi => p.c && !p.z
  | .ls => !p.c || p.z
  | .ge => p.n == p.v
  | .lt => p.n != p.v
  | .gt => !p.z && (p.n == p.v)
  | .le => p.z || (p.n != p.v)

end Sys2Proof.Machine
end

