-- ==== Sys2Proof/Machine/Operands.lean ====
section
/-! DEFINITION. The operand forms: immediates, addresses and register lists (30_encoding.md R92, R93). -/

namespace Sys2Proof.Machine

/-! ### Immediates (R92) -/

/-- imm3, zero-extended (F2). -/
def zext3 (i : BitVec 3) : Word := i.zeroExtend 32

/-- imm8, zero-extended (F3). -/
def zext8 (i : BitVec 8) : Word := i.zeroExtend 32

/-- imm5 as a byte offset (F9 byte). -/
def offset5 (i : BitVec 5) : Word := i.zeroExtend 32

/-- imm5 * 2 (F10). -/
def offset5x2 (i : BitVec 5) : Word := i.zeroExtend 32 * 2

/-- imm5 * 4 (F9 word). -/
def offset5x4 (i : BitVec 5) : Word := i.zeroExtend 32 * 4

/-- imm7 * 4 (F13). -/
def offset7x4 (i : BitVec 7) : Word := i.zeroExtend 32 * 4

/-- imm8 * 4 (F6, F11, F12). -/
def offset8x4 (i : BitVec 8) : Word := i.zeroExtend 32 * 4

/-- `sext_8(imm8) << 1` (F16). -/
def branch8 (i : BitVec 8) : Word := i.signExtend 32 <<< 1

/-- `sext_11(imm11) << 1` (F18). -/
def branch11 (i : BitVec 11) : Word := i.signExtend 32 <<< 1

/-- `sext_11(imm11) << 12` (F19 prefix). -/
def branchHigh (i : BitVec 11) : Word := i.signExtend 32 <<< 12

/-- `imm11 << 1` (F19 suffix). -/
def branchLow (i : BitVec 11) : Word := i.zeroExtend 32 <<< 1

/-- The shift amount of LSR and ASR by an immediate: 0 encodes 32 (R92, R101, R102). -/
def shiftAmount (i : BitVec 5) : Nat := if i = 0#5 then 32 else i.toNat

/-- The shift or rotate amount of F4: the low byte of Rs (R92, R120). -/
def lowByte (v : Word) : Nat := (v.extractLsb' 0 8).toNat

/-! ### Addresses -/

/-- The PC as a word-aligned base, `R[15] & ~2` (F6, F12; R150, R180). -/
def State.pcBase (s : State) : Word := s.pcRead &&& ~~~(2#32)

/-- Rb + Ro (F7, F8). -/
def State.addrReg (s : State) (rb ro : Fin 8) : Word := s.low rb + s.low ro

/-- The PC-relative address (F6, F12). -/
def State.addrPc (s : State) (imm8 : BitVec 8) : Word := s.pcBase + offset8x4 imm8

/-- The SP-relative address (F11, F12). -/
def State.addrSp (s : State) (imm8 : BitVec 8) : Word := s.sp + offset8x4 imm8

/-! ### Register lists (R93) -/

/-- The registers of a list, ascending. -/
def listed (rlist : BitVec 8) : List (Fin 8) :=
  ([0, 1, 2, 3, 4, 5, 6, 7] : List (Fin 8)).filter (fun k => rlist.getLsbD k.val)

/-- `4 * n` for n words. -/
def wordsSize (n : Nat) : Word := BitVec.ofNat 32 (4 * n)

end Sys2Proof.Machine
end

