-- ==== Sys2Proof/Machine/AddSub.lean ====
section
/-! DEFINITION. F2 and F3: add, subtract, move and compare (40_shift_addsub_imm.md R103 to R110). -/

namespace Sys2Proof.Machine

/-- ADD Rd, Rs, Rn (R103). -/
def execAddReg (rd rs rn : Fin 8) (s : State) : Result := .next (s.addInto rd (s.low rs) (s.low rn))

/-- SUB Rd, Rs, Rn (R104). -/
def execSubReg (rd rs rn : Fin 8) (s : State) : Result := .next (s.subInto rd (s.low rs) (s.low rn))

/-- ADD Rd, Rs, #imm3 (R105). -/
def execAddImm3 (rd rs : Fin 8) (imm3 : BitVec 3) (s : State) : Result := .next (s.addInto rd (s.low rs) (zext3 imm3))

/-- SUB Rd, Rs, #imm3 (R106). -/
def execSubImm3 (rd rs : Fin 8) (imm3 : BitVec 3) (s : State) : Result := .next (s.subInto rd (s.low rs) (zext3 imm3))

/-- MOV Rd, #imm8 (R107). -/
def execMovImm (rd : Fin 8) (imm8 : BitVec 8) (s : State) : Result := .next (s.moveInto rd (zext8 imm8))

/-- CMP Rd, #imm8 (R108). -/
def execCmpImm (rd : Fin 8) (imm8 : BitVec 8) (s : State) : Result := .next (s.subTest (s.low rd) (zext8 imm8))

/-- ADD Rd, #imm8 (R109). -/
def execAddImm8 (rd : Fin 8) (imm8 : BitVec 8) (s : State) : Result := .next (s.addInto rd (s.low rd) (zext8 imm8))

/-- SUB Rd, #imm8 (R110). -/
def execSubImm8 (rd : Fin 8) (imm8 : BitVec 8) (s : State) : Result := .next (s.subInto rd (s.low rd) (zext8 imm8))

end Sys2Proof.Machine
end

