-- ==== Sys2Proof/Machine/Alu.lean ====
section
/-! DEFINITION. F4: the sixteen ALU operations on two low registers (41_alu_register.md R120 to R137). -/

namespace Sys2Proof.Machine

/-- AND Rd, Rs (R121). -/
def execAnd (rd rs : Fin 8) (s : State) : Result := .next (s.moveInto rd (s.low rd &&& s.low rs))

/-- EOR Rd, Rs (R122). -/
def execEor (rd rs : Fin 8) (s : State) : Result := .next (s.moveInto rd (s.low rd ^^^ s.low rs))

/-- LSL Rd, Rs (R123). -/
def execLslReg (rd rs : Fin 8) (s : State) : Result :=
  .next (s.shiftInto rd (shiftLeft (s.low rd) (lowByte (s.low rs)) s.cpsr.c))

/-- LSR Rd, Rs (R124). -/
def execLsrReg (rd rs : Fin 8) (s : State) : Result :=
  .next (s.shiftInto rd (shiftRight (s.low rd) (lowByte (s.low rs)) s.cpsr.c))

/-- ASR Rd, Rs (R125). -/
def execAsrReg (rd rs : Fin 8) (s : State) : Result :=
  .next (s.shiftInto rd (shiftArith (s.low rd) (lowByte (s.low rs)) s.cpsr.c))

/-- ADC Rd, Rs (R126, R137). -/
def execAdc (rd rs : Fin 8) (s : State) : Result :=
  let r := s.low rd + s.low rs + s.cpsr.carryIn
  .next ({ s with cpsr := (s.cpsr.adcFlags s.cfg.adcSbcFlags (s.low rd) (s.low rs) r).setNZ r }.setLow rd r)

/-- SBC Rd, Rs (R127, R137). -/
def execSbc (rd rs : Fin 8) (s : State) : Result :=
  let r := s.low rd - s.low rs + s.cpsr.carryIn - 1
  .next ({ s with cpsr := (s.cpsr.sbcFlags s.cfg.adcSbcFlags (s.low rd) (s.low rs) r).setNZ r }.setLow rd r)

/-- ROR Rd, Rs (R128). -/
def execRor (rd rs : Fin 8) (s : State) : Result :=
  .next (s.shiftInto rd (rotate (s.low rd) (lowByte (s.low rs)) s.cpsr.c))

/-- TST Rd, Rs (R129). -/
def execTst (rd rs : Fin 8) (s : State) : Result := .next (s.testFlags (s.low rd &&& s.low rs))

/-- NEG Rd, Rs (R130). -/
def execNeg (rd rs : Fin 8) (s : State) : Result := .next (s.subInto rd 0 (s.low rs))

/-- CMP Rd, Rs (R131). -/
def execCmpReg (rd rs : Fin 8) (s : State) : Result := .next (s.subTest (s.low rd) (s.low rs))

/-- CMN Rd, Rs (R132). -/
def execCmn (rd rs : Fin 8) (s : State) : Result := .next (s.addTest (s.low rd) (s.low rs))

/-- ORR Rd, Rs (R133). -/
def execOrr (rd rs : Fin 8) (s : State) : Result := .next (s.moveInto rd (s.low rd ||| s.low rs))

/-- MUL Rd, Rs (R134): ARMv4 clears C, ARMv5 keeps it. -/
def execMul (rd rs : Fin 8) (s : State) : Result :=
  let s' := match s.cfg.arch with
    | .armv4 => { s with cpsr := s.cpsr.setC false }
    | .armv5 => s
  .next (s'.moveInto rd (s.low rd * s.low rs))

/-- BIC Rd, Rs (R135). -/
def execBic (rd rs : Fin 8) (s : State) : Result := .next (s.moveInto rd (s.low rd &&& ~~~(s.low rs)))

/-- MVN Rd, Rs (R136). -/
def execMvn (rd rs : Fin 8) (s : State) : Result := .next (s.moveInto rd (~~~(s.low rs)))

end Sys2Proof.Machine
end

