-- ==== Sys2Proof/Machine/Block.lean ====
section
/-! DEFINITION. F15: STMIA and LDMIA (45_block_transfer.md R190 to R193). -/

namespace Sys2Proof.Machine

/-- The base after an empty list, `R[Rb] + 0x40` (R193). -/
def State.advanceBase (s : State) (rb : Fin 8) : State := s.setLow rb (s.low rb + 0x40#32)

/-- The R15 value that an empty STMIA stores on ARMv4, A + 4 or A + 6 by `stm_empty_pc_value` (R193, D16). -/
def State.emptyStmPc (s : State) : Word :=
  match s.cfg.stmEmptyPcValue with
  | .aPlus4 => s.pcRead
  | .aPlus6 => s.pcRead + 2

/-- STMIA with an empty list (R193): ARMv4 stores R15, ARMv5 transfers nothing. -/
def stmEmpty (rb : Fin 8) (s : State) : Result :=
  match s.cfg.arch with
  | .armv5 => .next (s.advanceBase rb)
  | .armv4 =>
    match s.busWrite .word (alignWord (s.low rb)) s.emptyStmPc with
    | .ok _ s' => .next (s'.advanceBase rb)
    | .abort s' => raise .dataAbort s'

/-- LDMIA with an empty list (R193): ARMv4 loads R15 and stays Thumb, ARMv5 transfers nothing. -/
def ldmEmpty (rb : Fin 8) (s : State) : Result :=
  match s.cfg.arch with
  | .armv5 => .next (s.advanceBase rb)
  | .armv4 =>
    match s.busRead .word (alignWord (s.low rb)) with
    | .ok v s' => .next ((s'.jumpThumb v).advanceBase rb)
    | .abort s' => raise .dataAbort s'

/-- The word STMIA stores for register `k` (R191): the register, the original base where the base is first in the list;
otherwise for the base, the final base on ARMv4 and `Draw()` on ARMv5. -/
def State.stmWord (s : State) (rb : Fin 8) (regs : List (Fin 8)) (final : Word) (k : Fin 8) : Word :=
  if k = rb ∧ regs.head? ≠ some k then
    match s.cfg.arch with
    | .armv4 => final
    | .armv5 => s.freeWord
  else s.low k

/-- Whether STMIA draws a free value (R191): the base is in the list, not first, on ARMv5. -/
def State.stmDraws (s : State) (rb : Fin 8) (regs : List (Fin 8)) : Bool :=
  decide (s.cfg.arch = .armv5) && decide (rb ∈ regs) && decide (regs.head? ≠ some rb)

/-- STMIA Rb!, rlist (R191, R193). -/
def execStmia (rb : Fin 8) (rlist : BitVec 8) (s : State) : Result :=
  let regs := listed rlist
  let base := s.low rb
  let final := base + wordsSize regs.length
  if regs = [] then stmEmpty rb s
  else match storeWords (regs.map (s.stmWord rb regs final)) 0 base (if s.stmDraws rb regs then s.drawn else s) with
    | .done _ s' => .next (s'.setLow rb final)
    | .abort k s' => abortTransfer k (fun x => (x.spoilWords base k).spoilLows [rb]) s'

/-- LDMIA Rb!, rlist (R192, R193): no writeback where the base is in the list. -/
def execLdmia (rb : Fin 8) (rlist : BitVec 8) (s : State) : Result :=
  let regs := listed rlist
  let base := s.low rb
  if regs = [] then ldmEmpty rb s
  else match loadWords regs.length [] base s with
    | .done words s' =>
      if rb ∈ regs then .next (s'.setLows regs words)
      else .next ((s'.setLows regs words).setLow rb (base + wordsSize regs.length))
    | .abort k s' => abortTransfer k (fun x => x.spoilLows (if rb ∈ regs then regs else rb :: regs)) s'

end Sys2Proof.Machine
end

