-- ==== Sys2Proof/Machine/Branch.lean ====
section
/-! DEFINITION. F16, F18 and F19: branches, SWI and the long branch (46_branch_swi.md R200 to R209). -/

namespace Sys2Proof.Machine

/-- A conditional branch (R201): taken to `R[15] + (sext_8(imm8) << 1)`, otherwise on to A + 2. -/
def State.branchIf (s : State) (k : Cond) (imm8 : BitVec 8) : State :=
  if k.passes s.cpsr then { s with pc := s.pcRead + branch8 imm8 } else s

/-- BEQ label (R201). -/
def execBeq (imm8 : BitVec 8) (s : State) : Result := .next (s.branchIf .eq imm8)

/-- BNE label (R201). -/
def execBne (imm8 : BitVec 8) (s : State) : Result := .next (s.branchIf .ne imm8)

/-- BCS label (R201). -/
def execBcs (imm8 : BitVec 8) (s : State) : Result := .next (s.branchIf .cs imm8)

/-- BCC label (R201). -/
def execBcc (imm8 : BitVec 8) (s : State) : Result := .next (s.branchIf .cc imm8)

/-- BMI label (R201). -/
def execBmi (imm8 : BitVec 8) (s : State) : Result := .next (s.branchIf .mi imm8)

/-- BPL label (R201). -/
def execBpl (imm8 : BitVec 8) (s : State) : Result := .next (s.branchIf .pl imm8)

/-- BVS label (R201). -/
def execBvs (imm8 : BitVec 8) (s : State) : Result := .next (s.branchIf .vs imm8)

/-- BVC label (R201). -/
def execBvc (imm8 : BitVec 8) (s : State) : Result := .next (s.branchIf .vc imm8)

/-- BHI label (R201). -/
def execBhi (imm8 : BitVec 8) (s : State) : Result := .next (s.branchIf .hi imm8)

/-- BLS label (R201). -/
def execBls (imm8 : BitVec 8) (s : State) : Result := .next (s.branchIf .ls imm8)

/-- BGE label (R201). -/
def execBge (imm8 : BitVec 8) (s : State) : Result := .next (s.branchIf .ge imm8)

/-- BLT label (R201). -/
def execBlt (imm8 : BitVec 8) (s : State) : Result := .next (s.branchIf .lt imm8)

/-- BGT label (R201). -/
def execBgt (imm8 : BitVec 8) (s : State) : Result := .next (s.branchIf .gt imm8)

/-- BLE label (R201). -/
def execBle (imm8 : BitVec 8) (s : State) : Result := .next (s.branchIf .le imm8)

/-- SWI #imm8 (R203): imm8 is ignored. -/
def execSwi (s : State) : Result := raise .swi s

/-- B label (R204). -/
def execB (imm11 : BitVec 11) (s : State) : Result := .next { s with pc := s.pcRead + branch11 imm11 }

/-- BL prefix (R205). -/
def execBlPrefix (imm11 : BitVec 11) (s : State) : Result := .next (s.setLr (s.pcRead + branchHigh imm11))

/-- BL suffix (R206): the target from the old LR; the link is (A + 2) | 1. -/
def execBlSuffix (imm11 : BitVec 11) (s : State) : Result :=
  .next ((s.setLr (s.pc ||| 1)).jumpThumb (s.lr + branchLow imm11))

/-- BLX suffix (R207): ARMv5 only; it switches to ARM state. -/
def execBlxSuffix (imm11 : BitVec 11) (s : State) : Result :=
  match s.cfg.arch with
  | .armv4 => raise .undefined s
  | .armv5 => .next ((s.setLr (s.pc ||| 1)).jumpArm (s.lr + branchLow imm11))

end Sys2Proof.Machine
end

