-- ==== Sys2Proof/Machine/HiReg.lean ====
section
/-! DEFINITION. F5: operations over R0 to R15, and branch and exchange (42_hireg_bx.md R140 to R145). -/

namespace Sys2Proof.Machine

/-- ADD Rd, Rs over any registers, flags untouched (R141). -/
def execAddHi (rd rs : Fin 16) (s : State) : Result := .next (s.writeReg rd (s.readReg rd + s.readReg rs))

/-- CMP Rd, Rs over any registers (R142). -/
def execCmpHi (rd rs : Fin 16) (s : State) : Result := .next (s.subTest (s.readReg rd) (s.readReg rs))

/-- MOV Rd, Rs over any registers, flags untouched (R143). -/
def execMovHi (rd rs : Fin 16) (s : State) : Result := .next (s.writeReg rd (s.readReg rs))

/-- BX Rs (R144); bits 2:0 of the word are ignored. -/
def execBx (rs : Fin 16) (s : State) : Result := .next (s.jumpExchange (s.readReg rs))

/-- BLX Rs (R145): ARMv5 only; the target is read before LR is written, and the link is (A + 2) | 1. -/
def execBlxReg (rs : Fin 16) (s : State) : Result :=
  match s.cfg.arch with
  | .armv4 => raise .undefined s
  | .armv5 => .next ((s.setLr (s.pc ||| 1)).jumpExchange (s.readReg rs))

end Sys2Proof.Machine
end

