-- ==== Sys2Proof/Machine/LoadStore.lean ====
section
/-! DEFINITION. F6 to F11: single loads and stores (43_load_store.md R150 to R167). No flag, base register or R15 is
written; an aborted access raises DataAbort (R167). -/

namespace Sys2Proof.Machine

/-- LDR Rd, [PC, #imm8*4] (R150). -/
def execLdrPc (rd : Fin 8) (imm8 : BitVec 8) (s : State) : Result :=
  finishLoad rd id (s.busRead .word (s.addrPc imm8))

/-- STR Rd, [Rb, Ro] (R151). -/
def execStrReg (rd rb ro : Fin 8) (s : State) : Result := storeWordAt (s.addrReg rb ro) (s.low rd) s

/-- STRB Rd, [Rb, Ro] (R152). -/
def execStrbReg (rd rb ro : Fin 8) (s : State) : Result := storeByteAt (s.addrReg rb ro) (s.low rd) s

/-- LDR Rd, [Rb, Ro] (R153). -/
def execLdrReg (rd rb ro : Fin 8) (s : State) : Result := loadWordInto rd (s.addrReg rb ro) s

/-- LDRB Rd, [Rb, Ro] (R154). -/
def execLdrbReg (rd rb ro : Fin 8) (s : State) : Result := loadByteInto rd (s.addrReg rb ro) s

/-- STRH Rd, [Rb, Ro] (R155). -/
def execStrhReg (rd rb ro : Fin 8) (s : State) : Result := storeHalfAt (s.addrReg rb ro) (s.low rd) s

/-- LDRSB Rd, [Rb, Ro] (R156). -/
def execLdrsbReg (rd rb ro : Fin 8) (s : State) : Result := loadSignedByteInto rd (s.addrReg rb ro) s

/-- LDRH Rd, [Rb, Ro] (R157). -/
def execLdrhReg (rd rb ro : Fin 8) (s : State) : Result := loadHalfInto rd (s.addrReg rb ro) s

/-- LDRSH Rd, [Rb, Ro] (R158). -/
def execLdrshReg (rd rb ro : Fin 8) (s : State) : Result := loadSignedHalfInto rd (s.addrReg rb ro) s

/-- STR Rd, [Rb, #imm5*4] (R159). -/
def execStrImm (rd rb : Fin 8) (imm5 : BitVec 5) (s : State) : Result :=
  storeWordAt (s.low rb + offset5x4 imm5) (s.low rd) s

/-- LDR Rd, [Rb, #imm5*4] (R160). -/
def execLdrImm (rd rb : Fin 8) (imm5 : BitVec 5) (s : State) : Result := loadWordInto rd (s.low rb + offset5x4 imm5) s

/-- STRB Rd, [Rb, #imm5] (R161). -/
def execStrbImm (rd rb : Fin 8) (imm5 : BitVec 5) (s : State) : Result :=
  storeByteAt (s.low rb + offset5 imm5) (s.low rd) s

/-- LDRB Rd, [Rb, #imm5] (R162). -/
def execLdrbImm (rd rb : Fin 8) (imm5 : BitVec 5) (s : State) : Result := loadByteInto rd (s.low rb + offset5 imm5) s

/-- STRH Rd, [Rb, #imm5*2] (R163). -/
def execStrhImm (rd rb : Fin 8) (imm5 : BitVec 5) (s : State) : Result :=
  storeHalfAt (s.low rb + offset5x2 imm5) (s.low rd) s

/-- LDRH Rd, [Rb, #imm5*2] (R164). -/
def execLdrhImm (rd rb : Fin 8) (imm5 : BitVec 5) (s : State) : Result := loadHalfInto rd (s.low rb + offset5x2 imm5) s

/-- STR Rd, [SP, #imm8*4] (R165). -/
def execStrSp (rd : Fin 8) (imm8 : BitVec 8) (s : State) : Result := storeWordAt (s.addrSp imm8) (s.low rd) s

/-- LDR Rd, [SP, #imm8*4] (R166). -/
def execLdrSp (rd : Fin 8) (imm8 : BitVec 8) (s : State) : Result := loadWordInto rd (s.addrSp imm8) s

end Sys2Proof.Machine
end

