-- ==== Sys2Proof/Machine/Shift.lean ====
section
/-! DEFINITION. F1: shift by an immediate (40_shift_addsub_imm.md R100 to R102). -/

namespace Sys2Proof.Machine

/-- LSL Rd, Rs, #imm5 (R100). -/
def execLslImm (rd rs : Fin 8) (imm5 : BitVec 5) (s : State) : Result :=
  .next (s.shiftInto rd (shiftLeft (s.low rs) imm5.toNat s.cpsr.c))

/-- LSR Rd, Rs, #imm5 (R101). -/
def execLsrImm (rd rs : Fin 8) (imm5 : BitVec 5) (s : State) : Result :=
  .next (s.shiftInto rd (shiftRight (s.low rs) (shiftAmount imm5) s.cpsr.c))

/-- ASR Rd, Rs, #imm5 (R102). -/
def execAsrImm (rd rs : Fin 8) (imm5 : BitVec 5) (s : State) : Result :=
  .next (s.shiftInto rd (shiftArith (s.low rs) (shiftAmount imm5) s.cpsr.c))

end Sys2Proof.Machine
end

