-- ==== Sys2Proof/Machine/Stack.lean ====
section
/-! DEFINITION. F12 to F14: address generation, SP adjustment, PUSH and POP (44_sp_pc_stack.md R180 to R186). -/

namespace Sys2Proof.Machine

/-- ADD Rd, PC, #imm8*4 (R180). -/
def execAddPc (rd : Fin 8) (imm8 : BitVec 8) (s : State) : Result := .next (s.setLow rd (s.addrPc imm8))

/-- ADD Rd, SP, #imm8*4 (R181). -/
def execAddSp (rd : Fin 8) (imm8 : BitVec 8) (s : State) : Result := .next (s.setLow rd (s.addrSp imm8))

/-- ADD SP, #imm7*4 (R182). -/
def execAddSpImm (imm7 : BitVec 7) (s : State) : Result := .next (s.setSp (s.sp + offset7x4 imm7))

/-- SUB SP, #imm7*4 (R183). -/
def execSubSpImm (imm7 : BitVec 7) (s : State) : Result := .next (s.setSp (s.sp - offset7x4 imm7))

/-- The words PUSH stores, lowest address first: the listed registers, then LR with R = 1 (R184, R93). -/
def State.pushWords (s : State) (r : Bool) (rlist : BitVec 8) : List Word :=
  (listed rlist).map s.low ++ (if r then [s.lr] else [])

/-- PUSH (R184): a full-descending stack. -/
def execPush (r : Bool) (rlist : BitVec 8) (s : State) : Result :=
  let words := s.pushWords r rlist
  let base := s.sp - wordsSize words.length
  if words = [] then .refused .emptyStackList
  else match storeWords words 0 base s with
    | .done _ s' => .next (s'.setSp base)
    | .abort k s' => abortTransfer k (fun x => (x.spoilWords base k).spoilSp) s'

/-- The popped PC: ARMv4 stays Thumb, ARMv5 lets bit 0 pick the state (R185). -/
def State.popPc (s : State) (v : Word) : State :=
  match s.cfg.arch with
  | .armv4 => s.jumpThumb v
  | .armv5 => s.jumpExchange v

/-- POP (R185). -/
def execPop (r : Bool) (rlist : BitVec 8) (s : State) : Result :=
  let regs := listed rlist
  let n := regs.length + (if r then 1 else 0)
  if n = 0 then .refused .emptyStackList
  else match loadWords n [] s.sp s with
    | .done words s' =>
      let s2 := (s'.setLows regs words).setSp (s.sp + wordsSize n)
      if r then .next (s2.popPc (words.getD regs.length 0)) else .next s2
    | .abort k s' => abortTransfer k (fun x => (x.spoilLows regs).spoilSp) s'

end Sys2Proof.Machine
end

