-- ==== Sys2Proof/Machine/Undef.lean ====
section
/-! DEFINITION. The encodings that raise Undefined (30_encoding.md R94; 46_branch_swi.md R202, R208). -/

namespace Sys2Proof.Machine

/-- oph 0xDE, F16 cond 14 (R202). -/
def execUdfDE (s : State) : Result := raise .undefined s

/-- oph 0xB1 (R208). -/
def execUdfB1 (s : State) : Result := raise .undefined s

/-- oph 0xB2 and 0xB3 (R208). -/
def execUdfB2B3 (s : State) : Result := raise .undefined s

/-- oph 0xB6 and 0xB7 (R208). -/
def execUdfB6B7 (s : State) : Result := raise .undefined s

/-- oph 0xB8 to 0xBB (R208). -/
def execUdfB8BB (s : State) : Result := raise .undefined s

/-- oph 0xBE and 0xBF (R208): bit 8 clear is 0xBE, which on ARMv5 raises PrefetchAbort where `v5_bkpt` says so. -/
def execUdfBEBF (ignored : BitVec 9) (s : State) : Result :=
  if s.cfg.arch = .armv5 ∧ ignored.getLsbD 8 = false ∧ s.cfg.v5Bkpt = .prefetchAbort then raise .prefetchAbort s
  else raise .undefined s

end Sys2Proof.Machine
end

