-- ==== Sys2Proof/Machine/Dispatch.lean ====
section
/-! DEFINITION. The dispatch: one arm per constructor, each one call of that instruction's meaning. -/

namespace Sys2Proof.Machine

def exec (i : Instr) (s : State) : Host.Outcome State Fault Refusal :=
  match i with
  | .lslImm rd rs imm5 => Sys2Proof.Machine.execLslImm rd rs imm5 s
  | .lsrImm rd rs imm5 => Sys2Proof.Machine.execLsrImm rd rs imm5 s
  | .asrImm rd rs imm5 => Sys2Proof.Machine.execAsrImm rd rs imm5 s
  | .addReg rd rs rn => Sys2Proof.Machine.execAddReg rd rs rn s
  | .subReg rd rs rn => Sys2Proof.Machine.execSubReg rd rs rn s
  | .addImm3 rd rs imm3 => Sys2Proof.Machine.execAddImm3 rd rs imm3 s
  | .subImm3 rd rs imm3 => Sys2Proof.Machine.execSubImm3 rd rs imm3 s
  | .movImm rd imm8 => Sys2Proof.Machine.execMovImm rd imm8 s
  | .cmpImm rd imm8 => Sys2Proof.Machine.execCmpImm rd imm8 s
  | .addImm8 rd imm8 => Sys2Proof.Machine.execAddImm8 rd imm8 s
  | .subImm8 rd imm8 => Sys2Proof.Machine.execSubImm8 rd imm8 s
  | .and rd rs => Sys2Proof.Machine.execAnd rd rs s
  | .eor rd rs => Sys2Proof.Machine.execEor rd rs s
  | .lslReg rd rs => Sys2Proof.Machine.execLslReg rd rs s
  | .lsrReg rd rs => Sys2Proof.Machine.execLsrReg rd rs s
  | .asrReg rd rs => Sys2Proof.Machine.execAsrReg rd rs s
  | .adc rd rs => Sys2Proof.Machine.execAdc rd rs s
  | .sbc rd rs => Sys2Proof.Machine.execSbc rd rs s
  | .ror rd rs => Sys2Proof.Machine.execRor rd rs s
  | .tst rd rs => Sys2Proof.Machine.execTst rd rs s
  | .neg rd rs => Sys2Proof.Machine.execNeg rd rs s
  | .cmpReg rd rs => Sys2Proof.Machine.execCmpReg rd rs s
  | .cmn rd rs => Sys2Proof.Machine.execCmn rd rs s
  | .orr rd rs => Sys2Proof.Machine.execOrr rd rs s
  | .mul rd rs => Sys2Proof.Machine.execMul rd rs s
  | .bic rd rs => Sys2Proof.Machine.execBic rd rs s
  | .mvn rd rs => Sys2Proof.Machine.execMvn rd rs s
  | .addHi rd rs => Sys2Proof.Machine.execAddHi rd rs s
  | .cmpHi rd rs => Sys2Proof.Machine.execCmpHi rd rs s
  | .movHi rd rs => Sys2Proof.Machine.execMovHi rd rs s
  | .bx rs _ => Sys2Proof.Machine.execBx rs s
  | .blxReg rs _ => Sys2Proof.Machine.execBlxReg rs s
  | .ldrPc rd imm8 => Sys2Proof.Machine.execLdrPc rd imm8 s
  | .strReg rd rb ro => Sys2Proof.Machine.execStrReg rd rb ro s
  | .strbReg rd rb ro => Sys2Proof.Machine.execStrbReg rd rb ro s
  | .ldrReg rd rb ro => Sys2Proof.Machine.execLdrReg rd rb ro s
  | .ldrbReg rd rb ro => Sys2Proof.Machine.execLdrbReg rd rb ro s
  | .strhReg rd rb ro => Sys2Proof.Machine.execStrhReg rd rb ro s
  | .ldrsbReg rd rb ro => Sys2Proof.Machine.execLdrsbReg rd rb ro s
  | .ldrhReg rd rb ro => Sys2Proof.Machine.execLdrhReg rd rb ro s
  | .ldrshReg rd rb ro => Sys2Proof.Machine.execLdrshReg rd rb ro s
  | .strImm rd rb imm5 => Sys2Proof.Machine.execStrImm rd rb imm5 s
  | .ldrImm rd rb imm5 => Sys2Proof.Machine.execLdrImm rd rb imm5 s
  | .strbImm rd rb imm5 => Sys2Proof.Machine.execStrbImm rd rb imm5 s
  | .ldrbImm rd rb imm5 => Sys2Proof.Machine.execLdrbImm rd rb imm5 s
  | .strhImm rd rb imm5 => Sys2Proof.Machine.execStrhImm rd rb imm5 s
  | .ldrhImm rd rb imm5 => Sys2Proof.Machine.execLdrhImm rd rb imm5 s
  | .strSp rd imm8 => Sys2Proof.Machine.execStrSp rd imm8 s
  | .ldrSp rd imm8 => Sys2Proof.Machine.execLdrSp rd imm8 s
  | .addPc rd imm8 => Sys2Proof.Machine.execAddPc rd imm8 s
  | .addSp rd imm8 => Sys2Proof.Machine.execAddSp rd imm8 s
  | .addSpImm imm7 => Sys2Proof.Machine.execAddSpImm imm7 s
  | .subSpImm imm7 => Sys2Proof.Machine.execSubSpImm imm7 s
  | .push r rlist => Sys2Proof.Machine.execPush r rlist s
  | .pop r rlist => Sys2Proof.Machine.execPop r rlist s
  | .stmia rb rlist => Sys2Proof.Machine.execStmia rb rlist s
  | .ldmia rb rlist => Sys2Proof.Machine.execLdmia rb rlist s
  | .beq imm8 => Sys2Proof.Machine.execBeq imm8 s
  | .bne imm8 => Sys2Proof.Machine.execBne imm8 s
  | .bcs imm8 => Sys2Proof.Machine.execBcs imm8 s
  | .bcc imm8 => Sys2Proof.Machine.execBcc imm8 s
  | .bmi imm8 => Sys2Proof.Machine.execBmi imm8 s
  | .bpl imm8 => Sys2Proof.Machine.execBpl imm8 s
  | .bvs imm8 => Sys2Proof.Machine.execBvs imm8 s
  | .bvc imm8 => Sys2Proof.Machine.execBvc imm8 s
  | .bhi imm8 => Sys2Proof.Machine.execBhi imm8 s
  | .bls imm8 => Sys2Proof.Machine.execBls imm8 s
  | .bge imm8 => Sys2Proof.Machine.execBge imm8 s
  | .blt imm8 => Sys2Proof.Machine.execBlt imm8 s
  | .bgt imm8 => Sys2Proof.Machine.execBgt imm8 s
  | .ble imm8 => Sys2Proof.Machine.execBle imm8 s
  | .udfDE _ => Sys2Proof.Machine.execUdfDE s
  | .swi _ => Sys2Proof.Machine.execSwi s
  | .b imm11 => Sys2Proof.Machine.execB imm11 s
  | .blxSuffix imm11 => Sys2Proof.Machine.execBlxSuffix imm11 s
  | .blPrefix imm11 => Sys2Proof.Machine.execBlPrefix imm11 s
  | .blSuffix imm11 => Sys2Proof.Machine.execBlSuffix imm11 s
  | .udfB1 _ => Sys2Proof.Machine.execUdfB1 s
  | .udfB2B3 _ => Sys2Proof.Machine.execUdfB2B3 s
  | .udfB6B7 _ => Sys2Proof.Machine.execUdfB6B7 s
  | .udfB8BB _ => Sys2Proof.Machine.execUdfB8BB s
  | .udfBEBF ignored => Sys2Proof.Machine.execUdfBEBF ignored s

end Sys2Proof.Machine
end

