-- ==== Sys2Proof/Machine/Step.lean ====
section
/-! DEFINITION. One step, and the placing of a word where it fetches (70_reset_and_hazards.md R267). -/

namespace Sys2Proof.Machine

/-- `step()`: one instruction boundary (R267). -/
def step (s : State) : Host.Outcome State Fault Refusal :=
  match boundary s with
  | .done r => r
  | .run op s' => exec (decode op) s'

/-- `s` with the table's word stored where `step` fetches its next instruction, and all that this takes (log 10). -/
def State.withFetchWord (s : State) (nbits w : Nat) : State := s.loadFetchWord (BitVec.ofNat 16 (w % 2 ^ nbits))

end Sys2Proof.Machine
end

