-- ==== Sys2Proof/Laws/PerInstr.lean ====
section
/-! SUPPORT. One lemma per constructor of Instr: decoding the instruction's word gives the instruction back. The words
are compared as numbers: each word shape has one lemma giving its value, and each field of a word is a quotient and a
remainder, which picks the row of the dispatch. -/

namespace Sys2Proof.Laws.RoundTrip

-- One lemma after the other: their bodies in parallel need more threads than the memory limit of the check allows.
set_option Elab.async false

/-- No bit of the encoding is dropped: decode of encode is the instruction. -/
def Statement (i : Instr) : Prop := decode (encode i) = i

/-! ### Fields and word shapes as numbers -/

theorem field_toNat (w : Half) (lo n : Nat) : (w.extractLsb' lo n).toNat = w.toNat / 2 ^ lo % 2 ^ n := by
  simp [BitVec.extractLsb'_toNat, Nat.shiftRight_eq_div_pow]

theorem bit_toNat (w : Half) (k : Nat) : w.getLsbD k = decide (w.toNat / 2 ^ k % 2 = 1) := Nat.testBit_eq_decide_div_mod_eq

theorem lowBits_toNat (r : Fin 8) : (lowBits r).toNat = r.val := by simp [lowBits]

theorem hiBits_toNat (r : Fin 16) : (hiBits r).toNat = r.val := by simp [hiBits]

theorem append_toNat {n m : Nat} (x : BitVec n) (y : BitVec m) : (x ++ y).toNat = x.toNat * 2 ^ m + y.toNat := by
  rw [BitVec.toNat_append, ← Nat.shiftLeft_add_eq_or_of_lt y.isLt, Nat.shiftLeft_eq]

theorem word7_toNat (key : BitVec 7) (f8 f5 : BitVec 3) (rd : Fin 8) :
    (word7 key f8 f5 rd).toNat = key.toNat * 512 + f8.toNat * 64 + f5.toNat * 8 + rd.val := by
  show BitVec.toNat (w := 7 + 3 + 3 + 3) (key ++ f8 ++ f5 ++ lowBits rd) = _
  simp only [append_toNat, lowBits_toNat]; omega

theorem wordImm5_toNat (key imm5 : BitVec 5) (rb rd : Fin 8) :
    (wordImm5 key imm5 rb rd).toNat = key.toNat * 2048 + imm5.toNat * 64 + rb.val * 8 + rd.val := by
  show BitVec.toNat (w := 5 + 5 + 3 + 3) (key ++ imm5 ++ lowBits rb ++ lowBits rd) = _
  simp only [append_toNat, lowBits_toNat]; omega

theorem wordImm8_toNat (key : BitVec 5) (rd : Fin 8) (imm8 : BitVec 8) :
    (wordImm8 key rd imm8).toNat = key.toNat * 2048 + rd.val * 256 + imm8.toNat := by
  show BitVec.toNat (w := 5 + 3 + 8) (key ++ lowBits rd ++ imm8) = _
  simp only [append_toNat, lowBits_toNat]; omega

theorem wordAlu_toNat (sub : BitVec 4) (rs rd : Fin 8) :
    (wordAlu sub rs rd).toNat = 16384 + sub.toNat * 64 + rs.val * 8 + rd.val := by
  show BitVec.toNat (w := 6 + 4 + 3 + 3) (0b010000#6 ++ sub ++ lowBits rs ++ lowBits rd) = _
  simp only [append_toNat, lowBits_toNat, BitVec.toNat_ofNat]; omega

theorem wordHi_toNat (sub : BitVec 2) (rs rd : Fin 16) :
    (wordHi sub rs rd).toNat = 17408 + sub.toNat * 256 + rd.val / 8 * 128 + rs.val * 8 + rd.val % 8 := by
  show BitVec.toNat (w := 6 + 2 + 1 + 4 + 3)
    (0b010001#6 ++ sub ++ (hiBits rd).extractLsb' 3 1 ++ hiBits rs ++ (hiBits rd).extractLsb' 0 3) = _
  simp only [append_toNat, hiBits_toNat, BitVec.toNat_ofNat, BitVec.extractLsb'_toNat, Nat.shiftRight_eq_div_pow]; omega

theorem wordBx_toNat (link : BitVec 1) (rs : Fin 16) (sbz : BitVec 3) :
    (wordBx link rs sbz).toNat = 18176 + link.toNat * 128 + rs.val * 8 + sbz.toNat := by
  show BitVec.toNat (w := 8 + 1 + 4 + 3) (0b01000111#8 ++ link ++ hiBits rs ++ sbz) = _
  simp only [append_toNat, hiBits_toNat, BitVec.toNat_ofNat]; omega

theorem wordStack_toNat (load : BitVec 1) (r : Bool) (rlist : BitVec 8) :
    (wordStack load r rlist).toNat = 46080 + load.toNat * 2048 + r.toNat * 256 + rlist.toNat := by
  show BitVec.toNat (w := 4 + 1 + 2 + 1 + 8) (0b1011#4 ++ load ++ 0b10#2 ++ BitVec.ofBool r ++ rlist) = _
  simp only [append_toNat, BitVec.toNat_ofNat, BitVec.toNat_ofBool]; omega

theorem wordCond_toNat (cond : BitVec 4) (imm8 : BitVec 8) :
    (wordCond cond imm8).toNat = 53248 + cond.toNat * 256 + imm8.toNat := by
  show BitVec.toNat (w := 4 + 4 + 8) (0b1101#4 ++ cond ++ imm8) = _
  simp only [append_toNat, BitVec.toNat_ofNat]; omega

theorem wordImm11_toNat (key : BitVec 5) (imm11 : BitVec 11) :
    (wordImm11 key imm11).toNat = key.toNat * 2048 + imm11.toNat := by
  show BitVec.toNat (w := 5 + 11) (key ++ imm11) = _
  simp only [append_toNat]; omega

/-- A field whose value is known, as the dispatch reads it. -/
theorem field_eq (w : Half) (lo n : Nat) {k : Nat} (h : w.toNat / 2 ^ lo % 2 ^ n = k) :
    (w.extractLsb' lo n).toNat = k := (field_toNat w lo n).trans h

theorem bit_clear (w : Half) (k : Nat) (h : w.toNat / 2 ^ k % 2 = 0) : w.getLsbD k = false := by simp [bit_toNat, h]

theorem bit_set (w : Half) (k : Nat) (h : w.toNat / 2 ^ k % 2 = 1) : w.getLsbD k = true := by simp [bit_toNat, h]

/-! ### The lemmas, one per constructor -/

theorem lslImm (rd rs : Fin 8) (imm5 : BitVec 5) : Statement (.lslImm rd rs imm5) := by
  have hw := wordImm5_toNat 0b00000#5 imm5 rs rd
  simp only [Statement, encode]
  generalize wordImm5 0b00000#5 imm5 rs rd = w at hw ⊢
  simp only [BitVec.toNat_ofNat] at hw
  simp only [decode, field_eq w 11 5 (k := 0) (by omega)]
  simp only [Instr.lslImm.injEq, regField, Fin.ext_iff, BitVec.toNat_eq, field_toNat]
  omega

theorem lsrImm (rd rs : Fin 8) (imm5 : BitVec 5) : Statement (.lsrImm rd rs imm5) := by
  have hw := wordImm5_toNat 0b00001#5 imm5 rs rd
  simp only [Statement, encode]
  generalize wordImm5 0b00001#5 imm5 rs rd = w at hw ⊢
  simp only [BitVec.toNat_ofNat] at hw
  simp only [decode, field_eq w 11 5 (k := 1) (by omega)]
  simp only [Instr.lsrImm.injEq, regField, Fin.ext_iff, BitVec.toNat_eq, field_toNat]
  omega

theorem asrImm (rd rs : Fin 8) (imm5 : BitVec 5) : Statement (.asrImm rd rs imm5) := by
  have hw := wordImm5_toNat 0b00010#5 imm5 rs rd
  simp only [Statement, encode]
  generalize wordImm5 0b00010#5 imm5 rs rd = w at hw ⊢
  simp only [BitVec.toNat_ofNat] at hw
  simp only [decode, field_eq w 11 5 (k := 2) (by omega)]
  simp only [Instr.asrImm.injEq, regField, Fin.ext_iff, BitVec.toNat_eq, field_toNat]
  omega

theorem addReg (rd rs rn : Fin 8) : Statement (.addReg rd rs rn) := by
  have hw := word7_toNat 0b0001100#7 (lowBits rn) (lowBits rs) rd
  simp only [Statement, encode]
  generalize word7 0b0001100#7 (lowBits rn) (lowBits rs) rd = w at hw ⊢
  simp only [lowBits_toNat, BitVec.toNat_ofNat] at hw
  simp only [decode, field_eq w 11 5 (k := 3) (by omega), decodeF2, field_eq w 9 2 (k := 0) (by omega)]
  simp only [Instr.addReg.injEq, regField, Fin.ext_iff, field_toNat]
  omega

theorem subReg (rd rs rn : Fin 8) : Statement (.subReg rd rs rn) := by
  have hw := word7_toNat 0b0001101#7 (lowBits rn) (lowBits rs) rd
  simp only [Statement, encode]
  generalize word7 0b0001101#7 (lowBits rn) (lowBits rs) rd = w at hw ⊢
  simp only [lowBits_toNat, BitVec.toNat_ofNat] at hw
  simp only [decode, field_eq w 11 5 (k := 3) (by omega), decodeF2, field_eq w 9 2 (k := 1) (by omega)]
  simp only [Instr.subReg.injEq, regField, Fin.ext_iff, field_toNat]
  omega

theorem addImm3 (rd rs : Fin 8) (imm3 : BitVec 3) : Statement (.addImm3 rd rs imm3) := by
  have hw := word7_toNat 0b0001110#7 imm3 (lowBits rs) rd
  simp only [Statement, encode]
  generalize word7 0b0001110#7 imm3 (lowBits rs) rd = w at hw ⊢
  simp only [lowBits_toNat, BitVec.toNat_ofNat] at hw
  simp only [decode, field_eq w 11 5 (k := 3) (by omega), decodeF2, field_eq w 9 2 (k := 2) (by omega)]
  simp only [Instr.addImm3.injEq, regField, Fin.ext_iff, BitVec.toNat_eq, field_toNat]
  omega

theorem subImm3 (rd rs : Fin 8) (imm3 : BitVec 3) : Statement (.subImm3 rd rs imm3) := by
  have hw := word7_toNat 0b0001111#7 imm3 (lowBits rs) rd
  simp only [Statement, encode]
  generalize word7 0b0001111#7 imm3 (lowBits rs) rd = w at hw ⊢
  simp only [lowBits_toNat, BitVec.toNat_ofNat] at hw
  simp only [decode, field_eq w 11 5 (k := 3) (by omega), decodeF2, field_eq w 9 2 (k := 3) (by omega)]
  simp only [Instr.subImm3.injEq, regField, Fin.ext_iff, BitVec.toNat_eq, field_toNat]
  omega

theorem movImm (rd : Fin 8) (imm8 : BitVec 8) : Statement (.movImm rd imm8) := by
  have hw := wordImm8_toNat 0b00100#5 rd imm8
  simp only [Statement, encode]
  generalize wordImm8 0b00100#5 rd imm8 = w at hw ⊢
  simp only [BitVec.toNat_ofNat] at hw
  simp only [decode, field_eq w 11 5 (k := 4) (by omega)]
  simp only [Instr.movImm.injEq, regField, Fin.ext_iff, BitVec.toNat_eq, field_toNat]
  omega

theorem cmpImm (rd : Fin 8) (imm8 : BitVec 8) : Statement (.cmpImm rd imm8) := by
  have hw := wordImm8_toNat 0b00101#5 rd imm8
  simp only [Statement, encode]
  generalize wordImm8 0b00101#5 rd imm8 = w at hw ⊢
  simp only [BitVec.toNat_ofNat] at hw
  simp only [decode, field_eq w 11 5 (k := 5) (by omega)]
  simp only [Instr.cmpImm.injEq, regField, Fin.ext_iff, BitVec.toNat_eq, field_toNat]
  omega

theorem addImm8 (rd : Fin 8) (imm8 : BitVec 8) : Statement (.addImm8 rd imm8) := by
  have hw := wordImm8_toNat 0b00110#5 rd imm8
  simp only [Statement, encode]
  generalize wordImm8 0b00110#5 rd imm8 = w at hw ⊢
  simp only [BitVec.toNat_ofNat] at hw
  simp only [decode, field_eq w 11 5 (k := 6) (by omega)]
  simp only [Instr.addImm8.injEq, regField, Fin.ext_iff, BitVec.toNat_eq, field_toNat]
  omega

theorem subImm8 (rd : Fin 8) (imm8 : BitVec 8) : Statement (.subImm8 rd imm8) := by
  have hw := wordImm8_toNat 0b00111#5 rd imm8
  simp only [Statement, encode]
  generalize wordImm8 0b00111#5 rd imm8 = w at hw ⊢
  simp only [BitVec.toNat_ofNat] at hw
  simp only [decode, field_eq w 11 5 (k := 7) (by omega)]
  simp only [Instr.subImm8.injEq, regField, Fin.ext_iff, BitVec.toNat_eq, field_toNat]
  omega

theorem and (rd rs : Fin 8) : Statement (.and rd rs) := by
  have hw := wordAlu_toNat 0#4 rs rd
  simp only [Statement, encode]
  generalize wordAlu 0#4 rs rd = w at hw ⊢
  simp only [BitVec.toNat_ofNat] at hw
  simp only [decode, field_eq w 11 5 (k := 8) (by omega), decodeF4, field_eq w 6 4 (k := 0) (by omega),
    bit_clear w 10 (by omega), Bool.false_eq_true, reduceIte]
  simp only [Instr.and.injEq, regField, Fin.ext_iff, field_toNat]
  omega

theorem eor (rd rs : Fin 8) : Statement (.eor rd rs) := by
  have hw := wordAlu_toNat 1#4 rs rd
  simp only [Statement, encode]
  generalize wordAlu 1#4 rs rd = w at hw ⊢
  simp only [BitVec.toNat_ofNat] at hw
  simp only [decode, field_eq w 11 5 (k := 8) (by omega), decodeF4, field_eq w 6 4 (k := 1) (by omega),
    bit_clear w 10 (by omega), Bool.false_eq_true, reduceIte]
  simp only [Instr.eor.injEq, regField, Fin.ext_iff, field_toNat]
  omega

theorem lslReg (rd rs : Fin 8) : Statement (.lslReg rd rs) := by
  have hw := wordAlu_toNat 2#4 rs rd
  simp only [Statement, encode]
  generalize wordAlu 2#4 rs rd = w at hw ⊢
  simp only [BitVec.toNat_ofNat] at hw
  simp only [decode, field_eq w 11 5 (k := 8) (by omega), decodeF4, field_eq w 6 4 (k := 2) (by omega),
    bit_clear w 10 (by omega), Bool.false_eq_true, reduceIte]
  simp only [Instr.lslReg.injEq, regField, Fin.ext_iff, field_toNat]
  omega

theorem lsrReg (rd rs : Fin 8) : Statement (.lsrReg rd rs) := by
  have hw := wordAlu_toNat 3#4 rs rd
  simp only [Statement, encode]
  generalize wordAlu 3#4 rs rd = w at hw ⊢
  simp only [BitVec.toNat_ofNat] at hw
  simp only [decode, field_eq w 11 5 (k := 8) (by omega), decodeF4, field_eq w 6 4 (k := 3) (by omega),
    bit_clear w 10 (by omega), Bool.false_eq_true, reduceIte]
  simp only [Instr.lsrReg.injEq, regField, Fin.ext_iff, field_toNat]
  omega

theorem asrReg (rd rs : Fin 8) : Statement (.asrReg rd rs) := by
  have hw := wordAlu_toNat 4#4 rs rd
  simp only [Statement, encode]
  generalize wordAlu 4#4 rs rd = w at hw ⊢
  simp only [BitVec.toNat_ofNat] at hw
  simp only [decode, field_eq w 11 5 (k := 8) (by omega), decodeF4, field_eq w 6 4 (k := 4) (by omega),
    bit_clear w 10 (by omega), Bool.false_eq_true, reduceIte]
  simp only [Instr.asrReg.injEq, regField, Fin.ext_iff, field_toNat]
  omega

theorem adc (rd rs : Fin 8) : Statement (.adc rd rs) := by
  have hw := wordAlu_toNat 5#4 rs rd
  simp only [Statement, encode]
  generalize wordAlu 5#4 rs rd = w at hw ⊢
  simp only [BitVec.toNat_ofNat] at hw
  simp only [decode, field_eq w 11 5 (k := 8) (by omega), decodeF4, field_eq w 6 4 (k := 5) (by omega),
    bit_clear w 10 (by omega), Bool.false_eq_true, reduceIte]
  simp only [Instr.adc.injEq, regField, Fin.ext_iff, field_toNat]
  omega

theorem sbc (rd rs : Fin 8) : Statement (.sbc rd rs) := by
  have hw := wordAlu_toNat 6#4 rs rd
  simp only [Statement, encode]
  generalize wordAlu 6#4 rs rd = w at hw ⊢
  simp only [BitVec.toNat_ofNat] at hw
  simp only [decode, field_eq w 11 5 (k := 8) (by omega), decodeF4, field_eq w 6 4 (k := 6) (by omega),
    bit_clear w 10 (by omega), Bool.false_eq_true, reduceIte]
  simp only [Instr.sbc.injEq, regField, Fin.ext_iff, field_toNat]
  omega

theorem ror (rd rs : Fin 8) : Statement (.ror rd rs) := by
  have hw := wordAlu_toNat 7#4 rs rd
  simp only [Statement, encode]
  generalize wordAlu 7#4 rs rd = w at hw ⊢
  simp only [BitVec.toNat_ofNat] at hw
  simp only [decode, field_eq w 11 5 (k := 8) (by omega), decodeF4, field_eq w 6 4 (k := 7) (by omega),
    bit_clear w 10 (by omega), Bool.false_eq_true, reduceIte]
  simp only [Instr.ror.injEq, regField, Fin.ext_iff, field_toNat]
  omega

theorem tst (rd rs : Fin 8) : Statement (.tst rd rs) := by
  have hw := wordAlu_toNat 8#4 rs rd
  simp only [Statement, encode]
  generalize wordAlu 8#4 rs rd = w at hw ⊢
  simp only [BitVec.toNat_ofNat] at hw
  simp only [decode, field_eq w 11 5 (k := 8) (by omega), decodeF4, field_eq w 6 4 (k := 8) (by omega),
    bit_clear w 10 (by omega), Bool.false_eq_true, reduceIte]
  simp only [Instr.tst.injEq, regField, Fin.ext_iff, field_toNat]
  omega

theorem neg (rd rs : Fin 8) : Statement (.neg rd rs) := by
  have hw := wordAlu_toNat 9#4 rs rd
  simp only [Statement, encode]
  generalize wordAlu 9#4 rs rd = w at hw ⊢
  simp only [BitVec.toNat_ofNat] at hw
  simp only [decode, field_eq w 11 5 (k := 8) (by omega), decodeF4, field_eq w 6 4 (k := 9) (by omega),
    bit_clear w 10 (by omega), Bool.false_eq_true, reduceIte]
  simp only [Instr.neg.injEq, regField, Fin.ext_iff, field_toNat]
  omega

theorem cmpReg (rd rs : Fin 8) : Statement (.cmpReg rd rs) := by
  have hw := wordAlu_toNat 10#4 rs rd
  simp only [Statement, encode]
  generalize wordAlu 10#4 rs rd = w at hw ⊢
  simp only [BitVec.toNat_ofNat] at hw
  simp only [decode, field_eq w 11 5 (k := 8) (by omega), decodeF4, field_eq w 6 4 (k := 10) (by omega),
    bit_clear w 10 (by omega), Bool.false_eq_true, reduceIte]
  simp only [Instr.cmpReg.injEq, regField, Fin.ext_iff, field_toNat]
  omega

theorem cmn (rd rs : Fin 8) : Statement (.cmn rd rs) := by
  have hw := wordAlu_toNat 11#4 rs rd
  simp only [Statement, encode]
  generalize wordAlu 11#4 rs rd = w at hw ⊢
  simp only [BitVec.toNat_ofNat] at hw
  simp only [decode, field_eq w 11 5 (k := 8) (by omega), decodeF4, field_eq w 6 4 (k := 11) (by omega),
    bit_clear w 10 (by omega), Bool.false_eq_true, reduceIte]
  simp only [Instr.cmn.injEq, regField, Fin.ext_iff, field_toNat]
  omega

theorem orr (rd rs : Fin 8) : Statement (.orr rd rs) := by
  have hw := wordAlu_toNat 12#4 rs rd
  simp only [Statement, encode]
  generalize wordAlu 12#4 rs rd = w at hw ⊢
  simp only [BitVec.toNat_ofNat] at hw
  simp only [decode, field_eq w 11 5 (k := 8) (by omega), decodeF4, field_eq w 6 4 (k := 12) (by omega),
    bit_clear w 10 (by omega), Bool.false_eq_true, reduceIte]
  simp only [Instr.orr.injEq, regField, Fin.ext_iff, field_toNat]
  omega

theorem mul (rd rs : Fin 8) : Statement (.mul rd rs) := by
  have hw := wordAlu_toNat 13#4 rs rd
  simp only [Statement, encode]
  generalize wordAlu 13#4 rs rd = w at hw ⊢
  simp only [BitVec.toNat_ofNat] at hw
  simp only [decode, field_eq w 11 5 (k := 8) (by omega), decodeF4, field_eq w 6 4 (k := 13) (by omega),
    bit_clear w 10 (by omega), Bool.false_eq_true, reduceIte]
  simp only [Instr.mul.injEq, regField, Fin.ext_iff, field_toNat]
  omega

theorem bic (rd rs : Fin 8) : Statement (.bic rd rs) := by
  have hw := wordAlu_toNat 14#4 rs rd
  simp only [Statement, encode]
  generalize wordAlu 14#4 rs rd = w at hw ⊢
  simp only [BitVec.toNat_ofNat] at hw
  simp only [decode, field_eq w 11 5 (k := 8) (by omega), decodeF4, field_eq w 6 4 (k := 14) (by omega),
    bit_clear w 10 (by omega), Bool.false_eq_true, reduceIte]
  simp only [Instr.bic.injEq, regField, Fin.ext_iff, field_toNat]
  omega

theorem mvn (rd rs : Fin 8) : Statement (.mvn rd rs) := by
  have hw := wordAlu_toNat 15#4 rs rd
  simp only [Statement, encode]
  generalize wordAlu 15#4 rs rd = w at hw ⊢
  simp only [BitVec.toNat_ofNat] at hw
  simp only [decode, field_eq w 11 5 (k := 8) (by omega), decodeF4, field_eq w 6 4 (k := 15) (by omega),
    bit_clear w 10 (by omega), Bool.false_eq_true, reduceIte]
  simp only [Instr.mvn.injEq, regField, Fin.ext_iff, field_toNat]
  omega

theorem addHi (rd rs : Fin 16) : Statement (.addHi rd rs) := by
  have hw := wordHi_toNat 0#2 rs rd
  simp only [Statement, encode]
  generalize wordHi 0#2 rs rd = w at hw ⊢
  simp only [BitVec.toNat_ofNat] at hw
  have hr : rd.val / 8 = 0 ∧ rd.val % 8 = rd.val ∨ rd.val / 8 = 1 ∧ rd.val % 8 = rd.val - 8 := by omega
  simp only [decode, field_eq w 11 5 (k := 8) (by omega), decodeF5, field_eq w 8 2 (k := 0) (by omega),
    bit_set w 10 (by omega), reduceIte]
  simp only [Instr.addHi.injEq, hiSource, hiDest, append_toNat, Fin.ext_iff, field_toNat]
  omega

theorem cmpHi (rd rs : Fin 16) : Statement (.cmpHi rd rs) := by
  have hw := wordHi_toNat 1#2 rs rd
  simp only [Statement, encode]
  generalize wordHi 1#2 rs rd = w at hw ⊢
  simp only [BitVec.toNat_ofNat] at hw
  have hr : rd.val / 8 = 0 ∧ rd.val % 8 = rd.val ∨ rd.val / 8 = 1 ∧ rd.val % 8 = rd.val - 8 := by omega
  simp only [decode, field_eq w 11 5 (k := 8) (by omega), decodeF5, field_eq w 8 2 (k := 1) (by omega),
    bit_set w 10 (by omega), reduceIte]
  simp only [Instr.cmpHi.injEq, hiSource, hiDest, append_toNat, Fin.ext_iff, field_toNat]
  omega

theorem movHi (rd rs : Fin 16) : Statement (.movHi rd rs) := by
  have hw := wordHi_toNat 2#2 rs rd
  simp only [Statement, encode]
  generalize wordHi 2#2 rs rd = w at hw ⊢
  simp only [BitVec.toNat_ofNat] at hw
  have hr : rd.val / 8 = 0 ∧ rd.val % 8 = rd.val ∨ rd.val / 8 = 1 ∧ rd.val % 8 = rd.val - 8 := by omega
  simp only [decode, field_eq w 11 5 (k := 8) (by omega), decodeF5, field_eq w 8 2 (k := 2) (by omega),
    bit_set w 10 (by omega), reduceIte]
  simp only [Instr.movHi.injEq, hiSource, hiDest, append_toNat, Fin.ext_iff, field_toNat]
  omega

theorem bx (rs : Fin 16) (sbz : BitVec 3) : Statement (.bx rs sbz) := by
  have hw := wordBx_toNat 0#1 rs sbz
  simp only [Statement, encode]
  generalize wordBx 0#1 rs sbz = w at hw ⊢
  simp only [BitVec.toNat_ofNat] at hw
  simp only [decode, field_eq w 11 5 (k := 8) (by omega), decodeF5, field_eq w 8 2 (k := 3) (by omega),
    bit_set w 10 (by omega), bit_clear w 7 (by omega), Bool.false_eq_true, reduceIte]
  simp only [Instr.bx.injEq, hiSource, Fin.ext_iff, BitVec.toNat_eq, field_toNat]
  omega

theorem blxReg (rs : Fin 16) (sbz : BitVec 3) : Statement (.blxReg rs sbz) := by
  have hw := wordBx_toNat 1#1 rs sbz
  simp only [Statement, encode]
  generalize wordBx 1#1 rs sbz = w at hw ⊢
  simp only [BitVec.toNat_ofNat] at hw
  simp only [decode, field_eq w 11 5 (k := 8) (by omega), decodeF5, field_eq w 8 2 (k := 3) (by omega),
    bit_set w 10 (by omega), bit_set w 7 (by omega), reduceIte]
  simp only [Instr.blxReg.injEq, hiSource, Fin.ext_iff, BitVec.toNat_eq, field_toNat]
  omega

theorem ldrPc (rd : Fin 8) (imm8 : BitVec 8) : Statement (.ldrPc rd imm8) := by
  have hw := wordImm8_toNat 0b01001#5 rd imm8
  simp only [Statement, encode]
  generalize wordImm8 0b01001#5 rd imm8 = w at hw ⊢
  simp only [BitVec.toNat_ofNat] at hw
  simp only [decode, field_eq w 11 5 (k := 9) (by omega)]
  simp only [Instr.ldrPc.injEq, regField, Fin.ext_iff, BitVec.toNat_eq, field_toNat]
  omega

theorem strReg (rd rb ro : Fin 8) : Statement (.strReg rd rb ro) := by
  have hw := word7_toNat 0b0101000#7 (lowBits ro) (lowBits rb) rd
  simp only [Statement, encode]
  generalize word7 0b0101000#7 (lowBits ro) (lowBits rb) rd = w at hw ⊢
  simp only [lowBits_toNat, BitVec.toNat_ofNat] at hw
  simp only [decode, field_eq w 11 5 (k := 10) (by omega), decodeF7F8, field_eq w 9 3 (k := 0) (by omega)]
  simp only [Instr.strReg.injEq, regField, Fin.ext_iff, field_toNat]
  omega

theorem strhReg (rd rb ro : Fin 8) : Statement (.strhReg rd rb ro) := by
  have hw := word7_toNat 0b0101001#7 (lowBits ro) (lowBits rb) rd
  simp only [Statement, encode]
  generalize word7 0b0101001#7 (lowBits ro) (lowBits rb) rd = w at hw ⊢
  simp only [lowBits_toNat, BitVec.toNat_ofNat] at hw
  simp only [decode, field_eq w 11 5 (k := 10) (by omega), decodeF7F8, field_eq w 9 3 (k := 1) (by omega)]
  simp only [Instr.strhReg.injEq, regField, Fin.ext_iff, field_toNat]
  omega

theorem strbReg (rd rb ro : Fin 8) : Statement (.strbReg rd rb ro) := by
  have hw := word7_toNat 0b0101010#7 (lowBits ro) (lowBits rb) rd
  simp only [Statement, encode]
  generalize word7 0b0101010#7 (lowBits ro) (lowBits rb) rd = w at hw ⊢
  simp only [lowBits_toNat, BitVec.toNat_ofNat] at hw
  simp only [decode, field_eq w 11 5 (k := 10) (by omega), decodeF7F8, field_eq w 9 3 (k := 2) (by omega)]
  simp only [Instr.strbReg.injEq, regField, Fin.ext_iff, field_toNat]
  omega

theorem ldrsbReg (rd rb ro : Fin 8) : Statement (.ldrsbReg rd rb ro) := by
  have hw := word7_toNat 0b0101011#7 (lowBits ro) (lowBits rb) rd
  simp only [Statement, encode]
  generalize word7 0b0101011#7 (lowBits ro) (lowBits rb) rd = w at hw ⊢
  simp only [lowBits_toNat, BitVec.toNat_ofNat] at hw
  simp only [decode, field_eq w 11 5 (k := 10) (by omega), decodeF7F8, field_eq w 9 3 (k := 3) (by omega)]
  simp only [Instr.ldrsbReg.injEq, regField, Fin.ext_iff, field_toNat]
  omega

theorem ldrReg (rd rb ro : Fin 8) : Statement (.ldrReg rd rb ro) := by
  have hw := word7_toNat 0b0101100#7 (lowBits ro) (lowBits rb) rd
  simp only [Statement, encode]
  generalize word7 0b0101100#7 (lowBits ro) (lowBits rb) rd = w at hw ⊢
  simp only [lowBits_toNat, BitVec.toNat_ofNat] at hw
  simp only [decode, field_eq w 11 5 (k := 11) (by omega), decodeF7F8, field_eq w 9 3 (k := 4) (by omega)]
  simp only [Instr.ldrReg.injEq, regField, Fin.ext_iff, field_toNat]
  omega

theorem ldrhReg (rd rb ro : Fin 8) : Statement (.ldrhReg rd rb ro) := by
  have hw := word7_toNat 0b0101101#7 (lowBits ro) (lowBits rb) rd
  simp only [Statement, encode]
  generalize word7 0b0101101#7 (lowBits ro) (lowBits rb) rd = w at hw ⊢
  simp only [lowBits_toNat, BitVec.toNat_ofNat] at hw
  simp only [decode, field_eq w 11 5 (k := 11) (by omega), decodeF7F8, field_eq w 9 3 (k := 5) (by omega)]
  simp only [Instr.ldrhReg.injEq, regField, Fin.ext_iff, field_toNat]
  omega

theorem ldrbReg (rd rb ro : Fin 8) : Statement (.ldrbReg rd rb ro) := by
  have hw := word7_toNat 0b0101110#7 (lowBits ro) (lowBits rb) rd
  simp only [Statement, encode]
  generalize word7 0b0101110#7 (lowBits ro) (lowBits rb) rd = w at hw ⊢
  simp only [lowBits_toNat, BitVec.toNat_ofNat] at hw
  simp only [decode, field_eq w 11 5 (k := 11) (by omega), decodeF7F8, field_eq w 9 3 (k := 6) (by omega)]
  simp only [Instr.ldrbReg.injEq, regField, Fin.ext_iff, field_toNat]
  omega

theorem ldrshReg (rd rb ro : Fin 8) : Statement (.ldrshReg rd rb ro) := by
  have hw := word7_toNat 0b0101111#7 (lowBits ro) (lowBits rb) rd
  simp only [Statement, encode]
  generalize word7 0b0101111#7 (lowBits ro) (lowBits rb) rd = w at hw ⊢
  simp only [lowBits_toNat, BitVec.toNat_ofNat] at hw
  simp only [decode, field_eq w 11 5 (k := 11) (by omega), decodeF7F8, field_eq w 9 3 (k := 7) (by omega)]
  simp only [Instr.ldrshReg.injEq, regField, Fin.ext_iff, field_toNat]
  omega

theorem strImm (rd rb : Fin 8) (imm5 : BitVec 5) : Statement (.strImm rd rb imm5) := by
  have hw := wordImm5_toNat 0b01100#5 imm5 rb rd
  simp only [Statement, encode]
  generalize wordImm5 0b01100#5 imm5 rb rd = w at hw ⊢
  simp only [BitVec.toNat_ofNat] at hw
  simp only [decode, field_eq w 11 5 (k := 12) (by omega)]
  simp only [Instr.strImm.injEq, regField, Fin.ext_iff, BitVec.toNat_eq, field_toNat]
  omega

theorem ldrImm (rd rb : Fin 8) (imm5 : BitVec 5) : Statement (.ldrImm rd rb imm5) := by
  have hw := wordImm5_toNat 0b01101#5 imm5 rb rd
  simp only [Statement, encode]
  generalize wordImm5 0b01101#5 imm5 rb rd = w at hw ⊢
  simp only [BitVec.toNat_ofNat] at hw
  simp only [decode, field_eq w 11 5 (k := 13) (by omega)]
  simp only [Instr.ldrImm.injEq, regField, Fin.ext_iff, BitVec.toNat_eq, field_toNat]
  omega

theorem strbImm (rd rb : Fin 8) (imm5 : BitVec 5) : Statement (.strbImm rd rb imm5) := by
  have hw := wordImm5_toNat 0b01110#5 imm5 rb rd
  simp only [Statement, encode]
  generalize wordImm5 0b01110#5 imm5 rb rd = w at hw ⊢
  simp only [BitVec.toNat_ofNat] at hw
  simp only [decode, field_eq w 11 5 (k := 14) (by omega)]
  simp only [Instr.strbImm.injEq, regField, Fin.ext_iff, BitVec.toNat_eq, field_toNat]
  omega

theorem ldrbImm (rd rb : Fin 8) (imm5 : BitVec 5) : Statement (.ldrbImm rd rb imm5) := by
  have hw := wordImm5_toNat 0b01111#5 imm5 rb rd
  simp only [Statement, encode]
  generalize wordImm5 0b01111#5 imm5 rb rd = w at hw ⊢
  simp only [BitVec.toNat_ofNat] at hw
  simp only [decode, field_eq w 11 5 (k := 15) (by omega)]
  simp only [Instr.ldrbImm.injEq, regField, Fin.ext_iff, BitVec.toNat_eq, field_toNat]
  omega

theorem strhImm (rd rb : Fin 8) (imm5 : BitVec 5) : Statement (.strhImm rd rb imm5) := by
  have hw := wordImm5_toNat 0b10000#5 imm5 rb rd
  simp only [Statement, encode]
  generalize wordImm5 0b10000#5 imm5 rb rd = w at hw ⊢
  simp only [BitVec.toNat_ofNat] at hw
  simp only [decode, field_eq w 11 5 (k := 16) (by omega)]
  simp only [Instr.strhImm.injEq, regField, Fin.ext_iff, BitVec.toNat_eq, field_toNat]
  omega

theorem ldrhImm (rd rb : Fin 8) (imm5 : BitVec 5) : Statement (.ldrhImm rd rb imm5) := by
  have hw := wordImm5_toNat 0b10001#5 imm5 rb rd
  simp only [Statement, encode]
  generalize wordImm5 0b10001#5 imm5 rb rd = w at hw ⊢
  simp only [BitVec.toNat_ofNat] at hw
  simp only [decode, field_eq w 11 5 (k := 17) (by omega)]
  simp only [Instr.ldrhImm.injEq, regField, Fin.ext_iff, BitVec.toNat_eq, field_toNat]
  omega

theorem strSp (rd : Fin 8) (imm8 : BitVec 8) : Statement (.strSp rd imm8) := by
  have hw := wordImm8_toNat 0b10010#5 rd imm8
  simp only [Statement, encode]
  generalize wordImm8 0b10010#5 rd imm8 = w at hw ⊢
  simp only [BitVec.toNat_ofNat] at hw
  simp only [decode, field_eq w 11 5 (k := 18) (by omega)]
  simp only [Instr.strSp.injEq, regField, Fin.ext_iff, BitVec.toNat_eq, field_toNat]
  omega

theorem ldrSp (rd : Fin 8) (imm8 : BitVec 8) : Statement (.ldrSp rd imm8) := by
  have hw := wordImm8_toNat 0b10011#5 rd imm8
  simp only [Statement, encode]
  generalize wordImm8 0b10011#5 rd imm8 = w at hw ⊢
  simp only [BitVec.toNat_ofNat] at hw
  simp only [decode, field_eq w 11 5 (k := 19) (by omega)]
  simp only [Instr.ldrSp.injEq, regField, Fin.ext_iff, BitVec.toNat_eq, field_toNat]
  omega

theorem addPc (rd : Fin 8) (imm8 : BitVec 8) : Statement (.addPc rd imm8) := by
  have hw := wordImm8_toNat 0b10100#5 rd imm8
  simp only [Statement, encode]
  generalize wordImm8 0b10100#5 rd imm8 = w at hw ⊢
  simp only [BitVec.toNat_ofNat] at hw
  simp only [decode, field_eq w 11 5 (k := 20) (by omega)]
  simp only [Instr.addPc.injEq, regField, Fin.ext_iff, BitVec.toNat_eq, field_toNat]
  omega

theorem addSp (rd : Fin 8) (imm8 : BitVec 8) : Statement (.addSp rd imm8) := by
  have hw := wordImm8_toNat 0b10101#5 rd imm8
  simp only [Statement, encode]
  generalize wordImm8 0b10101#5 rd imm8 = w at hw ⊢
  simp only [BitVec.toNat_ofNat] at hw
  simp only [decode, field_eq w 11 5 (k := 21) (by omega)]
  simp only [Instr.addSp.injEq, regField, Fin.ext_iff, BitVec.toNat_eq, field_toNat]
  omega

theorem addSpImm (imm7 : BitVec 7) : Statement (.addSpImm imm7) := by
  have hw : BitVec.toNat (0b101100000#9 ++ imm7 : Half) = _ := append_toNat 0b101100000#9 imm7
  simp only [Statement, encode]
  generalize (0b101100000#9 ++ imm7 : Half) = w at hw ⊢
  simp only [BitVec.toNat_ofNat] at hw
  simp only [decode, field_eq w 11 5 (k := 22) (by omega), decodeMisc, field_eq w 8 4 (k := 0) (by omega),
    bit_clear w 7 (by omega), Bool.false_eq_true, reduceIte]
  simp only [Instr.addSpImm.injEq, BitVec.toNat_eq, field_toNat]
  omega

theorem subSpImm (imm7 : BitVec 7) : Statement (.subSpImm imm7) := by
  have hw : BitVec.toNat (0b101100001#9 ++ imm7 : Half) = _ := append_toNat 0b101100001#9 imm7
  simp only [Statement, encode]
  generalize (0b101100001#9 ++ imm7 : Half) = w at hw ⊢
  simp only [BitVec.toNat_ofNat] at hw
  simp only [decode, field_eq w 11 5 (k := 22) (by omega), decodeMisc, field_eq w 8 4 (k := 0) (by omega),
    bit_set w 7 (by omega), reduceIte]
  simp only [Instr.subSpImm.injEq, BitVec.toNat_eq, field_toNat]
  omega

theorem push (r : Bool) (rlist : BitVec 8) : Statement (.push r rlist) := by
  have hw := wordStack_toNat 0#1 r rlist
  simp only [Statement, encode]
  generalize wordStack 0#1 r rlist = w at hw ⊢
  simp only [BitVec.toNat_ofNat] at hw
  have hr := r.toNat_le
  have h8 : w.toNat / 2 ^ 8 % 2 ^ 4 = 4 ∨ w.toNat / 2 ^ 8 % 2 ^ 4 = 5 := by omega
  rcases h8 with h8 | h8
  all_goals
    simp only [decode, field_eq w 11 5 (k := 22) (by omega), decodeMisc, field_eq w 8 4 h8]
    simp only [Instr.push.injEq, bit_toNat, BitVec.toNat_eq, field_toNat]
    cases r <;> simp at hw hr ⊢ <;> omega

theorem pop (r : Bool) (rlist : BitVec 8) : Statement (.pop r rlist) := by
  have hw := wordStack_toNat 1#1 r rlist
  simp only [Statement, encode]
  generalize wordStack 1#1 r rlist = w at hw ⊢
  simp only [BitVec.toNat_ofNat] at hw
  have hr := r.toNat_le
  have h8 : w.toNat / 2 ^ 8 % 2 ^ 4 = 12 ∨ w.toNat / 2 ^ 8 % 2 ^ 4 = 13 := by omega
  rcases h8 with h8 | h8
  all_goals
    simp only [decode, field_eq w 11 5 (k := 23) (by omega), decodeMisc, field_eq w 8 4 h8]
    simp only [Instr.pop.injEq, bit_toNat, BitVec.toNat_eq, field_toNat]
    cases r <;> simp at hw hr ⊢ <;> omega

theorem stmia (rb : Fin 8) (rlist : BitVec 8) : Statement (.stmia rb rlist) := by
  have hw := wordImm8_toNat 0b11000#5 rb rlist
  simp only [Statement, encode]
  generalize wordImm8 0b11000#5 rb rlist = w at hw ⊢
  simp only [BitVec.toNat_ofNat] at hw
  simp only [decode, field_eq w 11 5 (k := 24) (by omega)]
  simp only [Instr.stmia.injEq, regField, Fin.ext_iff, BitVec.toNat_eq, field_toNat]
  omega

theorem ldmia (rb : Fin 8) (rlist : BitVec 8) : Statement (.ldmia rb rlist) := by
  have hw := wordImm8_toNat 0b11001#5 rb rlist
  simp only [Statement, encode]
  generalize wordImm8 0b11001#5 rb rlist = w at hw ⊢
  simp only [BitVec.toNat_ofNat] at hw
  simp only [decode, field_eq w 11 5 (k := 25) (by omega)]
  simp only [Instr.ldmia.injEq, regField, Fin.ext_iff, BitVec.toNat_eq, field_toNat]
  omega

theorem beq (imm8 : BitVec 8) : Statement (.beq imm8) := by
  have hw := wordCond_toNat 0#4 imm8
  simp only [Statement, encode]
  generalize wordCond 0#4 imm8 = w at hw ⊢
  simp only [BitVec.toNat_ofNat] at hw
  simp only [decode, field_eq w 11 5 (k := 26) (by omega), decodeF16, field_eq w 8 4 (k := 0) (by omega)]
  simp only [Instr.beq.injEq, BitVec.toNat_eq, field_toNat]
  omega

theorem bne (imm8 : BitVec 8) : Statement (.bne imm8) := by
  have hw := wordCond_toNat 1#4 imm8
  simp only [Statement, encode]
  generalize wordCond 1#4 imm8 = w at hw ⊢
  simp only [BitVec.toNat_ofNat] at hw
  simp only [decode, field_eq w 11 5 (k := 26) (by omega), decodeF16, field_eq w 8 4 (k := 1) (by omega)]
  simp only [Instr.bne.injEq, BitVec.toNat_eq, field_toNat]
  omega

theorem bcs (imm8 : BitVec 8) : Statement (.bcs imm8) := by
  have hw := wordCond_toNat 2#4 imm8
  simp only [Statement, encode]
  generalize wordCond 2#4 imm8 = w at hw ⊢
  simp only [BitVec.toNat_ofNat] at hw
  simp only [decode, field_eq w 11 5 (k := 26) (by omega), decodeF16, field_eq w 8 4 (k := 2) (by omega)]
  simp only [Instr.bcs.injEq, BitVec.toNat_eq, field_toNat]
  omega

theorem bcc (imm8 : BitVec 8) : Statement (.bcc imm8) := by
  have hw := wordCond_toNat 3#4 imm8
  simp only [Statement, encode]
  generalize wordCond 3#4 imm8 = w at hw ⊢
  simp only [BitVec.toNat_ofNat] at hw
  simp only [decode, field_eq w 11 5 (k := 26) (by omega), decodeF16, field_eq w 8 4 (k := 3) (by omega)]
  simp only [Instr.bcc.injEq, BitVec.toNat_eq, field_toNat]
  omega

theorem bmi (imm8 : BitVec 8) : Statement (.bmi imm8) := by
  have hw := wordCond_toNat 4#4 imm8
  simp only [Statement, encode]
  generalize wordCond 4#4 imm8 = w at hw ⊢
  simp only [BitVec.toNat_ofNat] at hw
  simp only [decode, field_eq w 11 5 (k := 26) (by omega), decodeF16, field_eq w 8 4 (k := 4) (by omega)]
  simp only [Instr.bmi.injEq, BitVec.toNat_eq, field_toNat]
  omega

theorem bpl (imm8 : BitVec 8) : Statement (.bpl imm8) := by
  have hw := wordCond_toNat 5#4 imm8
  simp only [Statement, encode]
  generalize wordCond 5#4 imm8 = w at hw ⊢
  simp only [BitVec.toNat_ofNat] at hw
  simp only [decode, field_eq w 11 5 (k := 26) (by omega), decodeF16, field_eq w 8 4 (k := 5) (by omega)]
  simp only [Instr.bpl.injEq, BitVec.toNat_eq, field_toNat]
  omega

theorem bvs (imm8 : BitVec 8) : Statement (.bvs imm8) := by
  have hw := wordCond_toNat 6#4 imm8
  simp only [Statement, encode]
  generalize wordCond 6#4 imm8 = w at hw ⊢
  simp only [BitVec.toNat_ofNat] at hw
  simp only [decode, field_eq w 11 5 (k := 26) (by omega), decodeF16, field_eq w 8 4 (k := 6) (by omega)]
  simp only [Instr.bvs.injEq, BitVec.toNat_eq, field_toNat]
  omega

theorem bvc (imm8 : BitVec 8) : Statement (.bvc imm8) := by
  have hw := wordCond_toNat 7#4 imm8
  simp only [Statement, encode]
  generalize wordCond 7#4 imm8 = w at hw ⊢
  simp only [BitVec.toNat_ofNat] at hw
  simp only [decode, field_eq w 11 5 (k := 26) (by omega), decodeF16, field_eq w 8 4 (k := 7) (by omega)]
  simp only [Instr.bvc.injEq, BitVec.toNat_eq, field_toNat]
  omega

theorem bhi (imm8 : BitVec 8) : Statement (.bhi imm8) := by
  have hw := wordCond_toNat 8#4 imm8
  simp only [Statement, encode]
  generalize wordCond 8#4 imm8 = w at hw ⊢
  simp only [BitVec.toNat_ofNat] at hw
  simp only [decode, field_eq w 11 5 (k := 27) (by omega), decodeF16, field_eq w 8 4 (k := 8) (by omega)]
  simp only [Instr.bhi.injEq, BitVec.toNat_eq, field_toNat]
  omega

theorem bls (imm8 : BitVec 8) : Statement (.bls imm8) := by
  have hw := wordCond_toNat 9#4 imm8
  simp only [Statement, encode]
  generalize wordCond 9#4 imm8 = w at hw ⊢
  simp only [BitVec.toNat_ofNat] at hw
  simp only [decode, field_eq w 11 5 (k := 27) (by omega), decodeF16, field_eq w 8 4 (k := 9) (by omega)]
  simp only [Instr.bls.injEq, BitVec.toNat_eq, field_toNat]
  omega

theorem bge (imm8 : BitVec 8) : Statement (.bge imm8) := by
  have hw := wordCond_toNat 10#4 imm8
  simp only [Statement, encode]
  generalize wordCond 10#4 imm8 = w at hw ⊢
  simp only [BitVec.toNat_ofNat] at hw
  simp only [decode, field_eq w 11 5 (k := 27) (by omega), decodeF16, field_eq w 8 4 (k := 10) (by omega)]
  simp only [Instr.bge.injEq, BitVec.toNat_eq, field_toNat]
  omega

theorem blt (imm8 : BitVec 8) : Statement (.blt imm8) := by
  have hw := wordCond_toNat 11#4 imm8
  simp only [Statement, encode]
  generalize wordCond 11#4 imm8 = w at hw ⊢
  simp only [BitVec.toNat_ofNat] at hw
  simp only [decode, field_eq w 11 5 (k := 27) (by omega), decodeF16, field_eq w 8 4 (k := 11) (by omega)]
  simp only [Instr.blt.injEq, BitVec.toNat_eq, field_toNat]
  omega

theorem bgt (imm8 : BitVec 8) : Statement (.bgt imm8) := by
  have hw := wordCond_toNat 12#4 imm8
  simp only [Statement, encode]
  generalize wordCond 12#4 imm8 = w at hw ⊢
  simp only [BitVec.toNat_ofNat] at hw
  simp only [decode, field_eq w 11 5 (k := 27) (by omega), decodeF16, field_eq w 8 4 (k := 12) (by omega)]
  simp only [Instr.bgt.injEq, BitVec.toNat_eq, field_toNat]
  omega

theorem ble (imm8 : BitVec 8) : Statement (.ble imm8) := by
  have hw := wordCond_toNat 13#4 imm8
  simp only [Statement, encode]
  generalize wordCond 13#4 imm8 = w at hw ⊢
  simp only [BitVec.toNat_ofNat] at hw
  simp only [decode, field_eq w 11 5 (k := 27) (by omega), decodeF16, field_eq w 8 4 (k := 13) (by omega)]
  simp only [Instr.ble.injEq, BitVec.toNat_eq, field_toNat]
  omega

theorem udfDE (ignored : BitVec 8) : Statement (.udfDE ignored) := by
  have hw := wordCond_toNat 14#4 ignored
  simp only [Statement, encode]
  generalize wordCond 14#4 ignored = w at hw ⊢
  simp only [BitVec.toNat_ofNat] at hw
  simp only [decode, field_eq w 11 5 (k := 27) (by omega), decodeF16, field_eq w 8 4 (k := 14) (by omega)]
  simp only [Instr.udfDE.injEq, BitVec.toNat_eq, field_toNat]
  omega

theorem swi (imm8 : BitVec 8) : Statement (.swi imm8) := by
  have hw := wordCond_toNat 15#4 imm8
  simp only [Statement, encode]
  generalize wordCond 15#4 imm8 = w at hw ⊢
  simp only [BitVec.toNat_ofNat] at hw
  simp only [decode, field_eq w 11 5 (k := 27) (by omega), decodeF16, field_eq w 8 4 (k := 15) (by omega)]
  simp only [Instr.swi.injEq, BitVec.toNat_eq, field_toNat]
  omega

theorem b (imm11 : BitVec 11) : Statement (.b imm11) := by
  have hw := wordImm11_toNat 0b11100#5 imm11
  simp only [Statement, encode]
  generalize wordImm11 0b11100#5 imm11 = w at hw ⊢
  simp only [BitVec.toNat_ofNat] at hw
  simp only [decode, field_eq w 11 5 (k := 28) (by omega)]
  simp only [Instr.b.injEq, BitVec.toNat_eq, field_toNat]
  omega

theorem blxSuffix (imm11 : BitVec 11) : Statement (.blxSuffix imm11) := by
  have hw := wordImm11_toNat 0b11101#5 imm11
  simp only [Statement, encode]
  generalize wordImm11 0b11101#5 imm11 = w at hw ⊢
  simp only [BitVec.toNat_ofNat] at hw
  simp only [decode, field_eq w 11 5 (k := 29) (by omega)]
  simp only [Instr.blxSuffix.injEq, BitVec.toNat_eq, field_toNat]
  omega

theorem blPrefix (imm11 : BitVec 11) : Statement (.blPrefix imm11) := by
  have hw := wordImm11_toNat 0b11110#5 imm11
  simp only [Statement, encode]
  generalize wordImm11 0b11110#5 imm11 = w at hw ⊢
  simp only [BitVec.toNat_ofNat] at hw
  simp only [decode, field_eq w 11 5 (k := 30) (by omega)]
  simp only [Instr.blPrefix.injEq, BitVec.toNat_eq, field_toNat]
  omega

theorem blSuffix (imm11 : BitVec 11) : Statement (.blSuffix imm11) := by
  have hw := wordImm11_toNat 0b11111#5 imm11
  simp only [Statement, encode]
  generalize wordImm11 0b11111#5 imm11 = w at hw ⊢
  simp only [BitVec.toNat_ofNat] at hw
  simp only [decode, field_eq w 11 5 (k := 31) (by omega)]
  simp only [Instr.blSuffix.injEq, BitVec.toNat_eq, field_toNat]
  omega

theorem udfB1 (ignored : BitVec 8) : Statement (.udfB1 ignored) := by
  have hw : BitVec.toNat (0xB1#8 ++ ignored : Half) = _ := append_toNat 0xB1#8 ignored
  simp only [Statement, encode]
  generalize (0xB1#8 ++ ignored : Half) = w at hw ⊢
  simp only [BitVec.toNat_ofNat] at hw
  simp only [decode, field_eq w 11 5 (k := 22) (by omega), decodeMisc, field_eq w 8 4 (k := 1) (by omega)]
  simp only [Instr.udfB1.injEq, BitVec.toNat_eq, field_toNat]
  omega

theorem udfB2B3 (ignored : BitVec 9) : Statement (.udfB2B3 ignored) := by
  have hw : BitVec.toNat (0b1011001#7 ++ ignored : Half) = _ := append_toNat 0b1011001#7 ignored
  simp only [Statement, encode]
  generalize (0b1011001#7 ++ ignored : Half) = w at hw ⊢
  simp only [BitVec.toNat_ofNat] at hw
  have h8 : w.toNat / 2 ^ 8 % 2 ^ 4 = 2 ∨ w.toNat / 2 ^ 8 % 2 ^ 4 = 3 := by omega
  rcases h8 with h8 | h8
  all_goals
    simp only [decode, field_eq w 11 5 (k := 22) (by omega), decodeMisc, field_eq w 8 4 h8]
    simp only [Instr.udfB2B3.injEq, BitVec.toNat_eq, field_toNat]
    omega

theorem udfB6B7 (ignored : BitVec 9) : Statement (.udfB6B7 ignored) := by
  have hw : BitVec.toNat (0b1011011#7 ++ ignored : Half) = _ := append_toNat 0b1011011#7 ignored
  simp only [Statement, encode]
  generalize (0b1011011#7 ++ ignored : Half) = w at hw ⊢
  simp only [BitVec.toNat_ofNat] at hw
  have h8 : w.toNat / 2 ^ 8 % 2 ^ 4 = 6 ∨ w.toNat / 2 ^ 8 % 2 ^ 4 = 7 := by omega
  rcases h8 with h8 | h8
  all_goals
    simp only [decode, field_eq w 11 5 (k := 22) (by omega), decodeMisc, field_eq w 8 4 h8]
    simp only [Instr.udfB6B7.injEq, BitVec.toNat_eq, field_toNat]
    omega

theorem udfB8BB (ignored : BitVec 10) : Statement (.udfB8BB ignored) := by
  have hw : BitVec.toNat (0b101110#6 ++ ignored : Half) = _ := append_toNat 0b101110#6 ignored
  simp only [Statement, encode]
  generalize (0b101110#6 ++ ignored : Half) = w at hw ⊢
  simp only [BitVec.toNat_ofNat] at hw
  have h8 : w.toNat / 2 ^ 8 % 2 ^ 4 = 8 ∨ w.toNat / 2 ^ 8 % 2 ^ 4 = 9 ∨ w.toNat / 2 ^ 8 % 2 ^ 4 = 10 ∨ w.toNat / 2 ^ 8 % 2 ^ 4 = 11 := by omega
  rcases h8 with h8 | h8 | h8 | h8
  all_goals
    simp only [decode, field_eq w 11 5 (k := 23) (by omega), decodeMisc, field_eq w 8 4 h8]
    simp only [Instr.udfB8BB.injEq, BitVec.toNat_eq, field_toNat]
    omega

theorem udfBEBF (ignored : BitVec 9) : Statement (.udfBEBF ignored) := by
  have hw : BitVec.toNat (0b1011111#7 ++ ignored : Half) = _ := append_toNat 0b1011111#7 ignored
  simp only [Statement, encode]
  generalize (0b1011111#7 ++ ignored : Half) = w at hw ⊢
  simp only [BitVec.toNat_ofNat] at hw
  have h8 : w.toNat / 2 ^ 8 % 2 ^ 4 = 14 ∨ w.toNat / 2 ^ 8 % 2 ^ 4 = 15 := by omega
  rcases h8 with h8 | h8
  all_goals
    simp only [decode, field_eq w 11 5 (k := 23) (by omega), decodeMisc, field_eq w 8 4 h8]
    simp only [Instr.udfBEBF.injEq, BitVec.toNat_eq, field_toNat]
    omega

end Sys2Proof.Laws.RoundTrip
end

