-- ==== Sys2Proof/Machine/HostCalls.lean ====
section
/-! DEFINITION. What reaches the core from outside between steps: the host's calls (70_reset_and_hazards.md R268; log 17)
and the writes of other bus agents (20_memory.md R66; log 14). -/

namespace Sys2Proof.Machine

/-- `new(arch, bus)` (R260), the architecture by its version number; another is refused (R245). `params` gives the other
parameters of R8, which the call does not name and which are fixed from here on (log 1); its `arch` is not used. -/
def newCpu (version : Nat) (bus : BusHandle) (params : Config) : Result :=
  if version = 4 then .next (State.powerOn { params with arch := .armv4 } bus)
  else if version = 5 then .next (State.powerOn { params with arch := .armv5 } bus)
  else .refused .badArch

/-- `set_pc(addr)`: unmasked (R263). -/
def setPc (addr : Word) (s : State) : State := { s with pc := addr }

/-- The three virtual lines (R34). -/
inductive Line where
  | fiq | irq | halt
deriving DecidableEq, Repr

/-- `set_line(line, b)` (R34, R268). -/
def setLine (line : Line) (b : Bool) (s : State) : State :=
  match line with
  | .fiq  => { s with lines := { s.lines with fiq := b } }
  | .irq  => { s with lines := { s.lines with irq := b } }
  | .halt => { s with lines := { s.lines with halt := b } }

/-- `reset()`: `Enter(Reset)` with the pc value at the call (R261, R227). -/
def resetCall (s : State) : Result := enter .reset s.pc s

/-- `map_coprocessor(i, h)`; an index outside 0..15 is refused (R33, R245). -/
def mapCoprocessor (i : Nat) (h : Coproc) (s : State) : Result :=
  if hi : i < 16 then .next { s with coproc := s.coproc.set i (some h) } else .refused .badSlot

/-- `enable_cp15()`: a handle in slot 15, and the handle (R229, R268). Its vector setting is CP15's own (D23), so it is
an argument here. -/
def enableCp15 (vectors : Word) (s : State) : Coproc × State :=
  ({ exceptionVector := vectors }, { s with coproc := s.coproc.set 15 (some { exceptionVector := vectors }) })

/-- A write by another agent of the bus, DMA, a device or the other CPU (20_memory.md R66): memory holds it from then
on, and the address is a written one (R68). A write that falls between two accesses of one step is seen by that step as
the data of an answer, and stands in memory after it by this call (log 14). -/
def otherAgentWrites (w : Width) (a v : Word) (s : State) : State := s.storeBytes w a v

/-- What the host sees of a step: the cycles it consumed (R267, R268). -/
def cyclesConsumed (before after : State) : Nat := after.clock - before.clock

end Sys2Proof.Machine
end

