-- ==== Sys2Proof/Safety.lean ====
section
/-! DEFINITION. What counts as a legal state, and the words the statements are written in: what a step leaves as it was,
and what an operand, a load or a store amounts to. -/

namespace Sys2Proof.Machine

/-! ### Legal states -/

/-- The mode field is one of the seven values (10_state.md R28, R40). -/
def State.modeLegal (s : State) : Prop := Mode.ofBits s.cpsr.m ≠ none

/-- The pc's alignment: a halfword in Thumb state, a word in ARM state (R32). -/
def State.pcAligned (s : State) : Prop :=
  if s.cpsr.t then s.pc.getLsbD 0 = false else s.pc.getLsbD 0 = false ∧ s.pc.getLsbD 1 = false

/-- The invariant between instructions (R32, R28), with memory's canonical form. -/
def State.Inv (s : State) : Prop := s.modeLegal ∧ s.pcAligned ∧ Memory.wf s.mem = true

/-! ### What a step leaves as it was -/

/-- Every physical register cell but those listed. -/
def SameCellsExcept (cs : List Cell) (s t : State) : Prop := ∀ c, c ∉ cs → t.cell c = s.cell c

/-- N, Z, C and V. -/
def SameFlags (s t : State) : Prop :=
  t.cpsr.n = s.cpsr.n ∧ t.cpsr.z = s.cpsr.z ∧ t.cpsr.c = s.cpsr.c ∧ t.cpsr.v = s.cpsr.v

/-- The status register apart from N, Z, C, V and T. -/
def SameMasksAndMode (s t : State) : Prop :=
  t.cpsr.reserved = s.cpsr.reserved ∧ t.cpsr.i = s.cpsr.i ∧ t.cpsr.f = s.cpsr.f ∧ t.cpsr.m = s.cpsr.m

/-- The status register apart from N, Z, C and V. -/
def SameControl (s t : State) : Prop := SameMasksAndMode s t ∧ t.cpsr.t = s.cpsr.t

/-- The parameters, the SPSRs, the lines and the coprocessor slots. -/
def SameSystem (s t : State) : Prop :=
  t.cfg = s.cfg ∧ t.spsr = s.spsr ∧ t.lines = s.lines ∧ t.coproc = s.coproc

/-- Every byte of memory. -/
def SameMemory (s t : State) : Prop := ∀ a : Word, Memory.byte t.mem a = Memory.byte s.mem a

/-- The address is one of the `n` bytes from `a`. -/
def Covers (a : Word) (n : Nat) (x : Word) : Prop := ∃ k : Nat, k < n ∧ x = a + BitVec.ofNat 32 k

/-- Every byte of memory outside the `n` bytes from `a`. -/
def SameMemoryOutside (a : Word) (n : Nat) (s t : State) : Prop :=
  ∀ x : Word, ¬ Covers a n x → Memory.byte t.mem x = Memory.byte s.mem x

/-- The clock, the answers of the bus and the free values: no access was made and nothing was drawn. -/
def NoAccess (s t : State) : Prop := t.clock = s.clock ∧ t.bus = s.bus ∧ t.draws = s.draws ∧ t.stored = s.stored

/-- The frame of an instruction that makes no access and writes at most the listed cells, the flags and the pc. -/
def RegisterFrame (cs : List Cell) (s t : State) : Prop :=
  SameCellsExcept cs s t ∧ SameControl s t ∧ SameSystem s t ∧ SameMemory s t ∧ NoAccess s t

/-- One access was made, with the answer that stood first (R61, R272): the clock, the queue, and no free value. -/
def OneAccess (s t : State) : Prop :=
  t.clock = s.clock + s.nextAnswer.waits + 1 ∧ t.bus = s.bus.tail ∧ t.draws = s.draws

/-- The frame of a load into one low register. -/
def LoadFrame (rd : Fin 8) (s t : State) : Prop :=
  SameCellsExcept [.low rd] s t ∧ SameFlags s t ∧ SameControl s t ∧ SameSystem s t ∧ SameMemory s t ∧
    OneAccess s t ∧ t.stored = s.stored ∧ t.pc = s.pc

/-- The `n` bytes from `a` join the written addresses, and no other does (20_memory.md R68). -/
def WritesJoin (a : Word) (n : Nat) (s t : State) : Prop :=
  ∀ x : Word, x.toNat ∈ t.stored ↔ x.toNat ∈ s.stored ∨ Covers a n x

/-- The frame of a store of `n` bytes at `a`. -/
def StoreFrame (a : Word) (n : Nat) (s t : State) : Prop :=
  SameCellsExcept [] s t ∧ SameFlags s t ∧ SameControl s t ∧ SameSystem s t ∧ SameMemoryOutside a n s t ∧
    WritesJoin a n s t ∧ OneAccess s t ∧ t.pc = s.pc

/-! ### Results -/

/-- N and Z are those of `r` (00_scope.md R14, `SetNZ`). -/
def NZOf (t : State) (r : Word) : Prop := t.cpsr.n = r.getLsbD 31 ∧ t.cpsr.z = decide (r = 0#32)

/-- C and V of `a + b`: the unsigned carry out and the signed overflow, in exact arithmetic. -/
def AddCV (t : State) (a b : Word) : Prop :=
  t.cpsr.c = decide (2 ^ 32 ≤ a.toNat + b.toNat) ∧ t.cpsr.v = decide (a.toInt + b.toInt ≠ (a + b).toInt)

/-- C and V of `a - b`: no borrow and the signed overflow, in exact arithmetic. -/
def SubCV (t : State) (a b : Word) : Prop :=
  t.cpsr.c = decide (b.toNat ≤ a.toNat) ∧ t.cpsr.v = decide (a.toInt - b.toInt ≠ (a - b).toInt)

/-- C and V as they were. -/
def SameCV (s t : State) : Prop := t.cpsr.c = s.cpsr.c ∧ t.cpsr.v = s.cpsr.v

/-- The result of an addition, its flags and its frame, with the register it goes to (none for a compare). -/
def AddsInto (s t : State) (rd : Fin 8) (a b : Word) : Prop :=
  (t.low rd).toNat = (a.toNat + b.toNat) % 2 ^ 32 ∧ NZOf t (a + b) ∧ AddCV t a b ∧ t.pc = s.pc ∧
    RegisterFrame [.low rd] s t

/-- The result of a subtraction, its flags and its frame. -/
def SubsInto (s t : State) (rd : Fin 8) (a b : Word) : Prop :=
  (t.low rd).toNat = (2 ^ 32 + a.toNat - b.toNat) % 2 ^ 32 ∧ NZOf t (a - b) ∧ SubCV t a b ∧ t.pc = s.pc ∧
    RegisterFrame [.low rd] s t

/-- The flags of a compare and its frame: no register is written. -/
def Compares (s t : State) (a b : Word) : Prop := NZOf t (a - b) ∧ SubCV t a b ∧ t.pc = s.pc ∧ RegisterFrame [] s t

/-- A shift or rotate of `v` into Rd: the result, C, N and Z of it, V kept, and the frame. -/
def ShiftsInto (s t : State) (rd : Fin 8) (r : Word) (c : Bool) : Prop :=
  t.low rd = r ∧ t.cpsr.c = c ∧ t.cpsr.v = s.cpsr.v ∧ NZOf t r ∧ t.pc = s.pc ∧ RegisterFrame [.low rd] s t

/-- A result whose bits are given, with N and Z from it, C and V kept, and the frame. -/
def BitsInto (s t : State) (rd : Fin 8) (bit : Nat → Bool) : Prop :=
  (∀ k, k < 32 → (t.low rd).getLsbD k = bit k) ∧ NZOf t (t.low rd) ∧ SameCV s t ∧ t.pc = s.pc ∧
    RegisterFrame [.low rd] s t

/-! ### Memory -/

/-- The bytes of `v` from `a` up, the least significant first (20_memory.md R51, R52). -/
def HoldsBytes (t : State) (a : Word) (n : Nat) (v : Word) : Prop :=
  ∀ k : Nat, k < n → Memory.byte t.mem (a + BitVec.ofNat 32 k) = v.extractLsb' (8 * k) 8

/-- What the `j`-th coming read finds: the platform's own answer, or memory's little-endian bytes (R52, R61). -/
def FindsAt (j : Nat) (s : State) (w : Width) (a v : Word) : Prop :=
  match (s.bus.getD j {}).data with
  | some d => v.toNat = d.toNat % 2 ^ (8 * w.bytes)
  | none => (∀ k : Nat, k < w.bytes → v.extractLsb' (8 * k) 8 = Memory.byte s.mem (a + BitVec.ofNat 32 k)) ∧
      v.toNat < 2 ^ (8 * w.bytes)

/-- What the next read finds. -/
def Finds (s : State) (w : Width) (a v : Word) : Prop := FindsAt 0 s w a v

/-- How many of the registers below `k` a list names: the place of register `k` in the transfer (30_encoding.md R93). -/
def rankIn (rlist : BitVec 8) (k : Nat) : Nat := ((List.range k).filter (fun j => rlist.getLsbD j)).length

/-- The address of the `j`-th word of a transfer from `a`, the low two bits ignored (20_memory.md R57). -/
def wordAddr (a : Word) (j : Nat) : Word := (a + BitVec.ofNat 32 (4 * j)) &&& 0xFFFFFFFC#32

/-- The cells of the registers a list names. -/
def listedCells (rlist : BitVec 8) : List Cell := (listed rlist).map Cell.low

/-- `n` accesses were made, with the answers that stood first. -/
def ManyAccesses (n : Nat) (s t : State) : Prop :=
  t.clock = s.clock + ((List.range n).map (fun k => (s.bus.getD k {}).waits + 1)).sum ∧ t.bus = s.bus.drop n

/-- The vector base is one of the two values of 60_exceptions.md R229. -/
def State.vectorsLegal (s : State) : Prop := s.vectorBase ≠ none

/-- None of the next `n` accesses aborts (R62). -/
def NoAbortIn (n : Nat) (s : State) : Prop :=
  s.cfg.busAbort = .oracle → ∀ k, k < n → (s.bus.getD k {}).abort = false

/-- The `k`-th coming access aborts, and none before it (R62). -/
def AbortsAt (k : Nat) (s : State) : Prop :=
  s.cfg.busAbort = .oracle ∧ (s.bus.getD k {}).abort = true ∧ ∀ j, j < k → (s.bus.getD j {}).abort = false

/-- The instruction makes exactly one data access in this state (43_load_store.md; 45_block_transfer.md R193). -/
def MakesOneAccess (s : State) : Instr → Prop
  | .ldrPc _ _ | .strReg _ _ _ | .strbReg _ _ _ | .ldrReg _ _ _ | .ldrbReg _ _ _ | .ldrsbReg _ _ _ | .strImm _ _ _
  | .ldrImm _ _ _ | .strbImm _ _ _ | .ldrbImm _ _ _ | .strSp _ _ | .ldrSp _ _ => True
  | .strhReg _ rb ro | .ldrhReg _ rb ro | .ldrshReg _ rb ro =>
      (s.low rb + s.low ro).getLsbD 0 = true → s.cfg.misalignedHalfword = .forceAlign
  | .strhImm _ rb imm5 | .ldrhImm _ rb imm5 =>
      (s.low rb + BitVec.ofNat 32 (2 * imm5.toNat)).getLsbD 0 = true → s.cfg.misalignedHalfword = .forceAlign
  | .stmia _ rlist | .ldmia _ rlist => rlist = 0#8 ∧ s.cfg.arch = .armv4
  | _ => False

/-! ### Exceptions -/

/-- What an entry does to everything but memory (60_exceptions.md R225): the link in the target mode's R14, the status
in its SPSR, the mode, T, I and F, the vector, HALT cleared, and the rest as it was, but for the cells listed. -/
def EntersSpoiling (cs : List Cell) (e : ExceptionKind) (lr : Word) (s t : State) : Prop :=
  t.cell (.lr e.target.bank) = lr ∧ SameCellsExcept (.lr e.target.bank :: cs) s t ∧
    t.spsr.get e.target = s.cpsr ∧ (∀ m, m ≠ e.target → t.spsr.get m = s.spsr.get m) ∧
    t.cpsr.m = e.target.bits ∧ t.cpsr.t = false ∧ t.cpsr.i = true ∧ t.cpsr.f = (s.cpsr.f || e.setsF) ∧
    SameFlags s t ∧ t.cpsr.reserved = s.cpsr.reserved ∧
    (∃ base, s.vectorBase = some base ∧ t.pc = base + BitVec.ofNat 32 (4 * e.code)) ∧
    t.lines = { s.lines with halt := false } ∧ t.cfg = s.cfg ∧ t.coproc = s.coproc

/-- An entry that changes nothing else (R225, R231). -/
def Enters (e : ExceptionKind) (lr : Word) (s t : State) : Prop := EntersSpoiling [] e lr s t ∧ SameMemory s t

/-- A DataAbort after `k` words of a transfer from `a` (R231, R244, D37): precise for k = 0; otherwise the listed cells
and the words already written hold any value. `writes` says that the transfer is a store. -/
def EntersAfter (k : Nat) (cs : List Cell) (writes : Bool) (a : Word) (s t : State) : Prop :=
  EntersSpoiling (if k = 0 then [] else cs) .dataAbort (s.pc + ExceptionKind.dataAbort.offset s.cfg s.cpsr.t) s t ∧
    SameMemoryOutside (wordAddr a 0) (if writes then 4 * k else 0) s t ∧
    WritesJoin (wordAddr a 0) (if writes then 4 * k else 0) s t

/-- What an entry taken in state `s` by whatever raised it leaves in the status registers and the pc
(60_exceptions.md R225): the kind is one that a step can raise and was not masked. -/
def EnteredFrom (s t : State) : Prop :=
  ∃ (e : ExceptionKind) (base : Word), e ≠ .reset ∧ e ≠ .addressOverflow ∧ s.masked e = false ∧
    t.cpsr = { s.cpsr with m := e.target.bits, t := false, i := true, f := s.cpsr.f || e.setsF } ∧
    t.spsr = s.spsr.set e.target s.cpsr ∧ s.vectorBase = some base ∧ t.pc = base + BitVec.ofNat 32 (4 * e.code)

/-! ### Conditions -/

/-- The instruction of a condition (46_branch_swi.md R200, R201). -/
def Cond.instr (k : Cond) (imm8 : BitVec 8) : Instr :=
  match k with
  | .eq => .beq imm8
  | .ne => .bne imm8
  | .cs => .bcs imm8
  | .cc => .bcc imm8
  | .mi => .bmi imm8
  | .pl => .bpl imm8
  | .vs => .bvs imm8
  | .vc => .bvc imm8
  | .hi => .bhi imm8
  | .ls => .bls imm8
  | .ge => .bge imm8
  | .lt => .blt imm8
  | .gt => .bgt imm8
  | .le => .ble imm8

/-- The "passes when" column of R200's table. -/
def Cond.Holds (k : Cond) (p : Psr) : Prop :=
  match k with
  | .eq => p.z = true
  | .ne => p.z = false
  | .cs => p.c = true
  | .cc => p.c = false
  | .mi => p.n = true
  | .pl => p.n = false
  | .vs => p.v = true
  | .vc => p.v = false
  | .hi => p.c = true ∧ p.z = false
  | .ls => p.c = false ∨ p.z = true
  | .ge => p.n = p.v
  | .lt => p.n ≠ p.v
  | .gt => p.z = false ∧ p.n = p.v
  | .le => p.z = true ∨ p.n ≠ p.v

/-- The "meaning" column of R200's table, of a comparison of `a` with `b`; none for the tests of one flag. -/
def Cond.Compares (k : Cond) (a b : Word) : Option Prop :=
  match k with
  | .eq => some (a = b)
  | .ne => some (a ≠ b)
  | .cs => some (b.toNat ≤ a.toNat)
  | .cc => some (a.toNat < b.toNat)
  | .hi => some (b.toNat < a.toNat)
  | .ls => some (a.toNat ≤ b.toNat)
  | .ge => some (b.toInt ≤ a.toInt)
  | .lt => some (a.toInt < b.toInt)
  | .gt => some (b.toInt < a.toInt)
  | .le => some (a.toInt ≤ b.toInt)
  | .mi | .pl | .vs | .vc => none

end Sys2Proof.Machine
end

