-- ==== Sys2Proof/WellFormed.lean ====
section
/-! DEFINITION. Which instructions are well formed.

Every bound of an operand (a register number, the width of an immediate) is in the operand's type, so each term of
Instr is some word's decoding. One check is left: PUSH and POP with an empty register list and R = 0 (0xB400 and
0xBC00) are words the spec gives no meaning and refuses (44_sp_pc_stack.md R186). They still decode, and the machine
refuses them by name (`Refusal.emptyStackList`). LDMIA and STMIA with an empty list do have a meaning
(45_block_transfer.md R193). -/

namespace Sys2Proof

/-- The instruction is one the spec gives an effect on some machine. -/
def Instr.wellFormed : Instr → Bool
  | .push r rlist => r || rlist != 0
  | .pop r rlist  => r || rlist != 0
  | .lslImm _ _ _ | .lsrImm _ _ _ | .asrImm _ _ _ | .addReg _ _ _ | .subReg _ _ _ | .addImm3 _ _ _
  | .subImm3 _ _ _ | .movImm _ _ | .cmpImm _ _ | .addImm8 _ _ | .subImm8 _ _ | .and _ _ | .eor _ _
  | .lslReg _ _ | .lsrReg _ _ | .asrReg _ _ | .adc _ _ | .sbc _ _ | .ror _ _ | .tst _ _ | .neg _ _
  | .cmpReg _ _ | .cmn _ _ | .orr _ _ | .mul _ _ | .bic _ _ | .mvn _ _ | .addHi _ _ | .cmpHi _ _ | .movHi _ _
  | .bx _ _ | .blxReg _ _ | .ldrPc _ _ | .strReg _ _ _ | .strbReg _ _ _ | .ldrReg _ _ _ | .ldrbReg _ _ _
  | .strhReg _ _ _ | .ldrsbReg _ _ _ | .ldrhReg _ _ _ | .ldrshReg _ _ _ | .strImm _ _ _ | .ldrImm _ _ _
  | .strbImm _ _ _ | .ldrbImm _ _ _ | .strhImm _ _ _ | .ldrhImm _ _ _ | .strSp _ _ | .ldrSp _ _ | .addPc _ _
  | .addSp _ _ | .addSpImm _ | .subSpImm _ | .stmia _ _ | .ldmia _ _ | .beq _ | .bne _ | .bcs _ | .bcc _
  | .bmi _ | .bpl _ | .bvs _ | .bvc _ | .bhi _ | .bls _ | .bge _ | .blt _ | .bgt _ | .ble _ | .udfDE _
  | .swi _ | .b _ | .blxSuffix _ | .blPrefix _ | .blSuffix _ | .udfB1 _ | .udfB2B3 _ | .udfB6B7 _
  | .udfB8BB _ | .udfBEBF _ => true

end Sys2Proof
end

