-- ==== Sys2Proof/Certificates/Slice0/Obligations.lean ====
section
/-! DEFINITION. The statements for the provers. Each holds for every choice of the parameters of R8 (they stand in
State) and for every answer of the bus. `exec` runs an instruction in the state the fetch leaves, where `pc` is A + 2
(10_state.md R23), so A + 4 is `s.pc + 2`. A statement of basis 'derived' rests on the sections it cites; where the spec
marks a sentence as a decision or as general knowledge the docstring says so. -/

open Sys2Proof Sys2Proof.Machine

/-! ### Encoding -/

/-- Decode and encode agree for every instruction and every operand, and the decoder takes two bytes and no more
(30_encoding.md R70, R74 to R94). -/
def Obligations.DecodingAnEncodedInstructionGivesItBack : Prop :=
  ∀ (i : Instr) (rest : List Byte),
    decodeBytes (halfBytes (encode i) ++ rest) = .ok (i, rest) ∧ decodeTableWord 16 (encode i).toNat = some i

/-- Every word is the word of the one instruction it decodes to (R73: the decoder is total, each word has one handler). -/
def Obligations.EveryWordIsTheEncodingOfItsInstruction : Prop :=
  ∀ w : Half, encode (decode w) = w ∧ ∀ i : Instr, encode i = w → i = decode w

/-- Words written out from the format tables, one or more of a family. -/
def Obligations.WordsOfTheFormatTablesDecode : Prop :=
  decode 0b0000011111001000#16 = .lslImm 0 1 31 ∧ decode 0b0001101010001011#16 = .subReg 3 1 2 ∧
  decode 0b0010111011111110#16 = .cmpImm 6 0xFE ∧ decode 0b0100001101001100#16 = .mul 4 1 ∧
  decode 0b0100010011000101#16 = .addHi 13 8 ∧ decode 0b0100011111110000#16 = .blxReg 14 0 ∧
  decode 0b0100101100000001#16 = .ldrPc 3 1 ∧ decode 0b0101011010001000#16 = .ldrsbReg 0 1 2 ∧
  decode 0b0111011111001000#16 = .strbImm 0 1 31 ∧ decode 0b1000100001001000#16 = .ldrhImm 0 1 1 ∧
  decode 0b1001101000000001#16 = .ldrSp 2 1 ∧ decode 0b1010100100000100#16 = .addSp 1 4 ∧
  decode 0b1011000010000100#16 = .subSpImm 4 ∧ decode 0b1011010100000011#16 = .push true 3 ∧
  decode 0b1100100000000110#16 = .ldmia 0 6 ∧ decode 0b1101101111110000#16 = .blt 0xF0 ∧
  decode 0b1101111100000101#16 = .swi 5 ∧ decode 0b1110011111111110#16 = .b 0x7FE ∧
  decode 0b1110100000100000#16 = .blxSuffix 0x20 ∧ decode 0b1011111000000000#16 = .udfBEBF 0

/-! ### Registers and memory -/

/-- A visible register reads as last written, the others and R15 are untouched, and only the cell that R21's table names
changes (R21, R24, R25). -/
def Obligations.AWrittenRegisterReadsBackAndNoOtherChanges : Prop :=
  ∀ (s : State) (i j : Fin 16) (v : Word), i.val < 15 →
    (s.writeReg i v).readReg j = (if j = i then v else s.readReg j) ∧ (s.writeReg i v).cpsr = s.cpsr ∧
    ∃ c : Cell, SameCellsExcept [c] s (s.writeReg i v) ∧
      (i.val < 8 → ∃ k : Fin 8, c = .low k ∧ k.val = i.val) ∧
      (8 ≤ i.val → i.val < 13 → ∃ k : Fin 5, i.val = 8 + k.val ∧
        c = (if s.cpsr.m = Mode.fiq.bits then .fiqHi k else .usrHi k)) ∧
      (∀ mode : Mode, s.cpsr.m = mode.bits →
        (i.val = 13 → c = .sp mode.bank) ∧ (i.val = 14 → c = .lr mode.bank))

/-- A round trip of the mode field from one mode to another and back leaves every visible register as it was, whatever
the other mode wrote to its own stack pointer, where it has one of its own (R22; the source's property 1). -/
def Obligations.AModeRoundTripKeepsTheVisibleRegisters : Prop :=
  ∀ (s : State) (a b : Mode) (x : Word), s.cpsr.m = a.bits → a.bank ≠ b.bank →
    ∃ t u, writeCpsr ({ s.cpsr with m := b.bits } : Psr).toWord s = .next t ∧
      t.cpsr = { s.cpsr with m := b.bits } ∧
      writeCpsr s.cpsr.toWord (t.writeReg 13 x) = .next u ∧ u.cpsr = s.cpsr ∧
      (∀ i : Fin 16, u.readReg i = s.readReg i) ∧ (t.writeReg 13 x).readReg 13 = x

/-- A word stored by STR is loaded back by LDR from the same address, rotated where the address is misaligned, with
memory answering both accesses (20_memory.md R51, R52, R54, R55: the spec's decisions D3 and D4). -/
def Obligations.AStoredWordLoadsBackRotated : Prop :=
  ∀ (s : State) (rd rd2 rb : Fin 8) (imm5 : BitVec 5), s.bus = [] →
    ∃ t u, exec (.strImm rd rb imm5) s = .next t ∧ exec (.ldrImm rd2 rb imm5) t = .next u ∧
      u.low rd2 = (s.low rd).rotateRight (8 * ((s.low rb).toNat % 4)) ∧
      (Memory.wf s.mem = true → Memory.wf u.mem = true)

/-! ### F1 to F3 -/

/-- LSL, LSR and ASR by an immediate, in exact arithmetic: 0 is no shift for LSL and 32 for LSR and ASR; C is the last
bit shifted out; V is kept (R100 to R102; the spec gives V from general knowledge). -/
def Obligations.ShiftsByAnImmediate : Prop :=
  ∀ (s : State) (rd rs : Fin 8) (imm5 : BitVec 5),
    (∃ t r, exec (.lslImm rd rs imm5) s = .next t ∧ r.toNat = (s.low rs).toNat * 2 ^ imm5.toNat % 2 ^ 32 ∧
      ShiftsInto s t rd r (if imm5 = 0#5 then s.cpsr.c else (s.low rs).getLsbD (32 - imm5.toNat))) ∧
    (∃ t r, exec (.lsrImm rd rs imm5) s = .next t ∧
      r.toNat = (s.low rs).toNat / 2 ^ (if imm5 = 0#5 then 32 else imm5.toNat) ∧
      ShiftsInto s t rd r ((s.low rs).getLsbD ((if imm5 = 0#5 then 32 else imm5.toNat) - 1))) ∧
    (∃ t r, exec (.asrImm rd rs imm5) s = .next t ∧
      r.toInt = (s.low rs).toInt / 2 ^ (if imm5 = 0#5 then 32 else imm5.toNat) ∧
      ShiftsInto s t rd r ((s.low rs).getLsbD ((if imm5 = 0#5 then 32 else imm5.toNat) - 1)))

/-- ADD of two registers, and of a register and a 3-bit immediate: the wrapped sum, N and Z of it, the unsigned carry
and the signed overflow (R103, R105). -/
def Obligations.AddRegisterAndAddImm3 : Prop :=
  ∀ (s : State) (rd rs rn : Fin 8) (imm3 : BitVec 3),
    (∃ t, exec (.addReg rd rs rn) s = .next t ∧ AddsInto s t rd (s.low rs) (s.low rn)) ∧
    (∃ t, exec (.addImm3 rd rs imm3) s = .next t ∧ AddsInto s t rd (s.low rs) (BitVec.ofNat 32 imm3.toNat))

/-- SUB of two registers, and of a 3-bit immediate from a register: the wrapped difference, N and Z of it, no borrow and
the signed overflow (R104, R106). -/
def Obligations.SubRegisterAndSubImm3 : Prop :=
  ∀ (s : State) (rd rs rn : Fin 8) (imm3 : BitVec 3),
    (∃ t, exec (.subReg rd rs rn) s = .next t ∧ SubsInto s t rd (s.low rs) (s.low rn)) ∧
    (∃ t, exec (.subImm3 rd rs imm3) s = .next t ∧ SubsInto s t rd (s.low rs) (BitVec.ofNat 32 imm3.toNat))

/-- MOV, CMP, ADD and SUB of an 8-bit immediate (R107 to R110, from general knowledge). -/
def Obligations.EightBitImmediateOperations : Prop :=
  ∀ (s : State) (rd : Fin 8) (imm8 : BitVec 8),
    (∃ t, exec (.movImm rd imm8) s = .next t ∧ (t.low rd).toNat = imm8.toNat ∧ t.cpsr.n = false ∧
      t.cpsr.z = decide (imm8 = 0#8) ∧ SameCV s t ∧ t.pc = s.pc ∧ RegisterFrame [.low rd] s t) ∧
    (∃ t, exec (.cmpImm rd imm8) s = .next t ∧ Compares s t (s.low rd) (BitVec.ofNat 32 imm8.toNat)) ∧
    (∃ t, exec (.addImm8 rd imm8) s = .next t ∧ AddsInto s t rd (s.low rd) (BitVec.ofNat 32 imm8.toNat)) ∧
    (∃ t, exec (.subImm8 rd imm8) s = .next t ∧ SubsInto s t rd (s.low rd) (BitVec.ofNat 32 imm8.toNat))

/-! ### F4 -/

/-- AND, EOR, ORR, BIC and MVN bit by bit, and TST, which writes no register: N and Z of the result, C and V kept
(R121, R122, R129, R133, R135, R136, from general knowledge). -/
def Obligations.LogicalOperations : Prop :=
  ∀ (s : State) (rd rs : Fin 8),
    let a := s.low rd
    let b := s.low rs
    (∃ t, exec (.and rd rs) s = .next t ∧ BitsInto s t rd (fun k => a.getLsbD k && b.getLsbD k)) ∧
    (∃ t, exec (.eor rd rs) s = .next t ∧ BitsInto s t rd (fun k => a.getLsbD k != b.getLsbD k)) ∧
    (∃ t, exec (.orr rd rs) s = .next t ∧ BitsInto s t rd (fun k => a.getLsbD k || b.getLsbD k)) ∧
    (∃ t, exec (.bic rd rs) s = .next t ∧ BitsInto s t rd (fun k => a.getLsbD k && !b.getLsbD k)) ∧
    (∃ t, exec (.mvn rd rs) s = .next t ∧ BitsInto s t rd (fun k => !b.getLsbD k)) ∧
    (∃ t, exec (.tst rd rs) s = .next t ∧ t.cpsr.n = (a.getLsbD 31 && b.getLsbD 31) ∧
      (t.cpsr.z = true ↔ ∀ k, k < 32 → (a.getLsbD k && b.getLsbD k) = false) ∧ SameCV s t ∧ t.pc = s.pc ∧
      RegisterFrame [] s t)

/-- LSL, LSR and ASR by the low byte of Rs, in exact arithmetic for every amount 0 to 255 (R120, R123 to R125, from
general knowledge): an amount of 0 keeps C, an amount above 32 clears it for LSL and LSR and takes bit 31 for ASR. -/
def Obligations.ShiftsByARegister : Prop :=
  ∀ (s : State) (rd rs : Fin 8),
    let v := s.low rd
    let n := (s.low rs).toNat % 256
    (∃ t r, exec (.lslReg rd rs) s = .next t ∧ r.toNat = v.toNat * 2 ^ n % 2 ^ 32 ∧
      ShiftsInto s t rd r (if n = 0 then s.cpsr.c else if n ≤ 32 then v.getLsbD (32 - n) else false)) ∧
    (∃ t r, exec (.lsrReg rd rs) s = .next t ∧ r.toNat = v.toNat / 2 ^ n ∧
      ShiftsInto s t rd r (if n = 0 then s.cpsr.c else if n ≤ 32 then v.getLsbD (n - 1) else false)) ∧
    (∃ t r, exec (.asrReg rd rs) s = .next t ∧ r.toInt = v.toInt / 2 ^ n ∧
      ShiftsInto s t rd r (if n = 0 then s.cpsr.c else if n ≤ 32 then v.getLsbD (n - 1) else v.getLsbD 31))

/-- ROR by the low byte of Rs: bit k of the result is bit (k + n) mod 32 of Rd; an amount of 0 keeps C, another sets it
to bit 31 of the result (R128, from general knowledge). -/
def Obligations.RotateByARegister : Prop :=
  ∀ (s : State) (rd rs : Fin 8),
    let v := s.low rd
    let n := (s.low rs).toNat % 256
    ∃ t r, exec (.ror rd rs) s = .next t ∧ (∀ k, k < 32 → r.getLsbD k = v.getLsbD ((k + n) % 32)) ∧
      ShiftsInto s t rd r (if n = 0 then s.cpsr.c else r.getLsbD 31)

/-- ADC and SBC: the result takes the incoming carry; C and V are those of the base operation under
`adc_sbc_flags = source`, and of the whole operation in exact arithmetic under `architectural`
(R126, R127, R137: the spec's decision D17). -/
def Obligations.AddAndSubtractWithCarry : Prop :=
  ∀ (s : State) (rd rs : Fin 8),
    let a := s.low rd
    let b := s.low rs
    let cin := if s.cpsr.c then 1 else 0
    (∃ t, exec (.adc rd rs) s = .next t ∧ (t.low rd).toNat = (a.toNat + b.toNat + cin) % 2 ^ 32 ∧
      NZOf t (t.low rd) ∧ t.pc = s.pc ∧ RegisterFrame [.low rd] s t ∧
      (s.cfg.adcSbcFlags = .source → AddCV t a b) ∧
      (s.cfg.adcSbcFlags = .architectural → t.cpsr.c = decide (2 ^ 32 ≤ a.toNat + b.toNat + cin) ∧
        t.cpsr.v = decide (a.toInt + b.toInt + cin ≠ (t.low rd).toInt))) ∧
    (∃ t, exec (.sbc rd rs) s = .next t ∧
      (t.low rd).toNat = (2 ^ 32 + a.toNat - b.toNat + cin + (2 ^ 32 - 1)) % 2 ^ 32 ∧
      NZOf t (t.low rd) ∧ t.pc = s.pc ∧ RegisterFrame [.low rd] s t ∧
      (s.cfg.adcSbcFlags = .source → SubCV t a b) ∧
      (s.cfg.adcSbcFlags = .architectural → t.cpsr.c = decide (b.toNat + (1 - cin) ≤ a.toNat) ∧
        t.cpsr.v = decide (a.toInt - b.toInt - (1 - (cin : Int)) ≠ (t.low rd).toInt)))

/-- CMP sets the flags of Rd - Rs and CMN those of Rd + Rs; neither writes a register (R131, R132). -/
def Obligations.CompareRegisters : Prop :=
  ∀ (s : State) (rd rs : Fin 8),
    (∃ t, exec (.cmpReg rd rs) s = .next t ∧ Compares s t (s.low rd) (s.low rs)) ∧
    (∃ t, exec (.cmn rd rs) s = .next t ∧ NZOf t (s.low rd + s.low rs) ∧ AddCV t (s.low rd) (s.low rs) ∧
      t.pc = s.pc ∧ RegisterFrame [] s t)

/-- NEG is the subtraction 0 - Rs: C only for Rs = 0, V only for the most negative number (R130, from general
knowledge). -/
def Obligations.NegateSubtractsFromZero : Prop :=
  ∀ (s : State) (rd rs : Fin 8),
    ∃ t, exec (.neg rd rs) s = .next t ∧ SubsInto s t rd 0#32 (s.low rs) ∧
      t.cpsr.c = decide (s.low rs = 0#32) ∧ t.cpsr.v = decide (s.low rs = 0x80000000#32)

/-- MUL keeps the low 32 bits of the product, N and Z of them and V; C is cleared on ARMv4 and kept on ARMv5 (R134). -/
def Obligations.MultiplyKeepsTheLowWord : Prop :=
  ∀ (s : State) (rd rs : Fin 8),
    ∃ t, exec (.mul rd rs) s = .next t ∧
      (t.low rd).toNat = (s.low rd).toNat * (s.low rs).toNat % 2 ^ 32 ∧ NZOf t (t.low rd) ∧
      t.cpsr.c = (match s.cfg.arch with
        | .armv4 => false
        | .armv5 => s.cpsr.c) ∧
      t.cpsr.v = s.cpsr.v ∧ t.pc = s.pc ∧ RegisterFrame [.low rd] s t

/-! ### F5 -/

/-- ADD and MOV over R0 to R15 leave the flags alone; R15 as the destination is a branch with bit 0 cleared, and T stays
(R141, R143). -/
def Obligations.HiRegisterAddAndMove : Prop :=
  ∀ (s : State) (rd rs : Fin 16) (i : Instr) (r : Word),
    (i = .addHi rd rs ∧ r = s.readReg rd + s.readReg rs) ∨ (i = .movHi rd rs ∧ r = s.readReg rs) →
    (∀ h : rd.val < 15, ∃ t, exec i s = .next t ∧ t.readReg rd = r ∧ t.pc = s.pc ∧ SameFlags s t ∧
      RegisterFrame [phys s.cpsr.m ⟨rd.val, h⟩] s t ∧ ∀ j : Fin 16, j ≠ rd → t.readReg j = s.readReg j) ∧
    (rd.val = 15 → ∃ t, exec i s = .next t ∧ t.pc = r &&& 0xFFFFFFFE#32 ∧ SameFlags s t ∧ RegisterFrame [] s t)

/-- CMP over R0 to R15 sets the flags of the difference, writes no register and does not branch (R142, from general
knowledge). -/
def Obligations.HiRegisterCompare : Prop :=
  ∀ (s : State) (rd rs : Fin 16),
    ∃ t, exec (.cmpHi rd rs) s = .next t ∧ Compares s t (s.readReg rd) (s.readReg rs)

/-- BX: bit 0 of the target picks the state; Thumb targets lose bit 0, ARM targets bits 1:0; the word's bits 2:0 do not
matter; no register and no flag is written (R144; D11). -/
def Obligations.BranchAndExchange : Prop :=
  ∀ (s : State) (rs : Fin 16) (sbz : BitVec 3),
    ∃ t, exec (.bx rs sbz) s = .next t ∧
      ((s.readReg rs).getLsbD 0 = true → t.cpsr.t = s.cpsr.t ∧ t.pc = s.readReg rs &&& 0xFFFFFFFE#32) ∧
      ((s.readReg rs).getLsbD 0 = false → t.cpsr.t = false ∧ t.pc = s.readReg rs &&& 0xFFFFFFFC#32) ∧
      SameCellsExcept [] s t ∧ SameFlags s t ∧ SameMasksAndMode s t ∧ SameSystem s t ∧ SameMemory s t ∧ NoAccess s t

/-- BLX on ARMv5. BLX Rs: the target is the register before the link is written, the link is (A + 2) | 1 in the current
mode's R14, and the state follows bit 0 as in BX. The BLX suffix: the target is the old LR plus twice the offset,
aligned down to 4, T is cleared, and the link is the same (R145, R207: D8, D12, D13). -/
def Obligations.LinkAndExchangeOnArmv5 : Prop :=
  ∀ (s : State) (rs : Fin 16) (sbz : BitVec 3) (imm11 : BitVec 11), s.cfg.arch = .armv5 →
    (∃ t, exec (.blxReg rs sbz) s = .next t ∧ t.lr = s.pc ||| 1#32 ∧
      ((s.readReg rs).getLsbD 0 = true → t.cpsr.t = s.cpsr.t ∧ t.pc = s.readReg rs &&& 0xFFFFFFFE#32) ∧
      ((s.readReg rs).getLsbD 0 = false → t.cpsr.t = false ∧ t.pc = s.readReg rs &&& 0xFFFFFFFC#32) ∧
      SameCellsExcept [.lr (bankOf s.cpsr.m)] s t ∧ SameFlags s t ∧ SameMasksAndMode s t ∧ SameSystem s t ∧
      SameMemory s t ∧ NoAccess s t) ∧
    (∃ t, exec (.blxSuffix imm11) s = .next t ∧ t.lr = s.pc ||| 1#32 ∧
      t.pc = (s.lr + BitVec.ofNat 32 (2 * imm11.toNat)) &&& 0xFFFFFFFC#32 ∧ t.cpsr.t = false ∧
      SameCellsExcept [.lr (bankOf s.cpsr.m)] s t ∧ SameFlags s t ∧ SameMasksAndMode s t ∧ SameSystem s t ∧
      SameMemory s t ∧ NoAccess s t)

/-! ### F6 to F11 -/

/-- LDR Rd, [PC, #imm8*4] loads the word at (A + 4) with bit 1 cleared plus the offset; the address is word-aligned
wherever the instruction stands (R150). Where the access aborts (log 4's answers say so), Rd is not written and DataAbort
is taken with the link A + 2 plus the offset (R244: D5, D27). -/
def Obligations.LoadRelativeToPc : Prop :=
  ∀ (s : State) (rd : Fin 8) (imm8 : BitVec 8),
    let addr := ((s.pc + 2#32) &&& 0xFFFFFFFD#32) + BitVec.ofNat 32 (4 * imm8.toNat)
    (s.nextAborts = false → ∃ t, exec (.ldrPc rd imm8) s = .next t ∧ Finds s .word addr (t.low rd) ∧ LoadFrame rd s t) ∧
    (s.pc.getLsbD 0 = false → addr.getLsbD 0 = false ∧ addr.getLsbD 1 = false) ∧
    (s.nextAborts = true → s.vectorsLegal →
      ∃ t, exec (.ldrPc rd imm8) s = .next t ∧
        Enters .dataAbort (s.pc + ExceptionKind.dataAbort.offset s.cfg s.cpsr.t) s t)

/-- The word loads with a register offset, an immediate offset and SP: the aligned word, rotated right by 8 times the
low two address bits (R153, R160, R166, R54: D4 and general knowledge). -/
def Obligations.WordLoadsRotate : Prop :=
  ∀ (s : State) (rd rb ro : Fin 8) (imm5 : BitVec 5) (imm8 : BitVec 8) (i : Instr) (a : Word), s.nextAborts = false →
    (i = .ldrReg rd rb ro ∧ a = s.low rb + s.low ro) ∨
    (i = .ldrImm rd rb imm5 ∧ a = s.low rb + BitVec.ofNat 32 (4 * imm5.toNat)) ∨
    (i = .ldrSp rd imm8 ∧ a = s.sp + BitVec.ofNat 32 (4 * imm8.toNat)) →
    ∃ t v, exec i s = .next t ∧ Finds s .word (a &&& 0xFFFFFFFC#32) v ∧
      t.low rd = v.rotateRight (8 * (a.toNat % 4)) ∧ LoadFrame rd s t

/-- The byte loads, zero-extended and sign-extended (R154, R156, R162, from general knowledge). -/
def Obligations.ByteLoadsExtend : Prop :=
  ∀ (s : State) (rd rb ro : Fin 8) (imm5 : BitVec 5), s.nextAborts = false →
    (∃ t, exec (.ldrbReg rd rb ro) s = .next t ∧ Finds s .byte (s.low rb + s.low ro) (t.low rd) ∧ LoadFrame rd s t) ∧
    (∃ t, exec (.ldrbImm rd rb imm5) s = .next t ∧
      Finds s .byte (s.low rb + BitVec.ofNat 32 imm5.toNat) (t.low rd) ∧ LoadFrame rd s t) ∧
    (∃ t v, exec (.ldrsbReg rd rb ro) s = .next t ∧ Finds s .byte (s.low rb + s.low ro) v ∧
      (t.low rd).toInt = (if v.toNat < 128 then (v.toNat : Int) else v.toNat - 256) ∧ LoadFrame rd s t)

/-- The halfword loads: exact at an even address; at an odd one, a rotated halfword or a sign-extended byte under
`force_align`, and under `unspecified` some value (a free value: nothing is said of it), everything else kept (R157,
R158, R164, R56: D4 and general knowledge). That this last load makes no access, so that the clock, the bus's answers and
the written addresses stay, is the model's reading and no rule's words (DEDUCED, log 18). -/
def Obligations.HalfwordLoads : Prop :=
  ∀ (s : State) (rd rb ro : Fin 8) (imm5 : BitVec 5) (i : Instr) (a : Word) (signed : Bool),
    (i = .ldrhReg rd rb ro ∧ a = s.low rb + s.low ro ∧ signed = false) ∨
    (i = .ldrshReg rd rb ro ∧ a = s.low rb + s.low ro ∧ signed = true) ∨
    (i = .ldrhImm rd rb imm5 ∧ a = s.low rb + BitVec.ofNat 32 (2 * imm5.toNat) ∧ signed = false) →
    (a.getLsbD 0 = false → s.nextAborts = false → ∃ t v, exec i s = .next t ∧ Finds s .half a v ∧ LoadFrame rd s t ∧
      t.low rd = (if signed ∧ 2 ^ 15 ≤ v.toNat then v ||| 0xFFFF0000#32 else v)) ∧
    (a.getLsbD 0 = true → s.cfg.misalignedHalfword = .forceAlign → s.nextAborts = false →
      ∃ t v, exec i s = .next t ∧ LoadFrame rd s t ∧
        (signed = false → Finds s .half (a &&& 0xFFFFFFFE#32) v ∧ t.low rd = v.rotateRight 8) ∧
        (signed = true → Finds s .byte a v ∧ t.low rd = (if 2 ^ 7 ≤ v.toNat then v ||| 0xFFFFFF00#32 else v))) ∧
    (a.getLsbD 0 = true → s.cfg.misalignedHalfword = .unspecified →
      ∃ t, exec i s = .next t ∧ SameCellsExcept [.low rd] s t ∧ SameFlags s t ∧ SameControl s t ∧ SameSystem s t ∧
        SameMemory s t ∧ t.clock = s.clock ∧ t.bus = s.bus ∧ t.stored = s.stored ∧ t.pc = s.pc)

/-- The word stores: the four bytes of Rd at the address with its low two bits cleared, and no other byte; those four
become written addresses (R151, R159, R165, R55, R68: D4, D7 and general knowledge; the set of written addresses is log
8's). -/
def Obligations.WordStoresAlign : Prop :=
  ∀ (s : State) (rd rb ro : Fin 8) (imm5 : BitVec 5) (imm8 : BitVec 8) (i : Instr) (a : Word), s.nextAborts = false →
    (i = .strReg rd rb ro ∧ a = s.addrReg rb ro) ∨
    (i = .strImm rd rb imm5 ∧ a = s.low rb + BitVec.ofNat 32 (4 * imm5.toNat)) ∨
    (i = .strSp rd imm8 ∧ a = s.sp + BitVec.ofNat 32 (4 * imm8.toNat)) →
    ∃ t, exec i s = .next t ∧ HoldsBytes t (a &&& 0xFFFFFFFC#32) 4 (s.low rd) ∧
      StoreFrame (a &&& 0xFFFFFFFC#32) 4 s t

/-- The byte stores: the low byte of Rd, at any address, which becomes a written one (R152, R161, R58, R68: D7, log 8 and
general knowledge). -/
def Obligations.ByteStores : Prop :=
  ∀ (s : State) (rd rb ro : Fin 8) (imm5 : BitVec 5) (i : Instr) (a : Word), s.nextAborts = false →
    (i = .strbReg rd rb ro ∧ a = s.low rb + s.low ro) ∨
    (i = .strbImm rd rb imm5 ∧ a = s.low rb + BitVec.ofNat 32 imm5.toNat) →
    ∃ t, exec i s = .next t ∧ HoldsBytes t a 1 (s.low rd) ∧ StoreFrame a 1 s t

/-- The halfword stores: the low halfword of Rd at an even address, or aligned down under `force_align`; at an odd
address under `unspecified` the spec refuses them (R155, R163, R56: D4 and general knowledge). The two bytes become
written addresses (R68: D7, log 8). -/
def Obligations.HalfwordStores : Prop :=
  ∀ (s : State) (rd rb ro : Fin 8) (imm5 : BitVec 5) (i : Instr) (a : Word),
    (i = .strhReg rd rb ro ∧ a = s.low rb + s.low ro) ∨
    (i = .strhImm rd rb imm5 ∧ a = s.low rb + BitVec.ofNat 32 (2 * imm5.toNat)) →
    ((a.getLsbD 0 = false ∨ s.cfg.misalignedHalfword = .forceAlign) → s.nextAborts = false →
      ∃ t, exec i s = .next t ∧ HoldsBytes t (a &&& 0xFFFFFFFE#32) 2 (s.low rd) ∧
        StoreFrame (a &&& 0xFFFFFFFE#32) 2 s t) ∧
    (a.getLsbD 0 = true → s.cfg.misalignedHalfword = .unspecified → exec i s = .refused .misalignedHalfwordStore)

/-- Where the one access of a load or store aborts, the instruction writes nothing and DataAbort is taken, with the
link A + 2 plus the offset (R167, R244: D5, D27; that the access takes the answer that stood first is log 4, and that
no address becomes a written one is log 8). -/
def Obligations.AnAbortedAccessRaisesDataAbortPrecisely : Prop :=
  ∀ (s : State) (i : Instr), MakesOneAccess s i → s.nextAborts = true → s.vectorsLegal →
    ∃ t, exec i s = .next t ∧
      Enters .dataAbort (s.pc + ExceptionKind.dataAbort.offset s.cfg s.cpsr.t) s t ∧ t.bus = s.bus.tail ∧
      t.stored = s.stored

/-! ### F12 to F15 -/

/-- ADD Rd, PC and ADD Rd, SP: the base plus imm8 * 4; the PC base is A + 4 with bit 1 cleared; SP is used as it is and
not written (R180, R181: D38 and general knowledge). -/
def Obligations.AddressGeneration : Prop :=
  ∀ (s : State) (rd : Fin 8) (imm8 : BitVec 8),
    (∃ t, exec (.addPc rd imm8) s = .next t ∧
      t.low rd = ((s.pc + 2#32) &&& 0xFFFFFFFD#32) + BitVec.ofNat 32 (4 * imm8.toNat) ∧ SameFlags s t ∧
      t.pc = s.pc ∧ RegisterFrame [.low rd] s t) ∧
    (∃ t, exec (.addSp rd imm8) s = .next t ∧ t.low rd = s.sp + BitVec.ofNat 32 (4 * imm8.toNat) ∧ SameFlags s t ∧
      t.pc = s.pc ∧ RegisterFrame [.low rd] s t)

/-- ADD SP and SUB SP move the current mode's stack pointer by imm7 * 4, modulo 2^32, and touch no flag (R182, R183,
from general knowledge). -/
def Obligations.StackPointerAdjustment : Prop :=
  ∀ (s : State) (imm7 : BitVec 7),
    (∃ t, exec (.addSpImm imm7) s = .next t ∧ t.sp.toNat = (s.sp.toNat + 4 * imm7.toNat) % 2 ^ 32 ∧ SameFlags s t ∧
      t.pc = s.pc ∧ RegisterFrame [.sp (bankOf s.cpsr.m)] s t) ∧
    (∃ t, exec (.subSpImm imm7) s = .next t ∧ t.sp.toNat = (2 ^ 32 + s.sp.toNat - 4 * imm7.toNat) % 2 ^ 32 ∧
      SameFlags s t ∧ t.pc = s.pc ∧ RegisterFrame [.sp (bankOf s.cpsr.m)] s t)

/-- PUSH: a full-descending stack, ascending registers from the lowest address, LR at the highest; nothing outside the
words is stored to, and their bytes become written addresses (R184, R93, R57, R68: general knowledge, D4, D7, log 8). -/
def Obligations.PushStoresTheList : Prop :=
  ∀ (s : State) (r : Bool) (rlist : BitVec 8),
    let n := rankIn rlist 8 + (if r then 1 else 0)
    let base := s.sp - BitVec.ofNat 32 (4 * n)
    n ≠ 0 → NoAbortIn n s →
    ∃ t, exec (.push r rlist) s = .next t ∧ t.sp = base ∧
      (∀ k : Fin 8, rlist.getLsbD k.val = true → HoldsBytes t (wordAddr base (rankIn rlist k.val)) 4 (s.low k)) ∧
      (r = true → HoldsBytes t (wordAddr base (rankIn rlist 8)) 4 s.lr) ∧
      SameMemoryOutside (wordAddr base 0) (4 * n) s t ∧ WritesJoin (wordAddr base 0) (4 * n) s t ∧
      SameCellsExcept [.sp (bankOf s.cpsr.m)] s t ∧
      SameFlags s t ∧ SameControl s t ∧ SameSystem s t ∧ ManyAccesses n s t ∧ t.draws = s.draws ∧ t.pc = s.pc

/-- POP: each listed register gets its word, SP moves up, and a popped PC stays Thumb on ARMv4 and follows bit 0 on
ARMv5 (R185, R93, R57; the source's property 6; the order of loads is general knowledge). -/
def Obligations.PopLoadsTheList : Prop :=
  ∀ (s : State) (r : Bool) (rlist : BitVec 8),
    let n := rankIn rlist 8 + (if r then 1 else 0)
    n ≠ 0 → NoAbortIn n s →
    ∃ t, exec (.pop r rlist) s = .next t ∧ t.sp = s.sp + BitVec.ofNat 32 (4 * n) ∧
      (∀ k : Fin 8, rlist.getLsbD k.val = true →
        FindsAt (rankIn rlist k.val) s .word (wordAddr s.sp (rankIn rlist k.val)) (t.low k)) ∧
      (r = false → t.pc = s.pc ∧ t.cpsr.t = s.cpsr.t) ∧
      (r = true → ∃ v, FindsAt (rankIn rlist 8) s .word (wordAddr s.sp (rankIn rlist 8)) v ∧
        (s.cfg.arch = .armv4 ∨ v.getLsbD 0 = true → t.pc = v &&& 0xFFFFFFFE#32 ∧ t.cpsr.t = s.cpsr.t) ∧
        (s.cfg.arch = .armv5 → v.getLsbD 0 = false → t.pc = v &&& 0xFFFFFFFC#32 ∧ t.cpsr.t = false)) ∧
      SameCellsExcept (.sp (bankOf s.cpsr.m) :: listedCells rlist) s t ∧
      SameFlags s t ∧ SameMasksAndMode s t ∧ SameSystem s t ∧ SameMemory s t ∧ ManyAccesses n s t ∧
      t.draws = s.draws ∧ t.stored = s.stored

/-- PUSH and POP with nothing to transfer are refused, and they are exactly the ill-formed instructions (R186, D14). -/
def Obligations.EmptyStackListsAreRefused : Prop :=
  ∀ (i : Instr) (s : State), i.wellFormed = false ↔ exec i s = .refused .emptyStackList

/-- STMIA: ascending registers from the base up, writeback always; the base's own word is the original where it is first
in the list, and the final base on ARMv4 where it is not; on ARMv5 that word is a free value, of which nothing is said
(R191, R190, R57: D4, D15 and general knowledge). The words' bytes become written addresses (R68: D7, log 8). -/
def Obligations.StoreMultipleStoresTheList : Prop :=
  ∀ (s : State) (rb : Fin 8) (rlist : BitVec 8),
    let n := rankIn rlist 8
    let final := s.low rb + BitVec.ofNat 32 (4 * n)
    n ≠ 0 → NoAbortIn n s →
    ∃ t, exec (.stmia rb rlist) s = .next t ∧ t.low rb = final ∧
      (∀ k : Fin 8, rlist.getLsbD k.val = true → k ≠ rb ∨ rankIn rlist k.val = 0 →
        HoldsBytes t (wordAddr (s.low rb) (rankIn rlist k.val)) 4 (s.low k)) ∧
      (rlist.getLsbD rb.val = true → rankIn rlist rb.val ≠ 0 → s.cfg.arch = .armv4 →
        HoldsBytes t (wordAddr (s.low rb) (rankIn rlist rb.val)) 4 final) ∧
      SameMemoryOutside (wordAddr (s.low rb) 0) (4 * n) s t ∧ WritesJoin (wordAddr (s.low rb) 0) (4 * n) s t ∧
      SameCellsExcept [.low rb] s t ∧
      SameFlags s t ∧ SameControl s t ∧ SameSystem s t ∧ ManyAccesses n s t ∧ t.pc = s.pc

/-- LDMIA: each listed register gets its word; the base is written back unless it is in the list (R192, R190, R57: the
order of transfers is general knowledge). -/
def Obligations.LoadMultipleLoadsTheList : Prop :=
  ∀ (s : State) (rb : Fin 8) (rlist : BitVec 8),
    let n := rankIn rlist 8
    n ≠ 0 → NoAbortIn n s →
    ∃ t, exec (.ldmia rb rlist) s = .next t ∧
      (∀ k : Fin 8, rlist.getLsbD k.val = true →
        FindsAt (rankIn rlist k.val) s .word (wordAddr (s.low rb) (rankIn rlist k.val)) (t.low k)) ∧
      (rlist.getLsbD rb.val = false → t.low rb = s.low rb + BitVec.ofNat 32 (4 * n)) ∧
      SameCellsExcept (.low rb :: listedCells rlist) s t ∧
      SameFlags s t ∧ SameControl s t ∧ SameSystem s t ∧ SameMemory s t ∧ ManyAccesses n s t ∧
      t.draws = s.draws ∧ t.stored = s.stored ∧ t.pc = s.pc

/-- LDMIA and STMIA with an empty list: the base moves by 0x40; ARMv5 transfers nothing; ARMv4 loads the pc with bit 0
cleared and stays Thumb, or stores A + 4 or A + 6 (R193: D16), in four bytes that become written addresses (R68: D7,
log 8). -/
def Obligations.EmptyBlockTransfers : Prop :=
  ∀ (s : State) (rb : Fin 8),
    let base := s.low rb
    (∀ i : Instr, s.cfg.arch = .armv5 → i = .ldmia rb 0#8 ∨ i = .stmia rb 0#8 →
      ∃ t, exec i s = .next t ∧ t.low rb = base + 0x40#32 ∧ SameFlags s t ∧ t.pc = s.pc ∧
        RegisterFrame [.low rb] s t) ∧
    (s.cfg.arch = .armv4 → s.nextAborts = false →
      ∃ t v, exec (.ldmia rb 0#8) s = .next t ∧ t.low rb = base + 0x40#32 ∧
        Finds s .word (base &&& 0xFFFFFFFC#32) v ∧ t.pc = v &&& 0xFFFFFFFE#32 ∧ SameCellsExcept [.low rb] s t ∧
        SameFlags s t ∧ SameControl s t ∧ SameSystem s t ∧ SameMemory s t ∧ OneAccess s t ∧ t.stored = s.stored) ∧
    (s.cfg.arch = .armv4 → s.nextAborts = false →
      ∃ t, exec (.stmia rb 0#8) s = .next t ∧ t.low rb = base + 0x40#32 ∧
        HoldsBytes t (base &&& 0xFFFFFFFC#32) 4 (s.pc + (match s.cfg.stmEmptyPcValue with
          | .aPlus4 => 2#32
          | .aPlus6 => 4#32)) ∧
        SameMemoryOutside (base &&& 0xFFFFFFFC#32) 4 s t ∧ WritesJoin (base &&& 0xFFFFFFFC#32) 4 s t ∧
        SameCellsExcept [.low rb] s t ∧
        SameFlags s t ∧ SameControl s t ∧ SameSystem s t ∧ OneAccess s t ∧ t.pc = s.pc)

/-- An abort inside a multiple transfer takes DataAbort with the link A + 2 plus the offset and the status as it was; at
the first access it is precise; later, only the listed registers, the base or SP and the words already written may hold
any value (R231, R244: D27, D37; log 11 reads R231's "after its first access"). The bytes of those words, and no others,
become written addresses (R68: D7, log 8). -/
def Obligations.AnAbortInsideATransferRaisesDataAbort : Prop :=
  ∀ (s : State) (k : Nat) (r : Bool) (rb : Fin 8) (rlist : BitVec 8), AbortsAt k s → s.vectorsLegal →
    let sp := Cell.sp (bankOf s.cpsr.m)
    let n := rankIn rlist 8
    (k < n + (if r then 1 else 0) →
      (∃ t, exec (.push r rlist) s = .next t ∧
        EntersAfter k [sp] true (s.sp - BitVec.ofNat 32 (4 * (n + (if r then 1 else 0)))) s t) ∧
      (∃ t, exec (.pop r rlist) s = .next t ∧ EntersAfter k (sp :: listedCells rlist) false s.sp s t)) ∧
    (k < n →
      (∃ t, exec (.stmia rb rlist) s = .next t ∧ EntersAfter k [.low rb] true (s.low rb) s t) ∧
      (∃ t, exec (.ldmia rb rlist) s = .next t ∧
        EntersAfter k (.low rb :: listedCells rlist) false (s.low rb) s t))

/-! ### F16 to F19 and the undefined encodings -/

/-- A conditional branch is taken to A + 4 plus twice the signed offset when its test passes, and otherwise goes on at
A + 2; it writes no register and no flag (R201; the tests are R200's table, from general knowledge). -/
def Obligations.ConditionalBranches : Prop :=
  ∀ (s : State) (k : Cond) (imm8 : BitVec 8),
    ∃ t, exec (k.instr imm8) s = .next t ∧
      (k.Holds s.cpsr → t.pc = s.pc + 2#32 + BitVec.ofInt 32 (2 * imm8.toInt)) ∧
      (¬ k.Holds s.cpsr → t.pc = s.pc) ∧ SameFlags s t ∧ RegisterFrame [] s t

/-- After a compare of two low registers, each condition that R200 gives a meaning of passes exactly when that
comparison of the registers holds (R131, R200). -/
def Obligations.ConditionsAfterACompareMeanComparisons : Prop :=
  ∀ (s t : State) (rd rs : Fin 8) (k : Cond) (meaning : Prop), exec (.cmpReg rd rs) s = .next t →
    k.Compares (s.low rd) (s.low rs) = some meaning → (k.Holds t.cpsr ↔ meaning)

/-- B goes to A + 4 plus twice the signed 11-bit offset, and changes nothing but the pc (R204). -/
def Obligations.UnconditionalBranch : Prop :=
  ∀ (s : State) (imm11 : BitVec 11),
    ∃ t, exec (.b imm11) s = .next t ∧ t.pc = s.pc + 2#32 + BitVec.ofInt 32 (2 * imm11.toInt) ∧ SameFlags s t ∧
      RegisterFrame [] s t

/-- The BL prefix writes LR alone, A + 4 plus the signed high part; the suffix branches relative to the old LR and
leaves (A + 2) | 1 there, T unchanged (R205, R206). -/
def Obligations.LongBranchHalves : Prop :=
  ∀ (s : State) (imm11 : BitVec 11),
    (∃ t, exec (.blPrefix imm11) s = .next t ∧ t.lr = s.pc + 2#32 + BitVec.ofInt 32 (4096 * imm11.toInt) ∧
      t.pc = s.pc ∧ SameFlags s t ∧ RegisterFrame [.lr (bankOf s.cpsr.m)] s t) ∧
    (∃ t, exec (.blSuffix imm11) s = .next t ∧ t.lr = s.pc ||| 1#32 ∧
      t.pc = (s.lr + BitVec.ofNat 32 (2 * imm11.toNat)) &&& 0xFFFFFFFE#32 ∧ SameFlags s t ∧
      RegisterFrame [.lr (bankOf s.cpsr.m)] s t)

/-- Two steps over a prefix at P and a BL suffix at P + 2 in memory, with nothing pending and memory answering: the pc
is P + 4 plus both parts with bit 0 cleared, and LR is (P + 4) | 1 (R209, a derivation of the spec). -/
def Obligations.ALongBranchPairCalls : Prop :=
  ∀ (s : State) (hi lo : BitVec 11), s.modeLegal → s.cpsr.t = true → s.pc.getLsbD 0 = false →
    s.lines = { fiq := false, irq := false, halt := false } → s.bus = [] → s.cfg.fetchSeesStores = true →
    HoldsBytes s s.pc 2 ((encode (.blPrefix hi)).zeroExtend 32) →
    HoldsBytes s (s.pc + 2#32) 2 ((encode (.blSuffix lo)).zeroExtend 32) →
    ∃ t u, step s = .next t ∧ step t = .next u ∧
      u.pc = (s.pc + 4#32 + BitVec.ofInt 32 (4096 * hi.toInt) + BitVec.ofNat 32 (2 * lo.toNat)) &&& 0xFFFFFFFE#32 ∧
      u.lr = (s.pc + 4#32) ||| 1#32 ∧ u.cpsr = s.cpsr ∧ u.clock = s.clock + 4 ∧
      SameCellsExcept [.lr (bankOf s.cpsr.m)] s u

/-- SWI takes the SWI exception: Supervisor mode, the link A + 2, the status before in SPSR[Supervisor], the vector
0x08, whatever the comment field, in every mode (R203, R225, R226: D32). -/
def Obligations.SoftwareInterruptEntersSupervisor : Prop :=
  ∀ (s : State) (imm8 : BitVec 8), s.vectorsLegal →
    ∃ t, exec (.swi imm8) s = .next t ∧ Enters .swi s.pc s t ∧ NoAccess s t ∧ t.spsr.svc = s.cpsr ∧
      t.cpsr.m = 0x13#5 ∧ (s.coproc[15] = none → t.pc = 0x00000008#32)

/-- Every undefined encoding takes the Undefined exception with the link A + 2, and so do BLX Rs and the BLX suffix on
ARMv4; 0xBE on ARMv5 under `v5_bkpt = PrefetchAbort` takes PrefetchAbort, in Thumb state with the link A + 4
(R202, R208, R94: D8, D9, D33). -/
def Obligations.UndefinedEncodingsEnterUndefined : Prop :=
  ∀ (s : State) (i : Instr) (b8 : BitVec 8) (b9 : BitVec 9) (b10 : BitVec 10) (b11 : BitVec 11) (rs : Fin 16)
    (sbz : BitVec 3), s.vectorsLegal →
    (i = .udfDE b8 ∨ i = .udfB1 b8 ∨ i = .udfB2B3 b9 ∨ i = .udfB6B7 b9 ∨ i = .udfB8BB b10 ∨
      (i = .udfBEBF b9 ∧ (s.cfg.arch = .armv4 ∨ s.cfg.v5Bkpt = .undefined ∨ b9.getLsbD 8 = true)) ∨
      (i = .blxReg rs sbz ∧ s.cfg.arch = .armv4) ∨ (i = .blxSuffix b11 ∧ s.cfg.arch = .armv4) →
      ∃ t, exec i s = .next t ∧ Enters .undefined s.pc s t ∧ NoAccess s t) ∧
    (s.cfg.arch = .armv5 → s.cfg.v5Bkpt = .prefetchAbort → b9.getLsbD 8 = false → s.cpsr.t = true →
      ∃ t, exec (.udfBEBF b9) s = .next t ∧ Enters .prefetchAbort (s.pc + 2#32) s t ∧ NoAccess s t)

/-! ### Exceptions -/

/-- The entry sequence, for every kind: a masked FIQ or IRQ returns with no effect (R224, R225 steps 1 and 2).
Otherwise, where the vector base is one of R229's two values, the status goes to the target's SPSR whole, the link to
the target's R14, the mode, T, I and F change as listed, the pc goes to the vector, HALT is cleared, and no other
register, flag, status bit or byte of memory changes (R225, R228, R230); where slot 15 answers neither value the entry
is refused as BadVectorBase (R229: the spec's decision D23; that a handle is its answer is log 15). -/
def Obligations.TheEntrySequence : Prop :=
  ∀ (s : State) (e : ExceptionKind) (p : Word),
    ((e = .fiq ∧ s.cpsr.f = true) ∨ (e = .irq ∧ s.cpsr.i = true) → enter e p s = .next s) ∧
    (¬ ((e = .fiq ∧ s.cpsr.f = true) ∨ (e = .irq ∧ s.cpsr.i = true)) → s.vectorsLegal →
      ∃ t, enter e p s = .next t ∧ Enters e (p + e.offset s.cfg s.cpsr.t) s t ∧ NoAccess s t) ∧
    (¬ ((e = .fiq ∧ s.cpsr.f = true) ∨ (e = .irq ∧ s.cpsr.i = true)) → ¬ s.vectorsLegal →
      enter e p s = .refused .badVectorBase)

/-- The table of kinds: target mode, vector offset, the two link offsets and which kinds set F (R220: D27, D28), and the
vector base of slot 15 (R229: D23). -/
def Obligations.TheExceptionTable : Prop :=
  (∀ (c : Config) (e : ExceptionKind) (m : BitVec 5) (vector : Nat) (arm thumb : Word) (f : Bool),
    (e, m, vector, arm, thumb, f) ∈
      ([(.reset, 0x13, 0x00, 0, 0, true), (.undefined, 0x1B, 0x04, 0, 0, false), (.swi, 0x13, 0x08, 0, 0, false),
        (.prefetchAbort, 0x17, 0x0C, 0, 2, false), (.addressOverflow, 0x13, 0x14, 0, 0, false),
        (.irq, 0x12, 0x18, 0, 2, false), (.fiq, 0x11, 0x1C, 0, 2, true),
        (.dataAbort, 0x17, 0x10, 4, (match c.thumbDabtLrOffset with
          | .four => 4
          | .six => 6), false)] : List (ExceptionKind × BitVec 5 × Nat × Word × Word × Bool)) →
    e.target.bits = m ∧ 4 * e.code = vector ∧ e.offset c false = arm ∧ e.offset c true = thumb ∧ e.setsF = f) ∧
  (∀ s : State, (s.coproc[15] = none → s.vectorBase = some 0x00000000#32) ∧
    ∀ h : Coproc, s.coproc[15] = some h →
      (h.exceptionVector = 0x00000000#32 ∨ h.exceptionVector = 0xFFFF0000#32 → s.vectorBase = some h.exceptionVector) ∧
      (h.exceptionVector ≠ 0x00000000#32 → h.exceptionVector ≠ 0xFFFF0000#32 → s.vectorBase = none))

/-- A return right after an entry restores the status whole, and with it every visible register but a target R14 that is
the interrupted mode's own; memory is as it was; the pc is the return address with the mask of the restored state
(R233, R225: D20, D29). -/
def Obligations.AReturnRestoresTheInterruptedState : Prop :=
  ∀ (s t : State) (e : ExceptionKind) (p x : Word), s.modeLegal → s.masked e = false → enter e p s = .next t →
    ∃ u, returnFromException x t = .next u ∧ u.cpsr = s.cpsr ∧
      u.pc = (if s.cpsr.t then x &&& 0xFFFFFFFE#32 else x &&& 0xFFFFFFFC#32) ∧
      (∀ i : Fin 16, i.val < 15 → (i.val = 14 → bankOf s.cpsr.m ≠ e.target.bank) → u.readReg i = s.readReg i) ∧
      SameMemory s u ∧ u.spsr = t.spsr

/-! ### Reset and the host's calls -/

/-- `reset()` in any state: Supervisor mode, ARM state, both masks set, the status before in SPSR[Supervisor], the pc at
the call in R14_svc, the pc at the reset vector, HALT cleared, all else unchanged (R261: D22). -/
def Obligations.ResetEntersSupervisorAtTheResetVector : Prop :=
  ∀ s : State, s.vectorsLegal →
    ∃ t, resetCall s = .next t ∧ Enters .reset s.pc s t ∧ NoAccess s t ∧ t.cpsr.m = 0x13#5 ∧ t.cpsr.t = false ∧
      t.cpsr.i = true ∧ t.cpsr.f = true ∧ s.vectorBase = some t.pc

/-- The state after reset is that of `new(ARMv5, bus)` on an empty bus and `reset()`: no line, no coprocessor, clock
0, Supervisor mode in ARM state with both masks set, pc 0, and the first step hands off to the ARM decoder (R42, R260,
R261, R262, R266: D21, D22, D24). ARMv5 is the model's choice (log 1), and so are the empty bus (logs 3 and 4) and
that the handoff is a fault (log 9); the unspecified registers' values are log 2's and none of them is stated. -/
def Obligations.TheStateAfterReset : Prop :=
  (∃ p, newCpu 5 {} { arch := .armv5 } = .next p ∧ resetCall p = .next State.reset) ∧ State.reset.pc = 0#32 ∧
    State.reset.cpsr.m = 0x13#5 ∧ State.reset.cpsr.t = false ∧ State.reset.cpsr.i = true ∧
    State.reset.cpsr.f = true ∧ State.reset.clock = 0 ∧
    State.reset.lines = { fiq := false, irq := false, halt := false } ∧
    (∀ i : Fin 16, State.reset.coproc[i.val] = none) ∧ step State.reset = .fault .handoff

/-- The host's calls: `new` builds an instance of the architecture asked for on the bus it is given, with the lines
deasserted, the slots empty and the clock 0 (of the registers, which the spec leaves unspecified, nothing is said);
`set_pc` and `set_line` change what they name and nothing else; `map_coprocessor` and `enable_cp15` fill one slot and
nothing else, `enable_cp15` returns the handle it put in slot 15, and the next entry takes its vector base from there;
the programmer errors are refused: an unknown architecture, a slot outside 0..15, the SPSR of User or System (R33,
R34, R229, R245, R260, R263, R268: D21, D23, D43). WriteCPSR of a mode field outside the seven values is refused as
InvalidMode (R233: D20). That the calls are functions between steps, that `new` takes a version number and R8's other
parameters, and what a bus handle is are log 17; that a coprocessor handle is its answer is log 15. A write by another
bus agent between steps puts its bytes in memory, makes their addresses written ones and changes nothing else (R66,
R68: D6, D7; logs 8 and 14). -/
def Obligations.TheHostCalls : Prop :=
  (∀ (s : State) (a : Word), setPc a s = { s with pc := a }) ∧
  (∀ (s : State) (l : Line) (b : Bool), ∃ lines, setLine l b s = { s with lines := lines } ∧
    lines.fiq = (if l = .fiq then b else s.lines.fiq) ∧ lines.irq = (if l = .irq then b else s.lines.irq) ∧
    lines.halt = (if l = .halt then b else s.lines.halt)) ∧
  (∀ (s : State) (i : Nat) (h : Coproc), (16 ≤ i → mapCoprocessor i h s = .refused .badSlot) ∧
    (i < 16 → ∃ t, mapCoprocessor i h s = .next t ∧ t = { s with coproc := t.coproc } ∧
      ∀ j : Fin 16, t.coproc[j.val] = if j.val = i then some h else s.coproc[j.val])) ∧
  (∀ (s : State) (v : Word), (enableCp15 v s).1.exceptionVector = v ∧
    ∃ coproc, (enableCp15 v s).2 = { s with coproc := coproc } ∧
      ∀ j : Fin 16, coproc[j.val] = if j.val = 15 then some (enableCp15 v s).1 else s.coproc[j.val]) ∧
  (∀ (s : State) (v p : Word), v = 0x00000000#32 ∨ v = 0xFFFF0000#32 →
    ∃ t, enter .swi p (enableCp15 v s).2 = .next t ∧ t.pc = v + 8#32) ∧
  (∀ (n : Nat) (b : BusHandle) (c : Config) (arch : Arch), (n = 4 ∧ arch = .armv4) ∨ (n = 5 ∧ arch = .armv5) →
    ∃ t, newCpu n b c = .next t ∧ t.cfg = { c with arch := arch } ∧ t.mem = b.mem ∧ t.bus = b.answers ∧
      t.stored = b.written ∧ t.lines = { fiq := false, irq := false, halt := false } ∧ t.clock = 0 ∧
      ∀ j : Fin 16, t.coproc[j.val] = none) ∧
  (∀ (n : Nat) (b : BusHandle) (c : Config), n ≠ 4 → n ≠ 5 → newCpu n b c = .refused .badArch) ∧
  (∀ (s : State) (w : Width) (a v : Word), HoldsBytes (otherAgentWrites w a v s) a w.bytes v ∧
    SameMemoryOutside a w.bytes s (otherAgentWrites w a v s) ∧ WritesJoin a w.bytes s (otherAgentWrites w a v s) ∧
    ∃ mem stored, otherAgentWrites w a v s = { s with mem := mem, stored := stored } ∧
      (Memory.wf s.mem = true → Memory.wf mem = true)) ∧
  (∀ s : State, spsrFor Mode.user.bits s = .error .modeFault ∧ spsrFor Mode.system.bits s = .error .modeFault) ∧
  (∀ (s : State) (w : Word), Mode.ofBits (w.extractLsb' 0 5) = none → writeCpsr w s = .refused .invalidMode)

/-! ### The step -/

/-- The poll: an unmasked FIQ first, then an unmasked IRQ, each entered with the link N + 4 in either state and no cycle;
then HALT's idle cycle; a masked line stays asserted (R223, R224, R226, R227, R232, R242: D2, D25). The premise that the
pc is aligned leaves out what log 13 decides. -/
def Obligations.ThePollTakesFiqThenIrqThenHalt : Prop :=
  ∀ s : State, s.modeLegal → s.pcAligned → s.vectorsLegal →
    (s.lines.fiq = true → s.cpsr.f = false →
      ∃ t, step s = .next t ∧ Enters .fiq (s.pc + 4#32) s t ∧ t.clock = s.clock ∧ t.stored = s.stored) ∧
    ((s.lines.fiq = true → s.cpsr.f = true) → s.lines.irq = true → s.cpsr.i = false →
      ∃ t, step s = .next t ∧ Enters .irq (s.pc + 4#32) s t ∧ t.clock = s.clock ∧ t.stored = s.stored) ∧
    ((s.lines.fiq = true → s.cpsr.f = true) → (s.lines.irq = true → s.cpsr.i = true) → s.lines.halt = true →
      step s = .next { s with clock := s.clock + 1 })

/-- What stops a step: a mode field outside the seven values is refused before anything else; with nothing to take at
the poll, T = 0 hands off (R40, R266, R267: D20, D24; that the handoff is a fault is log 9). -/
def Obligations.WhatStopsAStep : Prop :=
  ∀ s : State, (¬ s.modeLegal → step s = .refused .invalidMode) ∧
    (s.modeLegal → (s.lines.fiq = true → s.cpsr.f = true) → (s.lines.irq = true → s.cpsr.i = true) →
      s.lines.halt = false → s.cpsr.t = false → step s = .fault .handoff)

/-- A step runs the decoded instruction: with nothing to take at the poll, Thumb state and a fetch that does not abort,
the step is exec of an instruction in the state with pc at A + 2, A being pc with bit 0 cleared, the fetch's answer taken,
and the clock advanced by the fetch and the instruction (R71, R267, R272: D1, D18, D31; that the instruction's own cycle
stands in the clock before exec is log 19). Where stores are seen, or A and A + 1 have not been written, the instruction is
the one the two bytes decode to, with memory answering, or the one the low halfword of the platform's own answer decodes
to (R52, R61, R68). Under `fetch_sees_stores = false` a fetch from a written address is a free draw: the step runs what some
word decodes to, of which nothing is said, and one more value is drawn (R68: D7; that the draw is taken also where the
platform answers is the model's reading, log 8). -/
def Obligations.AStepRunsTheDecodedInstruction : Prop :=
  ∀ (s : State), s.modeLegal → (s.lines.fiq = true → s.cpsr.f = true) → (s.lines.irq = true → s.cpsr.i = true) →
    s.lines.halt = false → s.cpsr.t = true → s.nextAborts = false →
    let a := s.pc &&& 0xFFFFFFFE#32
    let fetched := { s with pc := a + 2#32, clock := s.clock + 1 + (s.nextAnswer.waits + 1), bus := s.bus.tail }
    let written := a.toNat ∈ s.stored ∨ (a + 1#32).toNat ∈ s.stored
    (s.cfg.fetchSeesStores = true ∨ ¬ written →
      (∀ i : Instr, s.nextAnswer.data = none →
        decodeBytes [Memory.byte s.mem a, Memory.byte s.mem (a + 1#32)] = .ok (i, []) → step s = exec i fetched) ∧
      (∀ d : Word, s.nextAnswer.data = some d → step s = exec (decode (d.extractLsb' 0 16)) fetched)) ∧
    (s.cfg.fetchSeesStores = false → written →
      ∃ op : Half, step s = exec (decode op) { fetched with draws := s.draws + 1 })

/-- An aborted fetch decodes nothing and takes PrefetchAbort with the link A + 4 (R243: D5). -/
def Obligations.AnAbortedFetchEntersPrefetchAbort : Prop :=
  ∀ (s : State), s.modeLegal → (s.lines.fiq = true → s.cpsr.f = true) → (s.lines.irq = true → s.cpsr.i = true) →
    s.lines.halt = false → s.cpsr.t = true → s.nextAborts = true → s.vectorsLegal →
    ∃ t, step s = .next t ∧ Enters .prefetchAbort ((s.pc &&& 0xFFFFFFFE#32) + 4#32) s t

/-! ### The whole machine -/

/-- Every step keeps the invariant: a legal mode, a pc aligned to the state it is in (R28, R32), and memory in its
canonical form, which is the model's own (log 3). -/
def Obligations.EveryStepKeepsTheInvariant : Prop :=
  ∀ s t : State, s.Inv → step s = .next t → t.Inv

/-- The state after reset meets the invariant of EveryStepKeepsTheInvariant: the mode and the pc are R42's, the memory
is the model's empty list (log 3). -/
def Obligations.TheInvariantHoldsAfterReset : Prop := State.reset.Inv

/-- No step writes the coprocessor slots, `line.FIQ` or `line.IRQ`, nor the parameters of R8, which the model keeps in
State (log 1); HALT is only ever cleared, and only by an exception entry, whose status, SPSR and vector the step then
leaves; the clock never runs back (R30, R33, R34, R35, R225, R230). -/
def Obligations.WhatNoStepWrites : Prop :=
  ∀ s t : State, step s = .next t →
    t.cfg = s.cfg ∧ t.coproc = s.coproc ∧ t.lines.fiq = s.lines.fiq ∧ t.lines.irq = s.lines.irq ∧
      (t.lines.halt = s.lines.halt ∨ (t.lines.halt = false ∧ EnteredFrom s t)) ∧ s.clock ≤ t.clock

/-- The mode, the masks I and F, bits 27:8 and the SPSRs change only by an exception entry, which leaves the status
before in the target's SPSR, clears T, sets I and goes to a vector; no instruction leaves User mode another way
(R29, R30, R225, R233, R236, R237). -/
def Obligations.OnlyAnEntryChangesTheModeTheMasksAndTheSpsrs : Prop :=
  ∀ s t : State, step s = .next t → (SameMasksAndMode s t ∧ t.spsr = s.spsr) ∨ EnteredFrom s t

/-- A step writes no register cell that the current mode cannot name, but for the R14 of the mode an exception enters
(R21, R225, R234). -/
def Obligations.OtherModesRegistersAreOutOfReach : Prop :=
  ∀ (s t : State) (c : Cell), s.modeLegal → step s = .next t → t.cell c ≠ s.cell c →
    (∃ i : Fin 15, c = phys s.cpsr.m i) ∨ (t.cpsr.t = false ∧ c = .lr (bankOf t.cpsr.m))
end

