-- ==== Sys2Proof/Laws/Memory.lean ====
section
/-! SUPPORT. Memory: what a byte reads as after a write, and that every write keeps the canonical form
(20_memory.md R52; log 3). What a byte reads as after a write holds of every list, canonical or not. -/

namespace Sys2Proof.Machine

theorem Memory.find_insert (m : List Host.Cell) (a x : Nat) (v : Byte) :
    Memory.find (Memory.insert m a v) x = if x = a then some v else Memory.find m x := by
  induction m with
  | nil => simp only [Memory.insert, Memory.find]; grind
  | cons c rest ih =>
    obtain ⟨k, b⟩ := c
    unfold Memory.insert
    split
    · simp only [Memory.find]; grind
    · split
      · simp only [Memory.find]; grind
      · simp only [Memory.find, ih]; grind

theorem Memory.find_erase (m : List Host.Cell) (a x : Nat) :
    Memory.find (Memory.erase m a) x = if x = a then none else Memory.find m x := by
  induction m with
  | nil => simp [Memory.erase, Memory.find]
  | cons c rest ih =>
    obtain ⟨k, b⟩ := c
    unfold Memory.erase
    split
    · simp only [ih, Memory.find]; grind
    · simp only [Memory.find, ih]; grind

/-- A byte read after a byte write. -/
theorem Memory.byte_setByte (m : List Host.Cell) (a x : Word) (v : Byte) :
    Memory.byte (Memory.setByte m a v) x = if x = a then v else Memory.byte m x := by
  have hx : x.toNat = a.toNat ↔ x = a := BitVec.toNat_inj
  unfold Memory.setByte Memory.byte
  split
  · rw [Memory.find_erase]; grind
  · rw [Memory.find_insert]; grind

theorem Memory.wfFrom_mono (m : List Host.Cell) (lo lo' : Nat) (h : Memory.wfFrom lo m = true) (hl : lo' ≤ lo) :
    Memory.wfFrom lo' m = true := by
  cases m with
  | nil => rfl
  | cons c rest =>
    obtain ⟨k, b⟩ := c
    simp only [Memory.wfFrom, Bool.and_eq_true, decide_eq_true_eq] at h ⊢
    exact ⟨⟨⟨by omega, h.1.1.2⟩, h.1.2⟩, h.2⟩

theorem Memory.wfFrom_insert (m : List Host.Cell) (a lo : Nat) (v : Byte) (h : Memory.wfFrom lo m = true) (ha : lo ≤ a)
    (hb : a < 2 ^ 32) (hv : v ≠ Memory.unlisted) : Memory.wfFrom lo (Memory.insert m a v) = true := by
  induction m generalizing lo with
  | nil =>
    simp only [Memory.insert, Memory.wfFrom, Bool.and_eq_true, decide_eq_true_eq]
    exact ⟨⟨⟨ha, hb⟩, hv⟩, trivial⟩
  | cons c rest ih =>
    obtain ⟨k, b⟩ := c
    simp only [Memory.wfFrom, Bool.and_eq_true, decide_eq_true_eq] at h
    unfold Memory.insert
    split
    · simp only [Memory.wfFrom, Bool.and_eq_true, decide_eq_true_eq]
      exact ⟨⟨⟨ha, hb⟩, hv⟩, ⟨⟨by omega, h.1.1.2⟩, h.1.2⟩, h.2⟩
    · split
      · simp only [Memory.wfFrom, Bool.and_eq_true, decide_eq_true_eq]
        exact ⟨⟨⟨ha, hb⟩, hv⟩, Memory.wfFrom_mono _ _ _ h.2 (by omega)⟩
      · simp only [Memory.wfFrom, Bool.and_eq_true, decide_eq_true_eq]
        exact ⟨h.1, ih (k + 1) h.2 (by omega)⟩

theorem Memory.wfFrom_erase (m : List Host.Cell) (a lo : Nat) (h : Memory.wfFrom lo m = true) :
    Memory.wfFrom lo (Memory.erase m a) = true := by
  induction m generalizing lo with
  | nil => rfl
  | cons c rest ih =>
    obtain ⟨k, b⟩ := c
    simp only [Memory.wfFrom, Bool.and_eq_true, decide_eq_true_eq] at h
    unfold Memory.erase
    split
    · exact Memory.wfFrom_mono _ _ _ (ih (k + 1) h.2) (by omega)
    · simp only [Memory.wfFrom, Bool.and_eq_true, decide_eq_true_eq]
      exact ⟨h.1, ih (k + 1) h.2⟩

/-- Every byte write keeps the canonical form. -/
theorem Memory.wf_setByte (m : List Host.Cell) (a : Word) (v : Byte) (h : Memory.wf m = true) :
    Memory.wf (Memory.setByte m a v) = true := by
  unfold Memory.setByte
  split
  · exact Memory.wfFrom_erase m _ 0 h
  · exact Memory.wfFrom_insert m _ 0 v h (Nat.zero_le _) a.isLt ‹_›

/-- Every write keeps the canonical form. -/
theorem Memory.wf_write (m : List Host.Cell) (w : Width) (a v : Word) (h : Memory.wf m = true) :
    Memory.wf (Memory.write m w a v) = true := by
  cases w <;> simp only [Memory.write] <;> repeat (first | assumption | apply Memory.wf_setByte)

/-- Two canonical memories that read alike are equal: the canonical form is one for each contents. -/
theorem Memory.wfFrom_ext (m m' : List Host.Cell) (lo lo' : Nat) (h : Memory.wfFrom lo m = true)
    (h' : Memory.wfFrom lo' m' = true) (heq : ∀ x, Memory.find m x = Memory.find m' x) : m = m' := by
  have below : ∀ (l : List Host.Cell) (k x : Nat), Memory.wfFrom k l = true → x < k → Memory.find l x = none := by
    intro l
    induction l with
    | nil => intros; rfl
    | cons c rest ih =>
      intro k x hl hx
      obtain ⟨j, b⟩ := c
      simp only [Memory.wfFrom, Bool.and_eq_true, decide_eq_true_eq] at hl
      simp only [Memory.find]
      rw [if_neg (by omega)]
      exact ih (j + 1) x hl.2 (by omega)
  induction m generalizing m' lo lo' with
  | nil =>
    cases m' with
    | nil => rfl
    | cons c rest => have := heq c.1; simp [Memory.find] at this
  | cons c rest ih =>
    obtain ⟨k, b⟩ := c
    simp only [Memory.wfFrom, Bool.and_eq_true, decide_eq_true_eq] at h
    cases m' with
    | nil => have := heq k; simp [Memory.find] at this
    | cons c' rest' =>
      obtain ⟨k', b'⟩ := c'
      simp only [Memory.wfFrom, Bool.and_eq_true, decide_eq_true_eq] at h'
      have hk : k = k' := by
        rcases Nat.lt_trichotomy k k' with hlt | rfl | hlt
        · have := heq k
          simp only [Memory.find, if_pos, below rest' (k' + 1) k h'.2 (by omega)] at this
          rw [if_neg (by omega)] at this
          exact absurd this (by simp)
        · rfl
        · have := heq k'
          simp only [Memory.find, if_pos, below rest (k + 1) k' h.2 (by omega)] at this
          rw [if_neg (by omega)] at this
          exact absurd this (by simp)
      subst hk
      have hb : b = b' := by simpa [Memory.find] using heq k
      subst hb
      congr 1
      refine ih rest' (k + 1) (k + 1) h.2 h'.2 fun x => ?_
      by_cases hx : k = x
      · subst hx
        rw [below rest (k + 1) k h.2 (by omega), below rest' (k + 1) k h'.2 (by omega)]
      · simpa [Memory.find, hx] using heq x

/-- A byte of what a read finds. -/
theorem Memory.read_word_byte (m : List Host.Cell) (a : Word) (k : Nat) (hk : k < 4) :
    (Memory.read m .word a).extractLsb' (8 * k) 8 = Memory.byte m (a + BitVec.ofNat 32 k) := by
  have h : k = 0 ∨ k = 1 ∨ k = 2 ∨ k = 3 := by omega
  rcases h with rfl | rfl | rfl | rfl <;> ext i hi <;> simp [Memory.read] <;> grind

/-- The written addresses after one more. -/
theorem AddrSet.mem_insert (l : List Nat) (a x : Nat) : x ∈ AddrSet.insert l a ↔ x ∈ l ∨ x = a := by
  induction l with
  | nil => simp [AddrSet.insert]
  | cons k rest ih => unfold AddrSet.insert; grind

/-- The written addresses after the bytes of one access. -/
theorem AddrSet.mem_insertRange (l : List Nat) (a : Word) (n x : Nat) :
    x ∈ AddrSet.insertRange l a n ↔ x ∈ l ∨ ∃ k, k < n ∧ x = (a + BitVec.ofNat 32 k).toNat := by
  induction n with
  | zero => simp [AddrSet.insertRange]
  | succ n ih => rw [AddrSet.insertRange, AddrSet.mem_insert, ih]; grind

end Sys2Proof.Machine
end

