-- ==== Sys2Proof/Laws/State.lean ====
section
/-! SUPPORT. What each update of the state writes and what it leaves: one lemma per field per update, true by rfl, so
that no proof unfolds a record update. The file opens with the register file (10_state.md R20, R21). -/

namespace Sys2Proof.Machine

/-! ### The register file -/

theorem Bank.index_inj (a b : Bank) : a.index = b.index ↔ a = b := by cases a <;> cases b <;> decide

/-- A cell read after a cell write. -/
theorem Regs.get_set (r : Regs) (c d : Cell) (v : Word) : (r.set c v).get d = if d = c then v else r.get d := by
  cases c <;> cases d <;>
    simp [Regs.get, Regs.set, Vector.getElem_set, Fin.val_inj, Bank.index_inj, eq_comm]

/-- A cell of the machine is the register file's. -/
theorem State.cell_eq (s : State) (c : Cell) : s.cell c = s.regs.get c := rfl

/-! ### Fields -/


/-! `State.setCell` -/

@[simp] theorem State.setCell_cfg (s : State) (c : Cell) (v : Word) : (s.setCell c v).cfg = s.cfg := rfl
@[simp] theorem State.setCell_regs (s : State) (c : Cell) (v : Word) : (s.setCell c v).regs = s.regs.set c v := rfl
@[simp] theorem State.setCell_pc (s : State) (c : Cell) (v : Word) : (s.setCell c v).pc = s.pc := rfl
@[simp] theorem State.setCell_cpsr (s : State) (c : Cell) (v : Word) : (s.setCell c v).cpsr = s.cpsr := rfl
@[simp] theorem State.setCell_spsr (s : State) (c : Cell) (v : Word) : (s.setCell c v).spsr = s.spsr := rfl
@[simp] theorem State.setCell_lines (s : State) (c : Cell) (v : Word) : (s.setCell c v).lines = s.lines := rfl
@[simp] theorem State.setCell_coproc (s : State) (c : Cell) (v : Word) : (s.setCell c v).coproc = s.coproc := rfl
@[simp] theorem State.setCell_clock (s : State) (c : Cell) (v : Word) : (s.setCell c v).clock = s.clock := rfl
@[simp] theorem State.setCell_mem (s : State) (c : Cell) (v : Word) : (s.setCell c v).mem = s.mem := rfl
@[simp] theorem State.setCell_bus (s : State) (c : Cell) (v : Word) : (s.setCell c v).bus = s.bus := rfl
@[simp] theorem State.setCell_draws (s : State) (c : Cell) (v : Word) : (s.setCell c v).draws = s.draws := rfl
@[simp] theorem State.setCell_stored (s : State) (c : Cell) (v : Word) : (s.setCell c v).stored = s.stored := rfl

/-! `State.setLow` -/

@[simp] theorem State.setLow_cfg (s : State) (r : Fin 8) (v : Word) : (s.setLow r v).cfg = s.cfg := rfl
@[simp] theorem State.setLow_regs (s : State) (r : Fin 8) (v : Word) :
    (s.setLow r v).regs = s.regs.set (.low r) v := rfl
@[simp] theorem State.setLow_pc (s : State) (r : Fin 8) (v : Word) : (s.setLow r v).pc = s.pc := rfl
@[simp] theorem State.setLow_cpsr (s : State) (r : Fin 8) (v : Word) : (s.setLow r v).cpsr = s.cpsr := rfl
@[simp] theorem State.setLow_spsr (s : State) (r : Fin 8) (v : Word) : (s.setLow r v).spsr = s.spsr := rfl
@[simp] theorem State.setLow_lines (s : State) (r : Fin 8) (v : Word) : (s.setLow r v).lines = s.lines := rfl
@[simp] theorem State.setLow_coproc (s : State) (r : Fin 8) (v : Word) : (s.setLow r v).coproc = s.coproc := rfl
@[simp] theorem State.setLow_clock (s : State) (r : Fin 8) (v : Word) : (s.setLow r v).clock = s.clock := rfl
@[simp] theorem State.setLow_mem (s : State) (r : Fin 8) (v : Word) : (s.setLow r v).mem = s.mem := rfl
@[simp] theorem State.setLow_bus (s : State) (r : Fin 8) (v : Word) : (s.setLow r v).bus = s.bus := rfl
@[simp] theorem State.setLow_draws (s : State) (r : Fin 8) (v : Word) : (s.setLow r v).draws = s.draws := rfl
@[simp] theorem State.setLow_stored (s : State) (r : Fin 8) (v : Word) : (s.setLow r v).stored = s.stored := rfl

/-! `State.setSp` -/

@[simp] theorem State.setSp_cfg (s : State) (v : Word) : (s.setSp v).cfg = s.cfg := rfl
@[simp] theorem State.setSp_regs (s : State) (v : Word) :
    (s.setSp v).regs = s.regs.set (.sp (bankOf s.cpsr.m)) v := rfl
@[simp] theorem State.setSp_pc (s : State) (v : Word) : (s.setSp v).pc = s.pc := rfl
@[simp] theorem State.setSp_cpsr (s : State) (v : Word) : (s.setSp v).cpsr = s.cpsr := rfl
@[simp] theorem State.setSp_spsr (s : State) (v : Word) : (s.setSp v).spsr = s.spsr := rfl
@[simp] theorem State.setSp_lines (s : State) (v : Word) : (s.setSp v).lines = s.lines := rfl
@[simp] theorem State.setSp_coproc (s : State) (v : Word) : (s.setSp v).coproc = s.coproc := rfl
@[simp] theorem State.setSp_clock (s : State) (v : Word) : (s.setSp v).clock = s.clock := rfl
@[simp] theorem State.setSp_mem (s : State) (v : Word) : (s.setSp v).mem = s.mem := rfl
@[simp] theorem State.setSp_bus (s : State) (v : Word) : (s.setSp v).bus = s.bus := rfl
@[simp] theorem State.setSp_draws (s : State) (v : Word) : (s.setSp v).draws = s.draws := rfl
@[simp] theorem State.setSp_stored (s : State) (v : Word) : (s.setSp v).stored = s.stored := rfl

/-! `State.setLr` -/

@[simp] theorem State.setLr_cfg (s : State) (v : Word) : (s.setLr v).cfg = s.cfg := rfl
@[simp] theorem State.setLr_regs (s : State) (v : Word) :
    (s.setLr v).regs = s.regs.set (.lr (bankOf s.cpsr.m)) v := rfl
@[simp] theorem State.setLr_pc (s : State) (v : Word) : (s.setLr v).pc = s.pc := rfl
@[simp] theorem State.setLr_cpsr (s : State) (v : Word) : (s.setLr v).cpsr = s.cpsr := rfl
@[simp] theorem State.setLr_spsr (s : State) (v : Word) : (s.setLr v).spsr = s.spsr := rfl
@[simp] theorem State.setLr_lines (s : State) (v : Word) : (s.setLr v).lines = s.lines := rfl
@[simp] theorem State.setLr_coproc (s : State) (v : Word) : (s.setLr v).coproc = s.coproc := rfl
@[simp] theorem State.setLr_clock (s : State) (v : Word) : (s.setLr v).clock = s.clock := rfl
@[simp] theorem State.setLr_mem (s : State) (v : Word) : (s.setLr v).mem = s.mem := rfl
@[simp] theorem State.setLr_bus (s : State) (v : Word) : (s.setLr v).bus = s.bus := rfl
@[simp] theorem State.setLr_draws (s : State) (v : Word) : (s.setLr v).draws = s.draws := rfl
@[simp] theorem State.setLr_stored (s : State) (v : Word) : (s.setLr v).stored = s.stored := rfl

/-! `State.jumpThumb` -/

@[simp] theorem State.jumpThumb_cfg (s : State) (a : Word) : (s.jumpThumb a).cfg = s.cfg := rfl
@[simp] theorem State.jumpThumb_regs (s : State) (a : Word) : (s.jumpThumb a).regs = s.regs := rfl
@[simp] theorem State.jumpThumb_pc (s : State) (a : Word) : (s.jumpThumb a).pc = a &&& ~~~(1#32) := rfl
@[simp] theorem State.jumpThumb_cpsr (s : State) (a : Word) : (s.jumpThumb a).cpsr = s.cpsr := rfl
@[simp] theorem State.jumpThumb_spsr (s : State) (a : Word) : (s.jumpThumb a).spsr = s.spsr := rfl
@[simp] theorem State.jumpThumb_lines (s : State) (a : Word) : (s.jumpThumb a).lines = s.lines := rfl
@[simp] theorem State.jumpThumb_coproc (s : State) (a : Word) : (s.jumpThumb a).coproc = s.coproc := rfl
@[simp] theorem State.jumpThumb_clock (s : State) (a : Word) : (s.jumpThumb a).clock = s.clock := rfl
@[simp] theorem State.jumpThumb_mem (s : State) (a : Word) : (s.jumpThumb a).mem = s.mem := rfl
@[simp] theorem State.jumpThumb_bus (s : State) (a : Word) : (s.jumpThumb a).bus = s.bus := rfl
@[simp] theorem State.jumpThumb_draws (s : State) (a : Word) : (s.jumpThumb a).draws = s.draws := rfl
@[simp] theorem State.jumpThumb_stored (s : State) (a : Word) : (s.jumpThumb a).stored = s.stored := rfl

/-! `State.jumpArm` -/

@[simp] theorem State.jumpArm_cfg (s : State) (a : Word) : (s.jumpArm a).cfg = s.cfg := rfl
@[simp] theorem State.jumpArm_regs (s : State) (a : Word) : (s.jumpArm a).regs = s.regs := rfl
@[simp] theorem State.jumpArm_pc (s : State) (a : Word) : (s.jumpArm a).pc = a &&& ~~~(3#32) := rfl
@[simp] theorem State.jumpArm_cpsr (s : State) (a : Word) : (s.jumpArm a).cpsr = { s.cpsr with t := false } := rfl
@[simp] theorem State.jumpArm_spsr (s : State) (a : Word) : (s.jumpArm a).spsr = s.spsr := rfl
@[simp] theorem State.jumpArm_lines (s : State) (a : Word) : (s.jumpArm a).lines = s.lines := rfl
@[simp] theorem State.jumpArm_coproc (s : State) (a : Word) : (s.jumpArm a).coproc = s.coproc := rfl
@[simp] theorem State.jumpArm_clock (s : State) (a : Word) : (s.jumpArm a).clock = s.clock := rfl
@[simp] theorem State.jumpArm_mem (s : State) (a : Word) : (s.jumpArm a).mem = s.mem := rfl
@[simp] theorem State.jumpArm_bus (s : State) (a : Word) : (s.jumpArm a).bus = s.bus := rfl
@[simp] theorem State.jumpArm_draws (s : State) (a : Word) : (s.jumpArm a).draws = s.draws := rfl
@[simp] theorem State.jumpArm_stored (s : State) (a : Word) : (s.jumpArm a).stored = s.stored := rfl

/-! `State.drawn` -/

@[simp] theorem State.drawn_cfg (s : State) : s.drawn.cfg = s.cfg := rfl
@[simp] theorem State.drawn_regs (s : State) : s.drawn.regs = s.regs := rfl
@[simp] theorem State.drawn_pc (s : State) : s.drawn.pc = s.pc := rfl
@[simp] theorem State.drawn_cpsr (s : State) : s.drawn.cpsr = s.cpsr := rfl
@[simp] theorem State.drawn_spsr (s : State) : s.drawn.spsr = s.spsr := rfl
@[simp] theorem State.drawn_lines (s : State) : s.drawn.lines = s.lines := rfl
@[simp] theorem State.drawn_coproc (s : State) : s.drawn.coproc = s.coproc := rfl
@[simp] theorem State.drawn_clock (s : State) : s.drawn.clock = s.clock := rfl
@[simp] theorem State.drawn_mem (s : State) : s.drawn.mem = s.mem := rfl
@[simp] theorem State.drawn_bus (s : State) : s.drawn.bus = s.bus := rfl
@[simp] theorem State.drawn_draws (s : State) : s.drawn.draws = s.draws + 1 := rfl
@[simp] theorem State.drawn_stored (s : State) : s.drawn.stored = s.stored := rfl

/-! `State.storeBytes` -/

@[simp] theorem State.storeBytes_cfg (s : State) (w : Width) (a v : Word) : (s.storeBytes w a v).cfg = s.cfg := rfl
@[simp] theorem State.storeBytes_regs (s : State) (w : Width) (a v : Word) : (s.storeBytes w a v).regs = s.regs := rfl
@[simp] theorem State.storeBytes_pc (s : State) (w : Width) (a v : Word) : (s.storeBytes w a v).pc = s.pc := rfl
@[simp] theorem State.storeBytes_cpsr (s : State) (w : Width) (a v : Word) : (s.storeBytes w a v).cpsr = s.cpsr := rfl
@[simp] theorem State.storeBytes_spsr (s : State) (w : Width) (a v : Word) : (s.storeBytes w a v).spsr = s.spsr := rfl
@[simp] theorem State.storeBytes_lines (s : State) (w : Width) (a v : Word) :
    (s.storeBytes w a v).lines = s.lines := rfl
@[simp] theorem State.storeBytes_coproc (s : State) (w : Width) (a v : Word) :
    (s.storeBytes w a v).coproc = s.coproc := rfl
@[simp] theorem State.storeBytes_clock (s : State) (w : Width) (a v : Word) :
    (s.storeBytes w a v).clock = s.clock := rfl
@[simp] theorem State.storeBytes_mem (s : State) (w : Width) (a v : Word) :
    (s.storeBytes w a v).mem = Memory.write s.mem w a v := rfl
@[simp] theorem State.storeBytes_bus (s : State) (w : Width) (a v : Word) : (s.storeBytes w a v).bus = s.bus := rfl
@[simp] theorem State.storeBytes_draws (s : State) (w : Width) (a v : Word) :
    (s.storeBytes w a v).draws = s.draws := rfl
@[simp] theorem State.storeBytes_stored (s : State) (w : Width) (a v : Word) :
    (s.storeBytes w a v).stored = AddrSet.insertRange s.stored a w.bytes := rfl

/-! `State.shiftInto` -/

@[simp] theorem State.shiftInto_cfg (s : State) (r : Fin 8) (x : Word × Bool) : (s.shiftInto r x).cfg = s.cfg := rfl
@[simp] theorem State.shiftInto_regs (s : State) (r : Fin 8) (x : Word × Bool) :
    (s.shiftInto r x).regs = s.regs.set (.low r) x.1 := rfl
@[simp] theorem State.shiftInto_pc (s : State) (r : Fin 8) (x : Word × Bool) : (s.shiftInto r x).pc = s.pc := rfl
@[simp] theorem State.shiftInto_cpsr (s : State) (r : Fin 8) (x : Word × Bool) :
    (s.shiftInto r x).cpsr = (s.cpsr.setC x.2).setNZ x.1 := rfl
@[simp] theorem State.shiftInto_spsr (s : State) (r : Fin 8) (x : Word × Bool) :
    (s.shiftInto r x).spsr = s.spsr := rfl
@[simp] theorem State.shiftInto_lines (s : State) (r : Fin 8) (x : Word × Bool) :
    (s.shiftInto r x).lines = s.lines := rfl
@[simp] theorem State.shiftInto_coproc (s : State) (r : Fin 8) (x : Word × Bool) :
    (s.shiftInto r x).coproc = s.coproc := rfl
@[simp] theorem State.shiftInto_clock (s : State) (r : Fin 8) (x : Word × Bool) :
    (s.shiftInto r x).clock = s.clock := rfl
@[simp] theorem State.shiftInto_mem (s : State) (r : Fin 8) (x : Word × Bool) : (s.shiftInto r x).mem = s.mem := rfl
@[simp] theorem State.shiftInto_bus (s : State) (r : Fin 8) (x : Word × Bool) : (s.shiftInto r x).bus = s.bus := rfl
@[simp] theorem State.shiftInto_draws (s : State) (r : Fin 8) (x : Word × Bool) :
    (s.shiftInto r x).draws = s.draws := rfl
@[simp] theorem State.shiftInto_stored (s : State) (r : Fin 8) (x : Word × Bool) :
    (s.shiftInto r x).stored = s.stored := rfl

/-! `State.moveInto` -/

@[simp] theorem State.moveInto_cfg (s : State) (r : Fin 8) (v : Word) : (s.moveInto r v).cfg = s.cfg := rfl
@[simp] theorem State.moveInto_regs (s : State) (r : Fin 8) (v : Word) :
    (s.moveInto r v).regs = s.regs.set (.low r) v := rfl
@[simp] theorem State.moveInto_pc (s : State) (r : Fin 8) (v : Word) : (s.moveInto r v).pc = s.pc := rfl
@[simp] theorem State.moveInto_cpsr (s : State) (r : Fin 8) (v : Word) : (s.moveInto r v).cpsr = s.cpsr.setNZ v := rfl
@[simp] theorem State.moveInto_spsr (s : State) (r : Fin 8) (v : Word) : (s.moveInto r v).spsr = s.spsr := rfl
@[simp] theorem State.moveInto_lines (s : State) (r : Fin 8) (v : Word) : (s.moveInto r v).lines = s.lines := rfl
@[simp] theorem State.moveInto_coproc (s : State) (r : Fin 8) (v : Word) : (s.moveInto r v).coproc = s.coproc := rfl
@[simp] theorem State.moveInto_clock (s : State) (r : Fin 8) (v : Word) : (s.moveInto r v).clock = s.clock := rfl
@[simp] theorem State.moveInto_mem (s : State) (r : Fin 8) (v : Word) : (s.moveInto r v).mem = s.mem := rfl
@[simp] theorem State.moveInto_bus (s : State) (r : Fin 8) (v : Word) : (s.moveInto r v).bus = s.bus := rfl
@[simp] theorem State.moveInto_draws (s : State) (r : Fin 8) (v : Word) : (s.moveInto r v).draws = s.draws := rfl
@[simp] theorem State.moveInto_stored (s : State) (r : Fin 8) (v : Word) : (s.moveInto r v).stored = s.stored := rfl

/-! `State.testFlags` -/

@[simp] theorem State.testFlags_cfg (s : State) (v : Word) : (s.testFlags v).cfg = s.cfg := rfl
@[simp] theorem State.testFlags_regs (s : State) (v : Word) : (s.testFlags v).regs = s.regs := rfl
@[simp] theorem State.testFlags_pc (s : State) (v : Word) : (s.testFlags v).pc = s.pc := rfl
@[simp] theorem State.testFlags_cpsr (s : State) (v : Word) : (s.testFlags v).cpsr = s.cpsr.setNZ v := rfl
@[simp] theorem State.testFlags_spsr (s : State) (v : Word) : (s.testFlags v).spsr = s.spsr := rfl
@[simp] theorem State.testFlags_lines (s : State) (v : Word) : (s.testFlags v).lines = s.lines := rfl
@[simp] theorem State.testFlags_coproc (s : State) (v : Word) : (s.testFlags v).coproc = s.coproc := rfl
@[simp] theorem State.testFlags_clock (s : State) (v : Word) : (s.testFlags v).clock = s.clock := rfl
@[simp] theorem State.testFlags_mem (s : State) (v : Word) : (s.testFlags v).mem = s.mem := rfl
@[simp] theorem State.testFlags_bus (s : State) (v : Word) : (s.testFlags v).bus = s.bus := rfl
@[simp] theorem State.testFlags_draws (s : State) (v : Word) : (s.testFlags v).draws = s.draws := rfl
@[simp] theorem State.testFlags_stored (s : State) (v : Word) : (s.testFlags v).stored = s.stored := rfl

/-! `State.addTest` -/

@[simp] theorem State.addTest_cfg (s : State) (a b : Word) : (s.addTest a b).cfg = s.cfg := rfl
@[simp] theorem State.addTest_regs (s : State) (a b : Word) : (s.addTest a b).regs = s.regs := rfl
@[simp] theorem State.addTest_pc (s : State) (a b : Word) : (s.addTest a b).pc = s.pc := rfl
@[simp] theorem State.addTest_cpsr (s : State) (a b : Word) :
    (s.addTest a b).cpsr = (s.cpsr.addFlags a b (a + b)).setNZ (a + b) := rfl
@[simp] theorem State.addTest_spsr (s : State) (a b : Word) : (s.addTest a b).spsr = s.spsr := rfl
@[simp] theorem State.addTest_lines (s : State) (a b : Word) : (s.addTest a b).lines = s.lines := rfl
@[simp] theorem State.addTest_coproc (s : State) (a b : Word) : (s.addTest a b).coproc = s.coproc := rfl
@[simp] theorem State.addTest_clock (s : State) (a b : Word) : (s.addTest a b).clock = s.clock := rfl
@[simp] theorem State.addTest_mem (s : State) (a b : Word) : (s.addTest a b).mem = s.mem := rfl
@[simp] theorem State.addTest_bus (s : State) (a b : Word) : (s.addTest a b).bus = s.bus := rfl
@[simp] theorem State.addTest_draws (s : State) (a b : Word) : (s.addTest a b).draws = s.draws := rfl
@[simp] theorem State.addTest_stored (s : State) (a b : Word) : (s.addTest a b).stored = s.stored := rfl

/-! `State.subTest` -/

@[simp] theorem State.subTest_cfg (s : State) (a b : Word) : (s.subTest a b).cfg = s.cfg := rfl
@[simp] theorem State.subTest_regs (s : State) (a b : Word) : (s.subTest a b).regs = s.regs := rfl
@[simp] theorem State.subTest_pc (s : State) (a b : Word) : (s.subTest a b).pc = s.pc := rfl
@[simp] theorem State.subTest_cpsr (s : State) (a b : Word) :
    (s.subTest a b).cpsr = (s.cpsr.subFlags a b (a - b)).setNZ (a - b) := rfl
@[simp] theorem State.subTest_spsr (s : State) (a b : Word) : (s.subTest a b).spsr = s.spsr := rfl
@[simp] theorem State.subTest_lines (s : State) (a b : Word) : (s.subTest a b).lines = s.lines := rfl
@[simp] theorem State.subTest_coproc (s : State) (a b : Word) : (s.subTest a b).coproc = s.coproc := rfl
@[simp] theorem State.subTest_clock (s : State) (a b : Word) : (s.subTest a b).clock = s.clock := rfl
@[simp] theorem State.subTest_mem (s : State) (a b : Word) : (s.subTest a b).mem = s.mem := rfl
@[simp] theorem State.subTest_bus (s : State) (a b : Word) : (s.subTest a b).bus = s.bus := rfl
@[simp] theorem State.subTest_draws (s : State) (a b : Word) : (s.subTest a b).draws = s.draws := rfl
@[simp] theorem State.subTest_stored (s : State) (a b : Word) : (s.subTest a b).stored = s.stored := rfl

/-! `State.addInto` -/

@[simp] theorem State.addInto_cfg (s : State) (r : Fin 8) (a b : Word) : (s.addInto r a b).cfg = s.cfg := rfl
@[simp] theorem State.addInto_regs (s : State) (r : Fin 8) (a b : Word) :
    (s.addInto r a b).regs = s.regs.set (.low r) (a + b) := rfl
@[simp] theorem State.addInto_pc (s : State) (r : Fin 8) (a b : Word) : (s.addInto r a b).pc = s.pc := rfl
@[simp] theorem State.addInto_cpsr (s : State) (r : Fin 8) (a b : Word) :
    (s.addInto r a b).cpsr = (s.cpsr.addFlags a b (a + b)).setNZ (a + b) := rfl
@[simp] theorem State.addInto_spsr (s : State) (r : Fin 8) (a b : Word) : (s.addInto r a b).spsr = s.spsr := rfl
@[simp] theorem State.addInto_lines (s : State) (r : Fin 8) (a b : Word) : (s.addInto r a b).lines = s.lines := rfl
@[simp] theorem State.addInto_coproc (s : State) (r : Fin 8) (a b : Word) : (s.addInto r a b).coproc = s.coproc := rfl
@[simp] theorem State.addInto_clock (s : State) (r : Fin 8) (a b : Word) : (s.addInto r a b).clock = s.clock := rfl
@[simp] theorem State.addInto_mem (s : State) (r : Fin 8) (a b : Word) : (s.addInto r a b).mem = s.mem := rfl
@[simp] theorem State.addInto_bus (s : State) (r : Fin 8) (a b : Word) : (s.addInto r a b).bus = s.bus := rfl
@[simp] theorem State.addInto_draws (s : State) (r : Fin 8) (a b : Word) : (s.addInto r a b).draws = s.draws := rfl
@[simp] theorem State.addInto_stored (s : State) (r : Fin 8) (a b : Word) : (s.addInto r a b).stored = s.stored := rfl

/-! `State.subInto` -/

@[simp] theorem State.subInto_cfg (s : State) (r : Fin 8) (a b : Word) : (s.subInto r a b).cfg = s.cfg := rfl
@[simp] theorem State.subInto_regs (s : State) (r : Fin 8) (a b : Word) :
    (s.subInto r a b).regs = s.regs.set (.low r) (a - b) := rfl
@[simp] theorem State.subInto_pc (s : State) (r : Fin 8) (a b : Word) : (s.subInto r a b).pc = s.pc := rfl
@[simp] theorem State.subInto_cpsr (s : State) (r : Fin 8) (a b : Word) :
    (s.subInto r a b).cpsr = (s.cpsr.subFlags a b (a - b)).setNZ (a - b) := rfl
@[simp] theorem State.subInto_spsr (s : State) (r : Fin 8) (a b : Word) : (s.subInto r a b).spsr = s.spsr := rfl
@[simp] theorem State.subInto_lines (s : State) (r : Fin 8) (a b : Word) : (s.subInto r a b).lines = s.lines := rfl
@[simp] theorem State.subInto_coproc (s : State) (r : Fin 8) (a b : Word) : (s.subInto r a b).coproc = s.coproc := rfl
@[simp] theorem State.subInto_clock (s : State) (r : Fin 8) (a b : Word) : (s.subInto r a b).clock = s.clock := rfl
@[simp] theorem State.subInto_mem (s : State) (r : Fin 8) (a b : Word) : (s.subInto r a b).mem = s.mem := rfl
@[simp] theorem State.subInto_bus (s : State) (r : Fin 8) (a b : Word) : (s.subInto r a b).bus = s.bus := rfl
@[simp] theorem State.subInto_draws (s : State) (r : Fin 8) (a b : Word) : (s.subInto r a b).draws = s.draws := rfl
@[simp] theorem State.subInto_stored (s : State) (r : Fin 8) (a b : Word) : (s.subInto r a b).stored = s.stored := rfl

/-! `State.advanceBase` -/

@[simp] theorem State.advanceBase_cfg (s : State) (r : Fin 8) : (s.advanceBase r).cfg = s.cfg := rfl
@[simp] theorem State.advanceBase_regs (s : State) (r : Fin 8) :
    (s.advanceBase r).regs = s.regs.set (.low r) (s.low r + 0x40#32) := rfl
@[simp] theorem State.advanceBase_pc (s : State) (r : Fin 8) : (s.advanceBase r).pc = s.pc := rfl
@[simp] theorem State.advanceBase_cpsr (s : State) (r : Fin 8) : (s.advanceBase r).cpsr = s.cpsr := rfl
@[simp] theorem State.advanceBase_spsr (s : State) (r : Fin 8) : (s.advanceBase r).spsr = s.spsr := rfl
@[simp] theorem State.advanceBase_lines (s : State) (r : Fin 8) : (s.advanceBase r).lines = s.lines := rfl
@[simp] theorem State.advanceBase_coproc (s : State) (r : Fin 8) : (s.advanceBase r).coproc = s.coproc := rfl
@[simp] theorem State.advanceBase_clock (s : State) (r : Fin 8) : (s.advanceBase r).clock = s.clock := rfl
@[simp] theorem State.advanceBase_mem (s : State) (r : Fin 8) : (s.advanceBase r).mem = s.mem := rfl
@[simp] theorem State.advanceBase_bus (s : State) (r : Fin 8) : (s.advanceBase r).bus = s.bus := rfl
@[simp] theorem State.advanceBase_draws (s : State) (r : Fin 8) : (s.advanceBase r).draws = s.draws := rfl
@[simp] theorem State.advanceBase_stored (s : State) (r : Fin 8) : (s.advanceBase r).stored = s.stored := rfl

/-! `State.entered` -/

@[simp] theorem State.entered_cfg (s : State) (e : ExceptionKind) (l b : Word) : (s.entered e l b).cfg = s.cfg := rfl
@[simp] theorem State.entered_regs (s : State) (e : ExceptionKind) (l b : Word) :
    (s.entered e l b).regs = s.regs.set (.lr e.target.bank) l := rfl
@[simp] theorem State.entered_pc (s : State) (e : ExceptionKind) (l b : Word) :
    (s.entered e l b).pc = b + BitVec.ofNat 32 (4 * e.code) := rfl
@[simp] theorem State.entered_cpsr (s : State) (e : ExceptionKind) (l b : Word) :
    (s.entered e l b).cpsr = { s.cpsr with m := e.target.bits, t := false, i := true, f := s.cpsr.f || e.setsF } := rfl
@[simp] theorem State.entered_spsr (s : State) (e : ExceptionKind) (l b : Word) :
    (s.entered e l b).spsr = s.spsr.set e.target s.cpsr := rfl
@[simp] theorem State.entered_lines (s : State) (e : ExceptionKind) (l b : Word) :
    (s.entered e l b).lines = { s.lines with halt := false } := rfl
@[simp] theorem State.entered_coproc (s : State) (e : ExceptionKind) (l b : Word) :
    (s.entered e l b).coproc = s.coproc := rfl
@[simp] theorem State.entered_clock (s : State) (e : ExceptionKind) (l b : Word) :
    (s.entered e l b).clock = s.clock := rfl
@[simp] theorem State.entered_mem (s : State) (e : ExceptionKind) (l b : Word) : (s.entered e l b).mem = s.mem := rfl
@[simp] theorem State.entered_bus (s : State) (e : ExceptionKind) (l b : Word) : (s.entered e l b).bus = s.bus := rfl
@[simp] theorem State.entered_draws (s : State) (e : ExceptionKind) (l b : Word) :
    (s.entered e l b).draws = s.draws := rfl
@[simp] theorem State.entered_stored (s : State) (e : ExceptionKind) (l b : Word) :
    (s.entered e l b).stored = s.stored := rfl

/-! ### Cells -/

@[simp] theorem State.setCell_cell (s : State) (c d : Cell) (v : Word) :
    (s.setCell c v).cell d = if d = c then v else s.cell d := Regs.get_set ..
@[simp] theorem State.setLow_cell (s : State) (r : Fin 8) (d : Cell) (v : Word) :
    (s.setLow r v).cell d = if d = .low r then v else s.cell d := Regs.get_set ..
@[simp] theorem State.setSp_cell (s : State) (d : Cell) (v : Word) :
    (s.setSp v).cell d = if d = .sp (bankOf s.cpsr.m) then v else s.cell d := Regs.get_set ..
@[simp] theorem State.setLr_cell (s : State) (d : Cell) (v : Word) :
    (s.setLr v).cell d = if d = .lr (bankOf s.cpsr.m) then v else s.cell d := Regs.get_set ..
@[simp] theorem State.shiftInto_cell (s : State) (r : Fin 8) (d : Cell) (x : Word × Bool) :
    (s.shiftInto r x).cell d = if d = .low r then x.1 else s.cell d := Regs.get_set ..
@[simp] theorem State.moveInto_cell (s : State) (r : Fin 8) (d : Cell) (v : Word) :
    (s.moveInto r v).cell d = if d = .low r then v else s.cell d := Regs.get_set ..
@[simp] theorem State.addInto_cell (s : State) (r : Fin 8) (d : Cell) (a b : Word) :
    (s.addInto r a b).cell d = if d = .low r then a + b else s.cell d := Regs.get_set ..
@[simp] theorem State.subInto_cell (s : State) (r : Fin 8) (d : Cell) (a b : Word) :
    (s.subInto r a b).cell d = if d = .low r then a - b else s.cell d := Regs.get_set ..
@[simp] theorem State.advanceBase_cell (s : State) (r : Fin 8) (d : Cell) :
    (s.advanceBase r).cell d = if d = .low r then s.low r + 0x40#32 else s.cell d := Regs.get_set ..
@[simp] theorem State.entered_cell (s : State) (e : ExceptionKind) (l b : Word) (d : Cell) :
    (s.entered e l b).cell d = if d = .lr e.target.bank then l else s.cell d := Regs.get_set ..
@[simp] theorem State.jumpThumb_cell (s : State) (a : Word) (d : Cell) : (s.jumpThumb a).cell d = s.cell d := rfl
@[simp] theorem State.jumpArm_cell (s : State) (a : Word) (d : Cell) : (s.jumpArm a).cell d = s.cell d := rfl
@[simp] theorem State.drawn_cell (s : State) (d : Cell) : s.drawn.cell d = s.cell d := rfl
@[simp] theorem State.storeBytes_cell (s : State) (w : Width) (a v : Word) (d : Cell) : (s.storeBytes w a v).cell d = s.cell d := rfl
@[simp] theorem State.testFlags_cell (s : State) (v : Word) (d : Cell) : (s.testFlags v).cell d = s.cell d := rfl
@[simp] theorem State.addTest_cell (s : State) (a b : Word) (d : Cell) : (s.addTest a b).cell d = s.cell d := rfl
@[simp] theorem State.subTest_cell (s : State) (a b : Word) (d : Cell) : (s.subTest a b).cell d = s.cell d := rfl

/-! ### R0 to R7, SP and LR -/

@[simp] theorem State.low_setLow (s : State) (r k : Fin 8) (v : Word) :
    (s.setLow r v).low k = if k = r then v else s.low k := by simp [State.low]

@[simp] theorem State.low_setSp (s : State) (k : Fin 8) (v : Word) : (s.setSp v).low k = s.low k := by simp [State.low]

@[simp] theorem State.low_setLr (s : State) (k : Fin 8) (v : Word) : (s.setLr v).low k = s.low k := by simp [State.low]

@[simp] theorem State.sp_setSp (s : State) (v : Word) : (s.setSp v).sp = v := by simp [State.sp]

@[simp] theorem State.sp_setLow (s : State) (r : Fin 8) (v : Word) : (s.setLow r v).sp = s.sp := by simp [State.sp]

@[simp] theorem State.lr_setLr (s : State) (v : Word) : (s.setLr v).lr = v := by simp [State.lr]

@[simp] theorem State.lr_jumpThumb (s : State) (a : Word) : (s.jumpThumb a).lr = s.lr := rfl

@[simp] theorem State.lr_jumpArm (s : State) (a : Word) : (s.jumpArm a).lr = s.lr := rfl

/-! ### Status registers -/

@[simp] theorem Psr.setNZ_n (p : Psr) (v : Word) : (p.setNZ v).n = v.getLsbD 31 := rfl
@[simp] theorem Psr.setNZ_z (p : Psr) (v : Word) : (p.setNZ v).z = decide (v = 0#32) := rfl
@[simp] theorem Psr.setNZ_c (p : Psr) (v : Word) : (p.setNZ v).c = p.c := rfl
@[simp] theorem Psr.setNZ_v (p : Psr) (v : Word) : (p.setNZ v).v = p.v := rfl
@[simp] theorem Psr.setC_n (p : Psr) (c : Bool) : (p.setC c).n = p.n := rfl
@[simp] theorem Psr.setC_z (p : Psr) (c : Bool) : (p.setC c).z = p.z := rfl
@[simp] theorem Psr.setC_c (p : Psr) (c : Bool) : (p.setC c).c = c := rfl
@[simp] theorem Psr.setC_v (p : Psr) (c : Bool) : (p.setC c).v = p.v := rfl

/-- What every flag computation leaves: bits 27:8, I, F, T and the mode. -/
structure Psr.SameControl (p q : Psr) : Prop where
  reserved : q.reserved = p.reserved
  i : q.i = p.i
  f : q.f = p.f
  t : q.t = p.t
  m : q.m = p.m

theorem Psr.setNZ_control (p : Psr) (v : Word) : p.SameControl (p.setNZ v) := ⟨rfl, rfl, rfl, rfl, rfl⟩

theorem Psr.setC_control (p : Psr) (c : Bool) : p.SameControl (p.setC c) := ⟨rfl, rfl, rfl, rfl, rfl⟩

theorem Psr.addFlags_control (p : Psr) (a b r : Word) : p.SameControl (p.addFlags a b r) := ⟨rfl, rfl, rfl, rfl, rfl⟩

theorem Psr.subFlags_control (p : Psr) (a b r : Word) : p.SameControl (p.subFlags a b r) := ⟨rfl, rfl, rfl, rfl, rfl⟩

theorem Psr.adcFlags_control (p : Psr) (k : AdcSbcFlags) (a b r : Word) : p.SameControl (p.adcFlags k a b r) := by
  cases k <;> exact ⟨rfl, rfl, rfl, rfl, rfl⟩

theorem Psr.sbcFlags_control (p : Psr) (k : AdcSbcFlags) (a b r : Word) : p.SameControl (p.sbcFlags k a b r) := by
  cases k <;> exact ⟨rfl, rfl, rfl, rfl, rfl⟩

theorem Psr.SameControl.trans {p q r : Psr} (h : p.SameControl q) (h' : q.SameControl r) : p.SameControl r :=
  ⟨h'.reserved.trans h.reserved, h'.i.trans h.i, h'.f.trans h.f, h'.t.trans h.t, h'.m.trans h.m⟩

/-- The bits of a status register's word, from the mode field up. -/
theorem Psr.toWord_getLsbD (p : Psr) (k : Nat) : p.toWord.getLsbD k =
    if k < 5 then p.m.getLsbD k else if k = 5 then p.t else if k = 6 then p.f else if k = 7 then p.i
    else if k < 28 then p.reserved.getLsbD (k - 8) else if k = 28 then p.v else if k = 29 then p.c
    else if k = 30 then p.z else if k = 31 then p.n else false := by
  by_cases hk : 32 ≤ k
  · rw [BitVec.getLsbD_of_ge _ _ hk]
    grind
  unfold Psr.toWord
  show BitVec.getLsbD (w := 1 + 1 + 1 + 1 + 20 + 1 + 1 + 1 + 5) _ k = _
  simp only [BitVec.getLsbD_append, BitVec.getLsbD_ofBool]
  have h : k < 5 ∨ (8 ≤ k ∧ k < 28) ∨ k = 5 ∨ k = 6 ∨ k = 7 ∨ k = 28 ∨ k = 29 ∨ k = 30 ∨ k = 31 := by omega
  rcases h with h | h | rfl | rfl | rfl | rfl | rfl | rfl | rfl
  · simp [h]
  · grind
  all_goals rfl

/-- The fields of a status register's word are the status register's. -/
@[simp] theorem Psr.ofWord_toWord (p : Psr) : Psr.ofWord p.toWord = p := by
  obtain ⟨n, z, c, v, reserved, i, f, t, m⟩ := p
  simp only [Psr.ofWord, Psr.mk.injEq, Psr.toWord_getLsbD]
  refine ⟨by simp, by simp, by simp, by simp, ?_, by simp, by simp, by simp, ?_⟩
  · apply BitVec.eq_of_getLsbD_eq
    intro k hk
    simp only [BitVec.getLsbD_extractLsb', Psr.toWord_getLsbD]
    grind
  · apply BitVec.eq_of_getLsbD_eq
    intro k hk
    simp only [BitVec.getLsbD_extractLsb', Psr.toWord_getLsbD]
    grind

@[simp] theorem Spsrs.get_set (p : Spsrs) (a b : ExcMode) (v : Psr) :
    (p.set a v).get b = if b = a then v else p.get b := by cases a <;> cases b <;> rfl

end Sys2Proof.Machine
end

