-- ==== Sys2Proof/Laws/Step.lean ====
section
/-! SUPPORT. What a step can do, said once: an instruction either works on the current mode's registers, the flags,
memory and the pc (`Ordinary`), or takes an exception after quiet work (`Entered`); the statements about every step are
cut from `exec_cases` and `step_cases`. -/

namespace Sys2Proof.Machine

/-! ### The bus -/

theorem State.access_ok (s : State) (h : s.nextAborts = false) :
    s.access = .ok s.nextAnswer { s with bus := s.bus.tail, clock := s.clock + (s.nextAnswer.waits + 1) } := by
  simp [State.access, h]

theorem State.access_abort (s : State) (h : s.nextAborts = true) :
    s.access = .abort { s with bus := s.bus.tail, clock := s.clock + Config.freeCycles s.draws, draws := s.draws + 1 } := by
  simp [State.access, h]

theorem State.busRead_ok (s : State) (w : Width) (a : Word) (h : s.nextAborts = false) : s.busRead w a =
    .ok (s.readValue w a) { s with bus := s.bus.tail, clock := s.clock + (s.nextAnswer.waits + 1) } := by
  simp [State.busRead, s.access_ok h]

theorem State.busRead_abort (s : State) (w : Width) (a : Word) (h : s.nextAborts = true) : s.busRead w a =
    .abort { s with bus := s.bus.tail, clock := s.clock + Config.freeCycles s.draws, draws := s.draws + 1 } := by
  simp [State.busRead, s.access_abort h]

theorem State.busWrite_ok (s : State) (w : Width) (a v : Word) (h : s.nextAborts = false) : s.busWrite w a v =
    .ok () ({ s with bus := s.bus.tail, clock := s.clock + (s.nextAnswer.waits + 1) }.storeBytes w a v) := by
  simp [State.busWrite, s.access_ok h]

theorem State.busWrite_abort (s : State) (w : Width) (a v : Word) (h : s.nextAborts = true) : s.busWrite w a v =
    .abort { s with bus := s.bus.tail, clock := s.clock + Config.freeCycles s.draws, draws := s.draws + 1 } := by
  simp [State.busWrite, s.access_abort h]

/-! ### Taking an exception -/

/-- Everything an entry can answer. -/
theorem enter_cases {e : ExceptionKind} {p : Word} {s t : State} (h : enter e p s = .next t) :
    (s.masked e = true ∧ t = s) ∨
    ∃ base, s.masked e = false ∧ s.vectorBase = some base ∧ t = s.entered e (p + e.offset s.cfg s.cpsr.t) base := by
  unfold enter at h
  split at h
  · exact .inl ⟨‹_›, by cases h; rfl⟩
  · rename_i hm
    split at h
    · cases h
    · exact .inr ⟨_, by simpa using hm, ‹_›, by cases h; rfl⟩

/-- An entry with a legal vector base completes. -/
theorem enter_unmasked {e : ExceptionKind} (p : Word) {s : State} {base : Word} (hm : s.masked e = false)
    (hb : s.vectorBase = some base) : enter e p s = .next (s.entered e (p + e.offset s.cfg s.cpsr.t) base) := by
  simp [enter, hm, hb]

/-- The base is one of two values (60_exceptions.md R229). -/
theorem State.vectorBase_values {s : State} {base : Word} (h : s.vectorBase = some base) :
    base = 0x00000000#32 ∨ base = 0xFFFF0000#32 := by
  unfold State.vectorBase at h
  split at h
  · exact .inl (by simpa using h.symm)
  · split at h
    · cases h; assumption
    · cases h

/-! ### Quiet and ordinary work -/

/-- Work that leaves the pc, T and all that only an entry changes; it may write the current mode's registers, the flags
and memory, make accesses and draw free values. -/
structure Quiet (s t : State) : Prop where
  cfg    : t.cfg = s.cfg
  coproc : t.coproc = s.coproc
  spsr   : t.spsr = s.spsr
  lines  : t.lines = s.lines
  masks  : SameMasksAndMode s t
  thumb  : t.cpsr.t = s.cpsr.t
  pc     : t.pc = s.pc
  clock  : s.clock ≤ t.clock
  cells  : ∀ c, t.cell c ≠ s.cell c → ∃ i : Fin 15, c = phys s.cpsr.m i
  wf     : Memory.wf s.mem = true → Memory.wf t.mem = true

/-- Quiet work, and any jump: in Thumb state an aligned pc leads to one aligned for the state jumped to. -/
structure Ordinary (s t : State) : Prop where
  cfg    : t.cfg = s.cfg
  coproc : t.coproc = s.coproc
  spsr   : t.spsr = s.spsr
  lines  : t.lines = s.lines
  masks  : SameMasksAndMode s t
  clock  : s.clock ≤ t.clock
  cells  : ∀ c, t.cell c ≠ s.cell c → ∃ i : Fin 15, c = phys s.cpsr.m i
  wf     : Memory.wf s.mem = true → Memory.wf t.mem = true
  jump   : s.cpsr.t = true → s.pc.getLsbD 0 = false → t.pcAligned

/-- Quiet work that leaves the status register whole. -/
structure Steady (s t : State) : Prop extends Quiet s t where
  cpsr : t.cpsr = s.cpsr

theorem Quiet.refl (s : State) : Quiet s s :=
  ⟨rfl, rfl, rfl, rfl, ⟨rfl, rfl, rfl, rfl⟩, rfl, rfl, le_refl _, fun _ h => absurd rfl h, id⟩

theorem Quiet.trans {s t u : State} (h : Quiet s t) (h' : Quiet t u) : Quiet s u where
  cfg := h'.cfg.trans h.cfg
  coproc := h'.coproc.trans h.coproc
  spsr := h'.spsr.trans h.spsr
  lines := h'.lines.trans h.lines
  masks := ⟨h'.masks.1.trans h.masks.1, h'.masks.2.1.trans h.masks.2.1, h'.masks.2.2.1.trans h.masks.2.2.1,
    h'.masks.2.2.2.trans h.masks.2.2.2⟩
  thumb := h'.thumb.trans h.thumb
  pc := h'.pc.trans h.pc
  clock := h.clock.trans h'.clock
  cells := fun c hc => by
    by_cases hu : u.cell c = t.cell c
    · exact h.cells c (hu ▸ hc)
    · obtain ⟨i, hi⟩ := h'.cells c hu
      exact ⟨i, by rw [hi, h.masks.2.2.2]⟩
  wf := h'.wf ∘ h.wf

theorem Quiet.ordinary {s t : State} (h : Quiet s t) : Ordinary s t where
  cfg := h.cfg
  coproc := h.coproc
  spsr := h.spsr
  lines := h.lines
  masks := h.masks
  clock := h.clock
  cells := h.cells
  wf := h.wf
  jump := fun ht hp => by
    simp only [State.pcAligned, h.thumb, h.pc, ht, if_true]
    exact hp

theorem Quiet.then_ordinary {s t u : State} (h : Quiet s t) (h' : Ordinary t u) : Ordinary s u where
  cfg := h'.cfg.trans h.cfg
  coproc := h'.coproc.trans h.coproc
  spsr := h'.spsr.trans h.spsr
  lines := h'.lines.trans h.lines
  masks := ⟨h'.masks.1.trans h.masks.1, h'.masks.2.1.trans h.masks.2.1, h'.masks.2.2.1.trans h.masks.2.2.1,
    h'.masks.2.2.2.trans h.masks.2.2.2⟩
  clock := h.clock.trans h'.clock
  cells := fun c hc => by
    by_cases hu : u.cell c = t.cell c
    · exact h.cells c (hu ▸ hc)
    · obtain ⟨i, hi⟩ := h'.cells c hu
      exact ⟨i, by rw [hi, h.masks.2.2.2]⟩
  wf := h'.wf ∘ h.wf
  jump := fun ht hp => h'.jump (h.thumb.trans ht) (by rw [h.pc]; exact hp)

theorem Ordinary.then_quiet {s t u : State} (h : Ordinary s t) (h' : Quiet t u) : Ordinary s u where
  cfg := h'.cfg.trans h.cfg
  coproc := h'.coproc.trans h.coproc
  spsr := h'.spsr.trans h.spsr
  lines := h'.lines.trans h.lines
  masks := ⟨h'.masks.1.trans h.masks.1, h'.masks.2.1.trans h.masks.2.1, h'.masks.2.2.1.trans h.masks.2.2.1,
    h'.masks.2.2.2.trans h.masks.2.2.2⟩
  clock := h.clock.trans h'.clock
  cells := fun c hc => by
    by_cases hu : u.cell c = t.cell c
    · exact h.cells c (hu ▸ hc)
    · obtain ⟨i, hi⟩ := h'.cells c hu
      exact ⟨i, by rw [hi, h.masks.2.2.2]⟩
  wf := h'.wf ∘ h.wf
  jump := fun ht hp => by simpa [State.pcAligned, h'.thumb, h'.pc] using h.jump ht hp

theorem Steady.refl (s : State) : Steady s s := ⟨Quiet.refl s, rfl⟩

theorem Steady.trans {s t u : State} (h : Steady s t) (h' : Steady t u) : Steady s u :=
  ⟨h.toQuiet.trans h'.toQuiet, h'.cpsr.trans h.cpsr⟩

/-! ### The updates are quiet or ordinary -/

/-- R0 to R7 are in every mode's view (10_state.md R21). -/
theorem phys_low (m : BitVec 5) (r : Fin 8) : phys m ⟨r.val, by omega⟩ = .low r := by simp [phys]

/-- R13 is the current bank's. -/
theorem phys_sp (m : BitVec 5) : phys m 13 = .sp (bankOf m) := rfl

/-- R14 is the current bank's. -/
theorem phys_lr (m : BitVec 5) : phys m 14 = .lr (bankOf m) := rfl

theorem Quiet.setCell (s : State) (i : Fin 15) (v : Word) : Quiet s (s.setCell (phys s.cpsr.m i) v) :=
  ⟨rfl, rfl, rfl, rfl, ⟨rfl, rfl, rfl, rfl⟩, rfl, rfl, le_refl _,
    fun c h => ⟨i, by by_contra hc; exact h (by rw [State.setCell_cell, if_neg hc])⟩, id⟩

theorem Quiet.setLow (s : State) (r : Fin 8) (v : Word) : Quiet s (s.setLow r v) := by
  have h := Quiet.setCell s ⟨r.val, by omega⟩ v
  rwa [phys_low] at h

theorem Quiet.setSp (s : State) (v : Word) : Quiet s (s.setSp v) := Quiet.setCell s 13 v

theorem Quiet.setLr (s : State) (v : Word) : Quiet s (s.setLr v) := Quiet.setCell s 14 v

theorem Quiet.advanceBase (s : State) (r : Fin 8) : Quiet s (s.advanceBase r) := Quiet.setLow ..

theorem Quiet.drawn (s : State) : Quiet s s.drawn :=
  ⟨rfl, rfl, rfl, rfl, ⟨rfl, rfl, rfl, rfl⟩, rfl, rfl, le_refl _, fun _ h => absurd rfl h, id⟩

theorem Quiet.storeBytes (s : State) (w : Width) (a v : Word) : Quiet s (s.storeBytes w a v) :=
  ⟨rfl, rfl, rfl, rfl, ⟨rfl, rfl, rfl, rfl⟩, rfl, rfl, le_refl _, fun _ h => absurd rfl h, Memory.wf_write _ _ _ _⟩

theorem Quiet.accessed (s : State) (n d : Nat) (b : List BusAnswer) :
    Quiet s { s with bus := b, clock := s.clock + n, draws := d } :=
  ⟨rfl, rfl, rfl, rfl, ⟨rfl, rfl, rfl, rfl⟩, rfl, rfl, Nat.le_add_right _ _, fun _ h => absurd rfl h, id⟩

theorem Quiet.flags (s : State) (p : Psr) (h : s.cpsr.SameControl p) : Quiet s { s with cpsr := p } :=
  ⟨rfl, rfl, rfl, rfl, ⟨h.reserved, h.i, h.f, h.m⟩, h.t, rfl, le_refl _, fun _ h => absurd rfl h, id⟩

theorem Quiet.shiftInto (s : State) (r : Fin 8) (x : Word × Bool) : Quiet s (s.shiftInto r x) :=
  (Quiet.flags s _ ((s.cpsr.setC_control x.2).trans (Psr.setNZ_control _ x.1))).trans (Quiet.setLow ..)

theorem Quiet.moveInto (s : State) (r : Fin 8) (v : Word) : Quiet s (s.moveInto r v) :=
  (Quiet.flags s _ (s.cpsr.setNZ_control v)).trans (Quiet.setLow ..)

theorem Quiet.testFlags (s : State) (v : Word) : Quiet s (s.testFlags v) := Quiet.flags s _ (s.cpsr.setNZ_control v)

theorem Quiet.addTest (s : State) (a b : Word) : Quiet s (s.addTest a b) :=
  Quiet.flags s _ ((s.cpsr.addFlags_control a b (a + b)).trans (Psr.setNZ_control _ _))

theorem Quiet.subTest (s : State) (a b : Word) : Quiet s (s.subTest a b) :=
  Quiet.flags s _ ((s.cpsr.subFlags_control a b (a - b)).trans (Psr.setNZ_control _ _))

theorem Quiet.addInto (s : State) (r : Fin 8) (a b : Word) : Quiet s (s.addInto r a b) :=
  (Quiet.addTest s a b).trans (Quiet.setLow ..)

theorem Quiet.subInto (s : State) (r : Fin 8) (a b : Word) : Quiet s (s.subInto r a b) :=
  (Quiet.subTest s a b).trans (Quiet.setLow ..)

theorem Quiet.setLows (s : State) (rs : List (Fin 8)) (vs : List Word) : Quiet s (s.setLows rs vs) := by
  induction rs generalizing s vs with
  | nil => exact Quiet.refl s
  | cons r rs ih =>
    cases vs with
    | nil => exact Quiet.refl s
    | cons v vs => exact (Quiet.setLow s r v).trans (ih _ _)

theorem Quiet.spoilLows (s : State) (rs : List (Fin 8)) : Quiet s (s.spoilLows rs) := by
  induction rs generalizing s with
  | nil => exact Quiet.refl s
  | cons r rs ih => exact ((Quiet.drawn s).trans (Quiet.setLow ..)).trans (ih _)

theorem Quiet.spoilSp (s : State) : Quiet s s.spoilSp := (Quiet.drawn s).trans (Quiet.setSp ..)

theorem Quiet.spoilWords (s : State) (a : Word) (k : Nat) : Quiet s (s.spoilWords a k) := by
  induction k generalizing s a with
  | zero => exact Quiet.refl s
  | succ k ih =>
    refine Quiet.trans ?_ (ih _ _)
    exact ⟨rfl, rfl, rfl, rfl, ⟨rfl, rfl, rfl, rfl⟩, rfl, rfl, le_refl _, fun _ h => absurd rfl h,
      Memory.wf_write s.mem .word (alignWord a) s.freeWord⟩

theorem Steady.spoilLows (s : State) (rs : List (Fin 8)) : Steady s (s.spoilLows rs) := by
  refine ⟨Quiet.spoilLows s rs, ?_⟩
  induction rs generalizing s with
  | nil => rfl
  | cons r rs ih => exact ih _

theorem Steady.spoilSp (s : State) : Steady s s.spoilSp := ⟨Quiet.spoilSp s, rfl⟩

theorem Steady.spoilWords (s : State) (a : Word) (k : Nat) : Steady s (s.spoilWords a k) := by
  refine ⟨Quiet.spoilWords s a k, ?_⟩
  induction k generalizing s a with
  | zero => rfl
  | succ k ih => exact ih _ _

theorem Ordinary.jumpThumb (s : State) (a : Word) : Ordinary s (s.jumpThumb a) :=
  ⟨rfl, rfl, rfl, rfl, ⟨rfl, rfl, rfl, rfl⟩, le_refl _, fun _ h => absurd rfl h, id,
    fun ht _ => by simp [State.pcAligned, ht]⟩

theorem Ordinary.jumpArm (s : State) (a : Word) : Ordinary s (s.jumpArm a) :=
  ⟨rfl, rfl, rfl, rfl, ⟨rfl, rfl, rfl, rfl⟩, le_refl _, fun _ h => absurd rfl h, id,
    fun _ _ => by simp [State.pcAligned]⟩

theorem Ordinary.jumpExchange (s : State) (a : Word) : Ordinary s (s.jumpExchange a) := by
  unfold State.jumpExchange
  split
  · exact Ordinary.jumpThumb s a
  · exact Ordinary.jumpArm s a

theorem Ordinary.popPc (s : State) (a : Word) : Ordinary s (s.popPc a) := by
  unfold State.popPc
  split
  · exact Ordinary.jumpThumb s a
  · exact Ordinary.jumpExchange s a

theorem Ordinary.writeReg (s : State) (i : Fin 16) (v : Word) : Ordinary s (s.writeReg i v) := by
  unfold State.writeReg
  split
  · exact (Quiet.setCell s _ v).ordinary
  · exact Ordinary.jumpThumb s v

/-- A jump by an even displacement. -/
theorem Ordinary.branch (s : State) (d : Word) (hd : d.getLsbD 0 = false) : Ordinary s { s with pc := s.pcRead + d } :=
  ⟨rfl, rfl, rfl, rfl, ⟨rfl, rfl, rfl, rfl⟩, le_refl _, fun _ h => absurd rfl h, id, fun ht hp => by
    simp only [State.pcAligned, ht, if_true, State.pcRead]
    simp only [BitVec.getLsbD, Nat.testBit_zero, decide_eq_false_iff_not] at hp hd ⊢
    have h2 : (2 : Word).toNat = 2 := rfl
    simp only [BitVec.toNat_add, h2]
    omega⟩

/-! ### Alignment -/

theorem alignHalf_even (a : Word) : (alignHalf a).getLsbD 0 = false := by simp [alignHalf]

/-- An even word plus an even word is even. -/
theorem even_add (a b : Word) (ha : a.getLsbD 0 = false) (hb : b.getLsbD 0 = false) : (a + b).getLsbD 0 = false := by
  simp only [BitVec.getLsbD, Nat.testBit_zero, decide_eq_false_iff_not] at ha hb ⊢
  simp only [BitVec.toNat_add]
  omega

/-! ### What an instruction can do -/

/-- The exception kinds an instruction can raise. -/
def ExceptionKind.raisable (e : ExceptionKind) : Prop :=
  e = .undefined ∨ e = .swi ∨ e = .prefetchAbort ∨ e = .dataAbort

/-- An entry from `s`, by way of quiet work that leaves the status register whole. -/
def EntersQuietly (s t : State) : Prop :=
  ∃ (m : State) (e : ExceptionKind) (p base : Word), Steady s m ∧ e.raisable ∧ s.vectorBase = some base ∧
    t = m.entered e (p + e.offset s.cfg s.cpsr.t) base

theorem State.vectorBase_congr {s m : State} (h : m.coproc = s.coproc) : m.vectorBase = s.vectorBase := by
  simp only [State.vectorBase, h]

/-- A raised exception is entered or refused. -/
theorem raise_cases {e : ExceptionKind} {s m t : State} (he : e.raisable) (hq : Steady s m)
    (h : raise e m = .next t) : EntersQuietly s t := by
  rcases enter_cases h with ⟨hm, _⟩ | ⟨base, _, hb, rfl⟩
  · rcases he with rfl | rfl | rfl | rfl <;> cases hm
  · exact ⟨m, e, m.pc, base, hq, he, by rw [← hb, State.vectorBase_congr hq.coproc], by rw [hq.cfg, hq.thumb]⟩

theorem State.busRead_cases (s : State) (w : Width) (a : Word) :
    (∃ v m, s.busRead w a = .ok v m ∧ Steady s m) ∨ (∃ m, s.busRead w a = .abort m ∧ Steady s m) := by
  cases h : s.nextAborts with
  | false => exact .inl ⟨_, _, s.busRead_ok w a h, Quiet.accessed .., rfl⟩
  | true => exact .inr ⟨_, s.busRead_abort w a h, Quiet.accessed .., rfl⟩

theorem State.busWrite_cases (s : State) (w : Width) (a v : Word) :
    (∃ u m, s.busWrite w a v = .ok u m ∧ Steady s m) ∨ (∃ m, s.busWrite w a v = .abort m ∧ Steady s m) := by
  cases h : s.nextAborts with
  | false => exact .inl ⟨_, _, s.busWrite_ok w a v h, (Quiet.accessed ..).trans (Quiet.storeBytes ..), rfl⟩
  | true => exact .inr ⟨_, s.busWrite_abort w a v h, Quiet.accessed .., rfl⟩

/-- What any instruction answers when it answers a next state. -/
def Runs (s t : State) : Prop := Ordinary s t ∨ EntersQuietly s t

theorem Runs.of_ordinary {s t u : State} (h : Ordinary s t) (hu : Host.Outcome.next t = (.next u : Result)) : Runs s u := by
  cases hu; exact .inl h

theorem Runs.of_quiet {s t u : State} (h : Quiet s t) (hu : Host.Outcome.next t = (.next u : Result)) : Runs s u :=
  Runs.of_ordinary h.ordinary hu

theorem dataAbort_raisable : ExceptionKind.raisable .dataAbort := .inr (.inr (.inr rfl))

theorem undefined_raisable : ExceptionKind.raisable .undefined := .inl rfl

theorem finishLoad_runs {s t : State} {rd : Fin 8} {f : Word → Word} {w : Width} {a : Word}
    (h : finishLoad rd f (s.busRead w a) = .next t) : Runs s t := by
  rcases s.busRead_cases w a with ⟨v, m, hr, hq⟩ | ⟨m, hr, hq⟩ <;> rw [hr] at h
  · exact Runs.of_quiet (hq.toQuiet.trans (Quiet.setLow ..)) h
  · exact .inr (raise_cases dataAbort_raisable hq h)

theorem finishStore_runs {s t : State} {w : Width} {a v : Word} (h : finishStore (s.busWrite w a v) = .next t) :
    Runs s t := by
  rcases s.busWrite_cases w a v with ⟨u, m, hr, hq⟩ | ⟨m, hr, hq⟩ <;> rw [hr] at h
  · exact Runs.of_quiet hq.toQuiet h
  · exact .inr (raise_cases dataAbort_raisable hq h)

theorem drawInto_runs {s t : State} {rd : Fin 8} (h : drawInto rd s = .next t) : Runs s t :=
  Runs.of_quiet ((Quiet.drawn s).trans (Quiet.setLow ..)) h

theorem loadHalfInto_runs {s t : State} {rd : Fin 8} {a : Word} (h : loadHalfInto rd a s = .next t) : Runs s t := by
  unfold loadHalfInto at h
  split at h
  · split at h
    · exact drawInto_runs h
    · exact finishLoad_runs h
  · exact finishLoad_runs h

theorem loadSignedHalfInto_runs {s t : State} {rd : Fin 8} {a : Word} (h : loadSignedHalfInto rd a s = .next t) :
    Runs s t := by
  unfold loadSignedHalfInto at h
  split at h
  · split at h
    · exact drawInto_runs h
    · exact finishLoad_runs h
  · exact finishLoad_runs h

theorem storeHalfAt_runs {s t : State} {a v : Word} (h : storeHalfAt a v s = .next t) : Runs s t := by
  unfold storeHalfAt at h
  split at h
  · split at h
    · cases h
    · exact finishStore_runs h
  · exact finishStore_runs h

theorem storeWords_quiet (vs : List Word) (k : Nat) (a : Word) (s : State) :
    (∃ u m, storeWords vs k a s = .done u m ∧ Steady s m) ∨ (∃ j m, storeWords vs k a s = .abort j m ∧ Steady s m) := by
  induction vs generalizing k a s with
  | nil => exact .inl ⟨(), s, rfl, Steady.refl s⟩
  | cons v vs ih =>
    rcases s.busWrite_cases .word (alignWord a) v with ⟨u, m, hr, hq⟩ | ⟨m, hr, hq⟩
    · rcases ih (k + 1) (a + 4) m with ⟨u', m', hm, hq'⟩ | ⟨j, m', hm, hq'⟩
      · exact .inl ⟨u', m', by simp only [storeWords, hr]; exact hm, hq.trans hq'⟩
      · exact .inr ⟨j, m', by simp only [storeWords, hr]; exact hm, hq.trans hq'⟩
    · exact .inr ⟨k, m, by simp only [storeWords, hr], hq⟩

theorem loadWords_quiet (n : Nat) (vs : List Word) (a : Word) (s : State) :
    (∃ ws m, loadWords n vs a s = .done ws m ∧ Steady s m) ∨ (∃ j m, loadWords n vs a s = .abort j m ∧ Steady s m) := by
  induction n generalizing vs a s with
  | zero => exact .inl ⟨vs, s, rfl, Steady.refl s⟩
  | succ n ih =>
    rcases s.busRead_cases .word (alignWord a) with ⟨v, m, hr, hq⟩ | ⟨m, hr, hq⟩
    · rcases ih (vs ++ [v]) (a + 4) m with ⟨u', m', hm, hq'⟩ | ⟨j, m', hm, hq'⟩
      · exact .inl ⟨u', m', by simp only [loadWords, hr]; exact hm, hq.trans hq'⟩
      · exact .inr ⟨j, m', by simp only [loadWords, hr]; exact hm, hq.trans hq'⟩
    · exact .inr ⟨vs.length, m, by simp only [loadWords, hr], hq⟩

theorem abortTransfer_runs {s m t : State} {k : Nat} {spoil : State → State} (hq : Steady s m)
    (hs : ∀ x, Steady x (spoil x)) (h : abortTransfer k spoil m = .next t) : Runs s t := by
  unfold abortTransfer at h
  split at h
  · exact .inr (raise_cases dataAbort_raisable hq h)
  · exact .inr (raise_cases dataAbort_raisable (hq.trans (hs m)) h)

theorem execPush_runs {r : Bool} {rlist : BitVec 8} {s t : State} (h : execPush r rlist s = .next t) : Runs s t := by
  unfold execPush at h
  simp only [] at h
  split at h
  · cases h
  · rcases storeWords_quiet (s.pushWords r rlist) 0 (s.sp - wordsSize (s.pushWords r rlist).length) s with
      ⟨u, m, hr, hq⟩ | ⟨j, m, hr, hq⟩ <;> rw [hr] at h
    · exact Runs.of_quiet (hq.toQuiet.trans (Quiet.setSp ..)) h
    · exact abortTransfer_runs hq (fun x => (Steady.spoilWords ..).trans (Steady.spoilSp _)) h

theorem execPop_runs {r : Bool} {rlist : BitVec 8} {s t : State} (h : execPop r rlist s = .next t) : Runs s t := by
  simp only [execPop] at h
  generalize (listed rlist).length + (if r then 1 else 0) = n at h
  split at h
  · cases h
  · rcases loadWords_quiet n [] s.sp s with ⟨ws, m, hr, hq⟩ | ⟨j, m, hr, hq⟩ <;> rw [hr] at h
    · have hq2 := (hq.toQuiet.trans (Quiet.setLows m (listed rlist) ws)).trans (Quiet.setSp _ (s.sp + wordsSize n))
      simp only [] at h
      split at h
      · exact Runs.of_ordinary (hq2.then_ordinary (Ordinary.popPc ..)) h
      · exact Runs.of_quiet hq2 h
    · exact abortTransfer_runs hq (fun x => (Steady.spoilLows ..).trans (Steady.spoilSp _)) h

theorem stmEmpty_runs {rb : Fin 8} {s t : State} (h : stmEmpty rb s = .next t) : Runs s t := by
  unfold stmEmpty at h
  split at h
  · exact Runs.of_quiet (Quiet.advanceBase ..) h
  · rcases s.busWrite_cases .word (alignWord (s.low rb)) s.emptyStmPc with ⟨u, m, hr, hq⟩ | ⟨m, hr, hq⟩ <;> rw [hr] at h
    · exact Runs.of_quiet (hq.toQuiet.trans (Quiet.advanceBase ..)) h
    · exact .inr (raise_cases dataAbort_raisable hq h)

theorem ldmEmpty_runs {rb : Fin 8} {s t : State} (h : ldmEmpty rb s = .next t) : Runs s t := by
  unfold ldmEmpty at h
  split at h
  · exact Runs.of_quiet (Quiet.advanceBase ..) h
  · rcases s.busRead_cases .word (alignWord (s.low rb)) with ⟨v, m, hr, hq⟩ | ⟨m, hr, hq⟩ <;> rw [hr] at h
    · exact Runs.of_ordinary (hq.toQuiet.then_ordinary ((Ordinary.jumpThumb m v).then_quiet (Quiet.advanceBase ..))) h
    · exact .inr (raise_cases dataAbort_raisable hq h)

theorem execStmia_runs {rb : Fin 8} {rlist : BitVec 8} {s t : State} (h : execStmia rb rlist s = .next t) :
    Runs s t := by
  unfold execStmia at h
  simp only [] at h
  split at h
  · exact stmEmpty_runs h
  · have hd : Steady s (if s.stmDraws rb (listed rlist) then s.drawn else s) := by
      split
      · exact ⟨Quiet.drawn s, rfl⟩
      · exact Steady.refl s
    rcases storeWords_quiet ((listed rlist).map (s.stmWord rb (listed rlist) (s.low rb + wordsSize (listed rlist).length)))
      0 (s.low rb) (if s.stmDraws rb (listed rlist) then s.drawn else s) with ⟨u, m, hr, hq⟩ | ⟨j, m, hr, hq⟩ <;> rw [hr] at h
    · exact Runs.of_quiet ((hd.trans hq).toQuiet.trans (Quiet.setLow ..)) h
    · exact abortTransfer_runs (hd.trans hq) (fun x => (Steady.spoilWords ..).trans (Steady.spoilLows _ _)) h

theorem execLdmia_runs {rb : Fin 8} {rlist : BitVec 8} {s t : State} (h : execLdmia rb rlist s = .next t) :
    Runs s t := by
  unfold execLdmia at h
  simp only [] at h
  split at h
  · exact ldmEmpty_runs h
  · rcases loadWords_quiet (listed rlist).length [] (s.low rb) s with ⟨ws, m, hr, hq⟩ | ⟨j, m, hr, hq⟩ <;> rw [hr] at h
    · simp only [] at h
      split at h
      · exact Runs.of_quiet (hq.toQuiet.trans (Quiet.setLows ..)) h
      · exact Runs.of_quiet ((hq.toQuiet.trans (Quiet.setLows ..)).trans (Quiet.setLow ..)) h
    · exact abortTransfer_runs hq (fun x => Steady.spoilLows ..) h

theorem shiftLeft_even (v : Word) (k : Nat) (hk : 0 < k) : (v <<< k).getLsbD 0 = false := by
  simp [hk]

theorem State.branchIf_runs {s t : State} {k : Cond} {imm8 : BitVec 8}
    (h : Host.Outcome.next (s.branchIf k imm8) = (.next t : Result)) : Runs s t := by
  unfold State.branchIf at h
  split at h
  · exact Runs.of_ordinary (Ordinary.branch s _ (shiftLeft_even _ 1 (by decide))) h
  · exact Runs.of_quiet (Quiet.refl s) h

/-- Everything an instruction can do when it answers a next state: ordinary work, or an entry after quiet work. -/
theorem exec_cases {i : Instr} {s t : State} (h : exec i s = .next t) : Runs s t := by
  cases i with
  | lslImm | lsrImm | asrImm | lslReg | lsrReg | asrReg | ror => exact Runs.of_quiet (Quiet.shiftInto ..) h
  | addReg | addImm3 | addImm8 => exact Runs.of_quiet (Quiet.addInto ..) h
  | subReg | subImm3 | subImm8 | neg => exact Runs.of_quiet (Quiet.subInto ..) h
  | movImm | and | eor | orr | bic | mvn => exact Runs.of_quiet (Quiet.moveInto ..) h
  | cmpImm | cmpReg | cmpHi => exact Runs.of_quiet (Quiet.subTest ..) h
  | cmn => exact Runs.of_quiet (Quiet.addTest ..) h
  | tst => exact Runs.of_quiet (Quiet.testFlags ..) h
  | adc =>
    exact Runs.of_quiet ((Quiet.flags s _ ((s.cpsr.adcFlags_control _ _ _ _).trans (Psr.setNZ_control _ _))).trans
      (Quiet.setLow ..)) h
  | sbc =>
    exact Runs.of_quiet ((Quiet.flags s _ ((s.cpsr.sbcFlags_control _ _ _ _).trans (Psr.setNZ_control _ _))).trans
      (Quiet.setLow ..)) h
  | mul rd rs =>
    refine Runs.of_quiet (Quiet.trans ?_ (Quiet.moveInto _ rd (s.low rd * s.low rs))) h
    split
    · exact Quiet.flags s _ (s.cpsr.setC_control false)
    · exact Quiet.refl s
  | addHi | movHi => exact Runs.of_ordinary (Ordinary.writeReg ..) h
  | bx => exact Runs.of_ordinary (Ordinary.jumpExchange ..) h
  | blxReg =>
    simp only [exec, execBlxReg] at h
    split at h
    · exact .inr (raise_cases undefined_raisable (Steady.refl s) h)
    · exact Runs.of_ordinary ((Quiet.setLr ..).then_ordinary (Ordinary.jumpExchange ..)) h
  | ldrPc | ldrReg | ldrbReg | ldrsbReg | ldrImm | ldrbImm | ldrSp => exact finishLoad_runs h
  | strReg | strbReg | strImm | strbImm | strSp => exact finishStore_runs h
  | strhReg | strhImm => exact storeHalfAt_runs h
  | ldrhReg | ldrhImm => exact loadHalfInto_runs h
  | ldrshReg => exact loadSignedHalfInto_runs h
  | addPc | addSp => exact Runs.of_quiet (Quiet.setLow ..) h
  | addSpImm | subSpImm => exact Runs.of_quiet (Quiet.setSp ..) h
  | push => exact execPush_runs h
  | pop => exact execPop_runs h
  | stmia => exact execStmia_runs h
  | ldmia => exact execLdmia_runs h
  | beq | bne | bcs | bcc | bmi | bpl | bvs | bvc | bhi | bls | bge | blt | bgt | ble => exact State.branchIf_runs h
  | udfDE | udfB1 | udfB2B3 | udfB6B7 | udfB8BB => exact .inr (raise_cases undefined_raisable (Steady.refl s) h)
  | udfBEBF =>
    simp only [exec, execUdfBEBF] at h
    split at h
    · exact .inr (raise_cases (.inr (.inr (.inl rfl))) (Steady.refl s) h)
    · exact .inr (raise_cases undefined_raisable (Steady.refl s) h)
  | swi => exact .inr (raise_cases (.inr (.inl rfl)) (Steady.refl s) h)
  | b => exact Runs.of_ordinary (Ordinary.branch s _ (shiftLeft_even _ 1 (by decide))) h
  | blxSuffix =>
    simp only [exec, execBlxSuffix] at h
    split at h
    · exact .inr (raise_cases undefined_raisable (Steady.refl s) h)
    · exact Runs.of_ordinary ((Quiet.setLr ..).then_ordinary (Ordinary.jumpArm ..)) h
  | blPrefix => exact Runs.of_quiet (Quiet.setLr ..) h
  | blSuffix => exact Runs.of_ordinary ((Quiet.setLr ..).then_ordinary (Ordinary.jumpThumb ..)) h

/-! ### What a step can do -/

/-- The halfword of a zero-extended halfword is the halfword. -/
theorem half_of_extended (x : Half) : (x.zeroExtend 32).extractLsb' 0 16 = x := by
  apply BitVec.eq_of_toNat_eq
  have := x.isLt
  simp only [BitVec.extractLsb'_toNat, BitVec.truncate_eq_setWidth, BitVec.toNat_setWidth, Nat.shiftRight_zero]
  omega

/-- A halfword that the platform answers itself is the low half of its data. -/
theorem State.readValue_half_data {s : State} (a : Word) {d : Word} (h : s.nextAnswer.data = some d) :
    (s.readValue .half a).extractLsb' 0 16 = d.extractLsb' 0 16 := by
  simp only [State.readValue, h, Width.trim, half_of_extended]

/-- A halfword that memory answers is its two bytes, the low one first. -/
theorem State.readValue_half_memory {s : State} (a : Word) (h : s.nextAnswer.data = none) :
    (s.readValue .half a).extractLsb' 0 16 = Memory.byte s.mem (a + 1) ++ Memory.byte s.mem a := by
  simp only [State.readValue, h, Memory.read]
  exact half_of_extended _

theorem State.storedTo_iff (s : State) (a : Word) :
    s.storedTo a = true ↔ a.toNat ∈ s.stored ∨ (a + 1).toNat ∈ s.stored := by simp [State.storedTo]

/-- A fetch that sees stores, or from an address nothing has written: the platform's answer or memory's halfword. -/
theorem fetch16_seen {s : State} (h : s.nextAborts = false)
    (hs : s.cfg.fetchSeesStores = true ∨ ¬ s.storedTo (alignHalf s.pc) = true) :
    fetch16 s = .ok ((s.readValue .half (alignHalf s.pc)).extractLsb' 0 16)
      { s with pc := alignHalf s.pc + 2, bus := s.bus.tail, clock := s.clock + (s.nextAnswer.waits + 1) } := by
  rcases hs with hs | hs <;> simp [fetch16, s.busRead_ok .half (alignHalf s.pc) h, hs]

/-- A fetch that does not see stores, from a written address: a free value. -/
theorem fetch16_drawn {s : State} (h : s.nextAborts = false) (hf : s.cfg.fetchSeesStores = false)
    (hs : s.storedTo (alignHalf s.pc) = true) :
    fetch16 s = .ok (s.freeWord.extractLsb' 0 16)
      { s.drawn with pc := alignHalf s.pc + 2, bus := s.bus.tail, clock := s.clock + (s.nextAnswer.waits + 1) } := by
  simp [fetch16, s.busRead_ok .half (alignHalf s.pc) h, hf, hs]; rfl

/-- A fetch that aborts: the pc is incremented all the same. -/
theorem fetch16_abort {s : State} (h : s.nextAborts = true) :
    fetch16 s = .abort { s with pc := alignHalf s.pc + 2, bus := s.bus.tail,
                                clock := s.clock + Config.freeCycles s.draws, draws := s.draws + 1 } := by
  simp [fetch16, s.busRead_abort .half (alignHalf s.pc) h]

/-- The state a fetch leaves, whatever it answers: the pc is at A + 2, and the work was quiet but for the pc. -/
theorem fetch16_quiet (s : State) :
    (∃ op m, fetch16 s = .ok op m ∧ m.pc = alignHalf s.pc + 2 ∧ Steady s { m with pc := s.pc }) ∨
    (∃ m, fetch16 s = .abort m ∧ m.pc = alignHalf s.pc + 2 ∧ Steady s { m with pc := s.pc }) := by
  cases h : s.nextAborts with
  | true => exact .inr ⟨_, fetch16_abort h, rfl, ⟨Quiet.accessed s _ _ _, rfl⟩⟩
  | false =>
    refine .inl ?_
    by_cases hd : s.cfg.fetchSeesStores = false ∧ s.storedTo (alignHalf s.pc) = true
    · exact ⟨_, _, fetch16_drawn h hd.1 hd.2, rfl, ⟨Quiet.accessed s _ _ _, rfl⟩⟩
    · exact ⟨_, _, fetch16_seen h (by grind), rfl, ⟨Quiet.accessed s _ _ _, rfl⟩⟩

/-- Everything a step can do when it answers a next state: an interrupt's entry, an idle cycle, an aborted fetch's
entry, or the execution of one instruction in Thumb state, in the state `m` that the fetch leaves. -/
theorem step_cases {s t : State} (h : step s = .next t) :
    s.modeLegal ∧
    ((∃ e p base, (e = .fiq ∨ e = .irq) ∧ s.masked e = false ∧ s.vectorBase = some base ∧
        t = s.abandonFetch.entered e p base) ∨
      (s.lines.halt = true ∧ t = { s with clock := s.clock + 1 }) ∨
      (∃ (m : State) (p base : Word), s.cpsr.t = true ∧ Steady s { m with pc := s.pc } ∧ s.vectorBase = some base ∧
        t = m.entered .prefetchAbort p base) ∨
      (∃ (i : Instr) (m : State), s.cpsr.t = true ∧ Steady s { m with pc := s.pc } ∧ m.pc = alignHalf s.pc + 2 ∧ exec i m = .next t)) := by
  have hint : ∀ e, (e = .fiq ∨ e = .irq) → s.masked e = false → takeInterrupt e s = .next t →
      ∃ e p base, (e = .fiq ∨ e = .irq) ∧ s.masked e = false ∧ s.vectorBase = some base ∧
        t = s.abandonFetch.entered e p base := by
    intro e he hm ht
    rcases enter_cases ht with ⟨hm', _⟩ | ⟨base, _, hb, rfl⟩
    · exact absurd (hm'.symm.trans (show s.abandonFetch.masked e = false from by rcases he with rfl | rfl <;> exact hm)) (by simp)
    · exact ⟨e, _, base, he, hm, hb, rfl⟩
  unfold step boundary at h
  split at h
  · rename_i r hb
    split at hb
    · cases hb; cases h
    · rename_i hmode
      refine ⟨hmode, ?_⟩
      split at hb
      · rename_i r' hp
        cases hb
        unfold poll at hp
        split at hp
        · cases hp
          exact .inl (hint .fiq (.inl rfl) (by simp_all [State.masked]) h)
        · split at hp
          · cases hp
            exact .inl (hint .irq (.inr rfl) (by simp_all [State.masked]) h)
          · split at hp
            · cases hp; cases h
              exact .inr (.inl ⟨‹_›, rfl⟩)
            · cases hp
      · split at hb
        · rename_i ht
          rcases fetch16_quiet s with ⟨op, m, hf, _, _⟩ | ⟨m, hf, hpc, hq⟩ <;> rw [hf] at hb
          · cases hb
          · cases hb
            rcases enter_cases h with ⟨hm, _⟩ | ⟨base, _, hvb, rfl⟩
            · cases hm
            · exact .inr (.inr (.inl ⟨m, _, base, ht, hq, by rw [← hvb]; exact (State.vectorBase_congr (m := m) hq.coproc).symm, rfl⟩))
        · cases hb; cases h
  · rename_i op m hb
    split at hb
    · cases hb
    · rename_i hmode
      refine ⟨hmode, ?_⟩
      split at hb
      · cases hb
      · split at hb
        · rename_i ht
          rcases fetch16_quiet s with ⟨op', m', hf, hpc, hq⟩ | ⟨m', hf, _, _⟩ <;> rw [hf] at hb
          · cases hb
            refine .inr (.inr (.inr ⟨decode op, { m' with clock := m'.clock + 1 }, ht, hq.trans ?_, hpc, h⟩))
            exact ⟨Quiet.accessed { m' with pc := s.pc } 1 m'.draws m'.bus, rfl⟩
          · cases hb
        · cases hb

end Sys2Proof.Machine
end

