-- ==== Sys2Proof/Laws/Transfer.lean ====
section
/-! SUPPORT. Single and multiple transfers: which bytes a write changes, and what a whole PUSH, POP, STMIA or LDMIA
does to memory and registers (20_memory.md R51, R52, R57; 60_exceptions.md R231). -/

namespace Sys2Proof.Machine

/-! ### Aligned addresses -/

/-- Clearing the low two bits rounds down to a multiple of 4. -/
theorem alignWord_toNat (a : Word) : (a &&& 0xFFFFFFFC#32).toNat = a.toNat / 4 * 4 := by
  have h : a &&& 0xFFFFFFFC#32 = (a >>> 2) <<< 2 := by
    apply BitVec.eq_of_getLsbD_eq
    intro i hi
    have h4 : (0xFFFFFFFC#32 : Word).getLsbD i = decide (2 ≤ i ∧ i < 32) := by
      have : ∀ j : Fin 32, (0xFFFFFFFC#32 : Word).getLsbD j.val = decide (2 ≤ j.val ∧ j.val < 32) := by decide
      exact this ⟨i, hi⟩
    rw [BitVec.getLsbD_and, h4, BitVec.getLsbD_shiftLeft, BitVec.getLsbD_ushiftRight]
    by_cases h2 : 2 ≤ i
    · simp [h2, hi, show 2 + (i - 2) = i by omega, show ¬ i < 2 by omega]
    · simp [h2, show i < 2 by omega]
  rw [h, BitVec.toNat_shiftLeft, BitVec.toNat_ushiftRight, Nat.shiftLeft_eq, Nat.shiftRight_eq_div_pow]
  have := a.isLt
  omega

theorem alignWord_eq (a : Word) : alignWord a = a &&& 0xFFFFFFFC#32 := rfl

theorem wordAddr_zero (a : Word) : wordAddr a 0 = alignWord a := by simp [wordAddr, alignWord_eq]

theorem wordAddr_succ (a : Word) (j : Nat) : wordAddr (a + 4) j = wordAddr a (j + 1) := by
  have h4 : (4 : Word).toNat = 4 := rfl
  unfold wordAddr
  congr 1
  apply BitVec.eq_of_toNat_eq
  simp only [BitVec.toNat_add, BitVec.toNat_ofNat, h4]
  omega

theorem wordAddr_toNat (a : Word) (j : Nat) : (wordAddr a j).toNat = (a.toNat / 4 * 4 + 4 * j) % 2 ^ 32 := by
  unfold wordAddr
  rw [alignWord_toNat]
  simp only [BitVec.toNat_add, BitVec.toNat_ofNat]
  have := a.isLt
  omega

/-! ### The bytes of one write -/

/-- Covered bytes, as numbers. -/
theorem covers_iff (a x : Word) (n : Nat) (hn : n ≤ 2 ^ 32) :
    Covers a n x ↔ ∃ k, k < n ∧ x.toNat = (a.toNat + k) % 2 ^ 32 := by
  refine exists_congr fun k => and_congr_right fun hk => ?_
  rw [← BitVec.toNat_inj, BitVec.toNat_add, BitVec.toNat_ofNat, Nat.mod_eq_of_lt (a := k) (by omega)]

theorem SameMemoryOutside.trans {a : Word} {n : Nat} {s t u : State} (h : SameMemoryOutside a n s t)
    (h' : SameMemoryOutside a n t u) : SameMemoryOutside a n s u := fun x hx => (h' x hx).trans (h x hx)

/-- A wider window says less. -/
theorem SameMemoryOutside.mono {a b : Word} {n m : Nat} {s t : State} (h : SameMemoryOutside a n s t)
    (hc : ∀ x, Covers a n x → Covers b m x) : SameMemoryOutside b m s t := fun x hx => h x fun hn => hx (hc x hn)

theorem Memory.byte_write_word (m : List Host.Cell) (a v x : Word) : Memory.byte (Memory.write m .word a v) x =
    if x = a + 3#32 then v.extractLsb' 24 8 else if x = a + 2#32 then v.extractLsb' 16 8
    else if x = a + 1#32 then v.extractLsb' 8 8 else if x = a then v.extractLsb' 0 8 else Memory.byte m x := by
  simp only [Memory.write, Memory.byte_setByte]; rfl

theorem Memory.byte_write_half (m : List Host.Cell) (a v x : Word) : Memory.byte (Memory.write m .half a v) x =
    if x = a + 1#32 then v.extractLsb' 8 8 else if x = a then v.extractLsb' 0 8 else Memory.byte m x := by
  simp only [Memory.write, Memory.byte_setByte]; rfl

theorem Memory.byte_write_byte (m : List Host.Cell) (a v x : Word) : Memory.byte (Memory.write m .byte a v) x =
    if x = a then v.extractLsb' 0 8 else Memory.byte m x := by
  simp only [Memory.write, Memory.byte_setByte]

/-- A write of any width puts the value's bytes where it says. -/
theorem holdsBytes_storeBytes (s : State) (w : Width) (a v : Word) : HoldsBytes (s.storeBytes w a v) a w.bytes v := by
  intro k hk
  cases w with
  | byte =>
    have : k = 0 := by simp only [Width.bytes] at hk; omega
    subst this
    simp only [State.storeBytes_mem, Memory.byte_write_byte]
    rw [if_pos (by simp)]
  | half =>
    have : k = 0 ∨ k = 1 := by simp only [Width.bytes] at hk; omega
    simp only [State.storeBytes_mem, Memory.byte_write_half]
    rcases this with rfl | rfl
    · rw [if_neg (by bv_omega), if_pos (by simp)]
    · rw [if_pos rfl]
  | word =>
    have : k = 0 ∨ k = 1 ∨ k = 2 ∨ k = 3 := by simp only [Width.bytes] at hk; omega
    simp only [State.storeBytes_mem, Memory.byte_write_word]
    rcases this with rfl | rfl | rfl | rfl
    · rw [if_neg (by bv_omega), if_neg (by bv_omega), if_neg (by bv_omega), if_pos (by simp)]
    · rw [if_neg (by bv_omega), if_neg (by bv_omega), if_pos rfl]
    · rw [if_neg (by bv_omega), if_pos rfl]
    · rw [if_pos rfl]

/-- A write of any width changes no byte outside its own. -/
theorem write_outside (m : List Host.Cell) (w : Width) (a v x : Word) (h : ¬ Covers a w.bytes x) :
    Memory.byte (Memory.write m w a v) x = Memory.byte m x := by
  have hne : ∀ k, k < w.bytes → x ≠ a + BitVec.ofNat 32 k := fun k hk he => h ⟨k, hk, he⟩
  cases w with
  | byte =>
    rw [Memory.byte_write_byte, if_neg (by simpa using hne 0 (by decide))]
  | half =>
    rw [Memory.byte_write_half, if_neg (hne 1 (by decide)), if_neg (by simpa using hne 0 (by decide))]
  | word =>
    rw [Memory.byte_write_word, if_neg (hne 3 (by decide)), if_neg (hne 2 (by decide)), if_neg (hne 1 (by decide)),
      if_neg (by simpa using hne 0 (by decide))]

theorem sameMemoryOutside_storeBytes (s : State) (w : Width) (a v : Word) :
    SameMemoryOutside a w.bytes s (s.storeBytes w a v) := fun x hx => write_outside s.mem w a v x hx

/-! ### Aborts, one access further on -/

theorem nextAborts_eq (s : State) : s.nextAborts = true ↔ s.cfg.busAbort = .oracle ∧ (s.bus.getD 0 {}).abort = true := by
  simp [State.nextAborts, State.nextAnswer, List.headD_eq_head?_getD, List.head?_eq_getElem?, List.getD]

theorem nextAnswer_eq (s : State) : s.nextAnswer = s.bus.getD 0 {} := by
  simp [State.nextAnswer, List.headD_eq_head?_getD, List.head?_eq_getElem?, List.getD]

theorem tail_getD (l : List BusAnswer) (k : Nat) : l.tail.getD k {} = l.getD (k + 1) {} := by
  cases l <;> simp

theorem NoAbortIn.head {n : Nat} {s : State} (h : NoAbortIn (n + 1) s) : s.nextAborts = false := by
  by_contra hc
  obtain ⟨ho, ha⟩ := (nextAborts_eq s).mp (by simpa using hc)
  exact absurd ha (by rw [h ho 0 (Nat.succ_pos n)]; simp)

theorem NoAbortIn.tail {n : Nat} {s t : State} (h : NoAbortIn (n + 1) s) (hc : t.cfg = s.cfg) (hb : t.bus = s.bus.tail) :
    NoAbortIn n t := fun ho k hk => by rw [hb, tail_getD]; exact h (hc ▸ ho) (k + 1) (by omega)

theorem AbortsAt.head {s : State} (h : AbortsAt 0 s) : s.nextAborts = true := (nextAborts_eq s).mpr ⟨h.1, h.2.1⟩

theorem AbortsAt.none {k : Nat} {s : State} (h : AbortsAt (k + 1) s) : s.nextAborts = false := by
  by_contra hc
  obtain ⟨_, ha⟩ := (nextAborts_eq s).mp (by simpa using hc)
  exact absurd ha (by rw [h.2.2 0 (Nat.succ_pos k)]; simp)

theorem AbortsAt.tail {k : Nat} {s t : State} (h : AbortsAt (k + 1) s) (hc : t.cfg = s.cfg) (hb : t.bus = s.bus.tail) :
    AbortsAt k t :=
  ⟨hc ▸ h.1, by rw [hb, tail_getD]; exact h.2.1, fun j hj => by rw [hb, tail_getD]; exact h.2.2 (j + 1) (by omega)⟩

/-! ### A whole transfer -/

/-- What a transfer leaves in every case: all but memory, the clock, the bus, the free values and the written addresses. -/
structure Carries (s t : State) : Prop where
  cfg    : t.cfg = s.cfg
  regs   : t.regs = s.regs
  pc     : t.pc = s.pc
  cpsr   : t.cpsr = s.cpsr
  spsr   : t.spsr = s.spsr
  lines  : t.lines = s.lines
  coproc : t.coproc = s.coproc

theorem Carries.refl (s : State) : Carries s s := ⟨rfl, rfl, rfl, rfl, rfl, rfl, rfl⟩

theorem Carries.trans {s t u : State} (h : Carries s t) (h' : Carries t u) : Carries s u :=
  ⟨h'.cfg.trans h.cfg, h'.regs.trans h.regs, h'.pc.trans h.pc, h'.cpsr.trans h.cpsr, h'.spsr.trans h.spsr,
    h'.lines.trans h.lines, h'.coproc.trans h.coproc⟩

theorem manyAccesses_succ {n : Nat} {s t u : State} (hc : t.clock = s.clock + (s.nextAnswer.waits + 1))
    (hb : t.bus = s.bus.tail) (h : ManyAccesses n t u) : ManyAccesses (n + 1) s u := by
  refine ⟨?_, by rw [h.2, hb]; simp⟩
  rw [h.1, hc, hb, List.range_succ_eq_map]
  simp only [List.map_cons, List.map_map, List.sum_cons, nextAnswer_eq, tail_getD]
  have : (fun k => (s.bus.getD (k + 1) {}).waits + 1) = (fun k => (s.bus.getD k {}).waits + 1) ∘ Nat.succ := rfl
  rw [this]; omega

theorem four_toNat : (4 : Word).toNat = 4 := rfl

/-- Nothing covered by the first word of a window is covered by the rest. -/
theorem first_not_covered (a x : Word) (n : Nat) (hn : n < 2 ^ 30 - 1) (h : Covers (wordAddr a 0) 4 x) :
    ¬ Covers (wordAddr (a + 4) 0) (4 * n) x := by
  rw [covers_iff _ _ _ (by omega)] at h ⊢
  rw [wordAddr_toNat] at h ⊢
  rw [BitVec.toNat_add, four_toNat]
  obtain ⟨k, hk, hx⟩ := h
  rintro ⟨j, hj, hx'⟩
  have := a.isLt
  omega

/-- The window of n + 1 words is its first word and the window of the rest. -/
theorem covered_cons (a x : Word) (n : Nat) (hn : n < 2 ^ 30 - 1) : Covers (wordAddr a 0) (4 * (n + 1)) x ↔
    Covers (wordAddr a 0) 4 x ∨ Covers (wordAddr (a + 4) 0) (4 * n) x := by
  have := a.isLt
  rw [covers_iff _ _ _ (by omega), covers_iff _ _ _ (by omega), covers_iff _ _ _ (by omega)]
  simp only [wordAddr_toNat, BitVec.toNat_add, four_toNat]
  constructor
  · rintro ⟨k, hk, hx⟩
    by_cases h4 : k < 4
    · exact .inl ⟨k, h4, hx⟩
    · exact .inr ⟨k - 4, by omega, by omega⟩
  · rintro (⟨k, hk, hx⟩ | ⟨k, hk, hx⟩)
    · exact ⟨k, by omega, hx⟩
    · exact ⟨k + 4, by omega, by omega⟩

/-! ### The written addresses -/

/-- A write of any width makes its own bytes written addresses, and no other. -/
theorem writesJoin_storeBytes (s : State) (w : Width) (a v : Word) : WritesJoin a w.bytes s (s.storeBytes w a v) := by
  intro x
  rw [State.storeBytes_stored, AddrSet.mem_insertRange]
  simp only [BitVec.toNat_inj]; rfl

/-- No byte covered, no address written. -/
theorem WritesJoin.none {s t : State} (a : Word) (h : t.stored = s.stored) : WritesJoin a 0 s t := fun x => by
  rw [h]; exact ⟨.inl, fun hx => hx.elim id fun hc => by obtain ⟨k, hk, _⟩ := hc; omega⟩

/-- A word's bytes, and then those of the words after it. -/
theorem WritesJoin.cons {a : Word} {n : Nat} {s t u : State} (hn : n < 2 ^ 30 - 1) (h : WritesJoin (wordAddr a 0) 4 s t)
    (h' : WritesJoin (wordAddr (a + 4) 0) (4 * n) t u) : WritesJoin (wordAddr a 0) (4 * (n + 1)) s u := by
  intro x
  rw [h' x, h x, covered_cons a x n hn]
  tauto

/-- The write of a transfer's first word: which bytes it leaves, and which addresses it makes written ones. -/
theorem first_word_written (s : State) (clock : Nat) (bus : List BusAnswer) (a v : Word) :
    let m := ({ s with bus := bus, clock := clock } : State).storeBytes .word (alignWord a) v
    SameMemoryOutside (wordAddr a 0) 4 s m ∧ WritesJoin (wordAddr a 0) 4 s m := by
  rw [wordAddr_zero]
  exact ⟨fun x hx => write_outside s.mem .word _ _ _ hx, writesJoin_storeBytes _ .word _ v⟩

/-- Storing words with no abort: each word lands at its place, no other byte changes, the words' bytes become written
addresses, one access each. -/
theorem storeWords_done (vs : List Word) (k : Nat) (a : Word) (s : State) (hl : vs.length < 2 ^ 29)
    (h : NoAbortIn vs.length s) :
    ∃ t, storeWords vs k a s = .done () t ∧ Carries s t ∧ ManyAccesses vs.length s t ∧ t.draws = s.draws ∧
      SameMemoryOutside (wordAddr a 0) (4 * vs.length) s t ∧ WritesJoin (wordAddr a 0) (4 * vs.length) s t ∧
      ∀ j (hj : j < vs.length), HoldsBytes t (wordAddr a j) 4 vs[j] := by
  induction vs generalizing k a s with
  | nil => exact ⟨s, rfl, Carries.refl s, ⟨by simp, by simp⟩, rfl, fun _ _ => rfl, WritesJoin.none _ rfl,
      fun j hj => absurd hj (by simp)⟩
  | cons v vs ih =>
    have hna := NoAbortIn.head h
    simp only [List.length_cons] at hl ⊢
    set m := ({ s with bus := s.bus.tail, clock := s.clock + (s.nextAnswer.waits + 1) } : State).storeBytes .word
      (alignWord a) v with hm
    obtain ⟨t, ht, hc, hacc, hd, hout, hst, hold⟩ := ih (k + 1) (a + 4) m (by omega) (NoAbortIn.tail h rfl rfl)
    obtain ⟨hw, hj⟩ := first_word_written s m.clock m.bus a v
    refine ⟨t, ?_, ?_, manyAccesses_succ rfl rfl hacc, hd, ?_, hj.cons (by omega) hst, ?_⟩
    · simp only [storeWords, s.busWrite_ok .word (alignWord a) v hna]; exact ht
    · exact Carries.trans (t := m) ⟨rfl, rfl, rfl, rfl, rfl, rfl, rfl⟩ hc
    · exact (hw.mono fun x hx => (covered_cons a x _ (by omega)).mpr (.inl hx)).trans
        (hout.mono fun x hx => (covered_cons a x _ (by omega)).mpr (.inr hx))
    · intro j hj
      cases j with
      | zero =>
        intro i hi
        have hcov : Covers (wordAddr a 0) 4 (wordAddr a 0 + BitVec.ofNat 32 i) := ⟨i, hi, rfl⟩
        rw [hout _ (first_not_covered a _ _ (by omega) hcov), wordAddr_zero]
        exact holdsBytes_storeBytes _ .word (alignWord a) v i hi
      | succ j => rw [← wordAddr_succ]; exact hold j (by simpa using hj)

/-- Loading words with no abort: each word is what its read finds, memory is untouched, one access each. -/
theorem loadWords_done (n : Nat) (vs : List Word) (a : Word) (s : State) (h : NoAbortIn n s) :
    ∃ ws t, loadWords n vs a s = .done (vs ++ ws) t ∧ ws.length = n ∧ Carries s t ∧ ManyAccesses n s t ∧
      t.draws = s.draws ∧ t.mem = s.mem ∧ t.stored = s.stored ∧
      ∀ j (hj : j < ws.length), FindsAt j s .word (wordAddr a j) ws[j] := by
  induction n generalizing vs a s with
  | zero => exact ⟨[], s, by simp [loadWords], rfl, Carries.refl s, ⟨by simp, by simp⟩, rfl, rfl, rfl, fun j hj => absurd hj (by simp)⟩
  | succ n ih =>
    have hna := NoAbortIn.head h
    set v := s.readValue .word (alignWord a) with hv
    set m : State := { s with bus := s.bus.tail, clock := s.clock + (s.nextAnswer.waits + 1) } with hm
    obtain ⟨ws, t, ht, hlen, hc, hacc, hd, hmem, hst, hf⟩ := ih (vs ++ [v]) (a + 4) m (NoAbortIn.tail h rfl rfl)
    refine ⟨v :: ws, t, ?_, by simp [hlen], Carries.trans (t := m) ⟨rfl, rfl, rfl, rfl, rfl, rfl, rfl⟩ hc,
      manyAccesses_succ rfl rfl hacc, hd, hmem, hst, ?_⟩
    · simp only [loadWords, s.busRead_ok .word (alignWord a) hna]
      simpa using ht
    · intro j hj
      cases j with
      | zero =>
        unfold FindsAt
        simp only [List.getElem_cons_zero, hv, State.readValue, nextAnswer_eq]
        cases (s.bus.getD 0 {}).data with
        | some d => simp only [Width.trim, Width.bytes]; have := d.isLt; omega
        | none =>
          refine ⟨fun k hk => ?_, by have := (Memory.read s.mem .word (alignWord a)).isLt; simpa [Width.bytes] using this⟩
          rw [wordAddr_zero]; exact Memory.read_word_byte _ _ _ hk
      | succ j =>
        have := hf j (by simpa using hj)
        rw [wordAddr_succ] at this
        unfold FindsAt at this ⊢
        rw [show m.bus = s.bus.tail from rfl, tail_getD] at this
        exact this

/-- Storing words with an abort at the k-th access: k words were done, their bytes are the written ones, and no other byte
changed. -/
theorem storeWords_abort (vs : List Word) (k j : Nat) (a : Word) (s : State) (hl : vs.length < 2 ^ 29)
    (hk : k < vs.length) (h : AbortsAt k s) :
    ∃ t, storeWords vs j a s = .abort (j + k) t ∧ Carries s t ∧ SameMemoryOutside (wordAddr a 0) (4 * k) s t ∧
      WritesJoin (wordAddr a 0) (4 * k) s t := by
  induction vs generalizing k j a s with
  | nil => exact absurd hk (by simp)
  | cons v vs ih =>
    simp only [List.length_cons] at hl hk
    cases k with
    | zero =>
      refine ⟨{ s with bus := s.bus.tail, clock := s.clock + Config.freeCycles s.draws, draws := s.draws + 1 }, ?_,
        ⟨rfl, rfl, rfl, rfl, rfl, rfl, rfl⟩, fun _ _ => rfl, WritesJoin.none _ rfl⟩
      simp only [storeWords, s.busWrite_abort .word (alignWord a) v h.head]; rfl
    | succ k =>
      set m := ({ s with bus := s.bus.tail, clock := s.clock + (s.nextAnswer.waits + 1) } : State).storeBytes .word
        (alignWord a) v with hm
      obtain ⟨t, ht, hc, hout, hst⟩ := ih k (j + 1) (a + 4) m (by omega) (by omega) (h.tail rfl rfl)
      obtain ⟨hw, hj⟩ := first_word_written s m.clock m.bus a v
      refine ⟨t, ?_, Carries.trans (t := m) ⟨rfl, rfl, rfl, rfl, rfl, rfl, rfl⟩ hc, ?_, hj.cons (by omega) hst⟩
      · simp only [storeWords, s.busWrite_ok .word (alignWord a) v h.none]
        rw [show j + (k + 1) = j + 1 + k by omega]; exact ht
      · exact (hw.mono fun x hx => (covered_cons a x _ (by omega)).mpr (.inl hx)).trans
          (hout.mono fun x hx => (covered_cons a x _ (by omega)).mpr (.inr hx))

/-- Loading words with an abort at the k-th access: memory is untouched. -/
theorem loadWords_abort (n k : Nat) (vs : List Word) (a : Word) (s : State) (hk : k < n) (h : AbortsAt k s) :
    ∃ t, loadWords n vs a s = .abort (vs.length + k) t ∧ Carries s t ∧ t.mem = s.mem := by
  induction n generalizing k vs a s with
  | zero => exact absurd hk (by simp)
  | succ n ih =>
    cases k with
    | zero =>
      refine ⟨{ s with bus := s.bus.tail, clock := s.clock + Config.freeCycles s.draws, draws := s.draws + 1 }, ?_,
        ⟨rfl, rfl, rfl, rfl, rfl, rfl, rfl⟩, rfl⟩
      simp only [loadWords, s.busRead_abort .word (alignWord a) h.head]; rfl
    | succ k =>
      set m : State := { s with bus := s.bus.tail, clock := s.clock + (s.nextAnswer.waits + 1) } with hm
      obtain ⟨t, ht, hc, hmem⟩ := ih k (vs ++ [s.readValue .word (alignWord a)]) (a + 4) m (by omega) (h.tail rfl rfl)
      refine ⟨t, ?_, Carries.trans (t := m) ⟨rfl, rfl, rfl, rfl, rfl, rfl, rfl⟩ hc, hmem⟩
      simp only [loadWords, s.busRead_ok .word (alignWord a) h.none]
      rw [ht, List.length_append, List.length_singleton]
      congr 1; omega

/-- The words already written, made free, change no other byte. -/
theorem spoilWords_outside (s : State) (a : Word) (k : Nat) (hk : k < 2 ^ 29) :
    SameMemoryOutside (wordAddr a 0) (4 * k) s (s.spoilWords a k) := by
  induction k generalizing s a with
  | zero => exact fun _ _ => rfl
  | succ k ih =>
    refine SameMemoryOutside.trans (t := { s.drawn with mem := Memory.write s.mem .word (alignWord a) s.freeWord }) ?_ ?_
    · intro x hx
      refine write_outside s.mem .word _ _ _ fun hc => hx ((covered_cons a x k (by omega)).mpr (.inl ?_))
      rw [wordAddr_zero]; exact hc
    · exact (ih _ (a + 4) (by omega)).mono fun x hx => (covered_cons a x _ (by omega)).mpr (.inr hx)

/-! ### Register lists -/

/-- A register is listed when its bit is set. -/
theorem mem_listed (rlist : BitVec 8) (k : Fin 8) : k ∈ listed rlist ↔ rlist.getLsbD k.val = true := by
  unfold listed
  rw [List.mem_filter]
  exact ⟨fun h => h.2, fun h => ⟨by fin_cases k <;> simp, h⟩⟩

/-- The place of a listed register in the list is the number of listed registers below it. -/
theorem listed_getElem (rlist : BitVec 8) (k : Fin 8) (h : rlist.getLsbD k.val = true) :
    (listed rlist)[rankIn rlist k.val]? = some k := by
  revert h
  have : ∀ (r : BitVec 8) (k : Fin 8), r.getLsbD k.val = true → (listed r)[rankIn r k.val]? = some k := by decide
  exact this rlist k

/-- How many registers are listed. -/
theorem listed_length (rlist : BitVec 8) : (listed rlist).length = rankIn rlist 8 := by
  have : ∀ r : BitVec 8, (listed r).length = rankIn r 8 := by decide
  exact this rlist

/-- The listed registers are distinct. -/
theorem listed_nodup (rlist : BitVec 8) : (listed rlist).Nodup := by
  unfold listed
  exact List.Nodup.filter _ (by decide)

/-- A register after a list of writes: its own word where it is in the list, its old value elsewhere. -/
theorem State.setLows_cell (s : State) (rs : List (Fin 8)) (vs : List Word) (c : Cell) (hn : rs.Nodup)
    (hl : vs.length = rs.length) :
    (∀ j (hj : j < rs.length), c = .low rs[j] → (s.setLows rs vs).cell c = vs[j]) ∧
    ((∀ r, r ∈ rs → c ≠ .low r) → (s.setLows rs vs).cell c = s.cell c) := by
  induction rs generalizing s vs with
  | nil => exact ⟨fun j hj => absurd hj (by simp), fun _ => by simp [State.setLows]⟩
  | cons r rs ih =>
    cases vs with
    | nil => exact absurd hl (by simp)
    | cons v vs =>
      obtain ⟨hr, hn'⟩ := List.nodup_cons.mp hn
      obtain ⟨h1, h2⟩ := ih (s.setLow r v) vs hn' (by simpa using hl)
      refine ⟨fun j hj hc => ?_, fun hc => ?_⟩
      · cases j with
        | zero =>
          simp only [List.getElem_cons_zero] at hc
          simp only [State.setLows, List.getElem_cons_zero]
          rw [h2 fun r' hr' he => hr (by rw [hc] at he; cases he; exact hr')]
          simp [hc]
        | succ j =>
          simp only [State.setLows, List.getElem_cons_succ]
          exact h1 j (by simpa using hj) hc
      · simp only [State.setLows]
        rw [h2 fun r' hr' => hc r' (List.mem_cons_of_mem _ hr')]
        simp [hc r List.mem_cons_self]

end Sys2Proof.Machine
end

