-- ==== Sys2Proof/Tests/Slice0.lean ====
section
/-! SUPPORT. The author's tests. The words and the expected results are those of the spec: the format tables of
30_encoding.md and the vectors of 95_test_vectors.md (Part 2 unless a test says otherwise). The last part shows, for every
statement with hypotheses, a state and operands that meet them. -/

namespace Sys2Proof.Tests

open Sys2Proof.Machine

/-! ### Well-formed terms -/

theorem test_wellFormed_refuses_empty_push : (Instr.push false 0).wellFormed = false := by decide

theorem test_wellFormed_refuses_empty_pop : (Instr.pop false 0).wellFormed = false := by decide

theorem test_wellFormed_accepts_lr_and_pc : (Instr.push true 0).wellFormed && (Instr.pop true 0).wellFormed := by decide

theorem test_wellFormed_accepts_empty_block : (Instr.stmia 0 0).wellFormed && (Instr.ldmia 7 0).wellFormed := by decide

/-! ### Words from the format tables (30_encoding.md R74 to R94), every constructor -/

theorem test_decode_f1 :
    decode 0b0000000001010011#16 = .lslImm 3 2 1 ∧
    decode 0b0000100000001000#16 = .lsrImm 0 1 0 ∧
    decode 0b0001011111111000#16 = .asrImm 0 7 31 := by decide

theorem test_decode_f2 :
    decode 0b0001100110101100#16 = .addReg 4 5 6 ∧
    decode 0b0001101001010011#16 = .subReg 3 2 1 ∧
    decode 0b0001110111000001#16 = .addImm3 1 0 7 ∧
    decode 0b0001111001010100#16 = .subImm3 4 2 1 := by decide

theorem test_decode_f3 :
    decode 0b0010010110000001#16 = .movImm 5 0x81 ∧
    decode 0b0010111011111110#16 = .cmpImm 6 0xFE ∧
    decode 0b0011001100000001#16 = .addImm8 3 1 ∧
    decode 0b0011111101111111#16 = .subImm8 7 0x7F := by decide

theorem test_decode_f4_low :
    decode 0b0100000000001010#16 = .and 2 1 ∧
    decode 0b0100000001001010#16 = .eor 2 1 ∧
    decode 0b0100000010001010#16 = .lslReg 2 1 ∧
    decode 0b0100000011001010#16 = .lsrReg 2 1 ∧
    decode 0b0100000100001010#16 = .asrReg 2 1 ∧
    decode 0b0100000101001010#16 = .adc 2 1 ∧
    decode 0b0100000110001010#16 = .sbc 2 1 ∧
    decode 0b0100000111001010#16 = .ror 2 1 := by decide

theorem test_decode_f4_high :
    decode 0b0100001000011100#16 = .tst 4 3 ∧
    decode 0b0100001001011100#16 = .neg 4 3 ∧
    decode 0b0100001010011100#16 = .cmpReg 4 3 ∧
    decode 0b0100001011011100#16 = .cmn 4 3 ∧
    decode 0b0100001100011100#16 = .orr 4 3 ∧
    decode 0b0100001101011100#16 = .mul 4 3 ∧
    decode 0b0100001110011100#16 = .bic 4 3 ∧
    decode 0b0100001111011100#16 = .mvn 4 3 := by decide

theorem test_decode_f5 :
    decode 0b0100010010000101#16 = .addHi 13 0 ∧
    decode 0b0100010101010011#16 = .cmpHi 3 10 ∧
    decode 0b0100011011110111#16 = .movHi 15 14 ∧
    decode 0b0100011101110000#16 = .bx 14 0 ∧
    decode 0b0100011100001101#16 = .bx 1 5 ∧
    decode 0b0100011110011000#16 = .blxReg 3 0 := by decide

theorem test_decode_f6_f7_f8 :
    decode 0b0100101100000001#16 = .ldrPc 3 1 ∧
    decode 0b0101000010001000#16 = .strReg 0 1 2 ∧
    decode 0b0101010010001000#16 = .strbReg 0 1 2 ∧
    decode 0b0101100010001000#16 = .ldrReg 0 1 2 ∧
    decode 0b0101110010001000#16 = .ldrbReg 0 1 2 ∧
    decode 0b0101001010001000#16 = .strhReg 0 1 2 ∧
    decode 0b0101011010001000#16 = .ldrsbReg 0 1 2 ∧
    decode 0b0101101010001000#16 = .ldrhReg 0 1 2 ∧
    decode 0b0101111010001000#16 = .ldrshReg 0 1 2 := by decide

theorem test_decode_f9_f10_f11 :
    decode 0b0110000001001000#16 = .strImm 0 1 1 ∧
    decode 0b0110111111001000#16 = .ldrImm 0 1 31 ∧
    decode 0b0111011111001000#16 = .strbImm 0 1 31 ∧
    decode 0b0111100011100101#16 = .ldrbImm 5 4 3 ∧
    decode 0b1000000001001000#16 = .strhImm 0 1 1 ∧
    decode 0b1000111111001000#16 = .ldrhImm 0 1 31 ∧
    decode 0b1001000000000001#16 = .strSp 0 1 ∧
    decode 0b1001100111111111#16 = .ldrSp 1 0xFF := by decide

theorem test_decode_f12_f13_f14_f15 :
    decode 0b1010000000000010#16 = .addPc 0 2 ∧
    decode 0b1010110100000001#16 = .addSp 5 1 ∧
    decode 0b1011000001111111#16 = .addSpImm 0x7F ∧
    decode 0b1011000010000001#16 = .subSpImm 1 ∧
    decode 0b1011010100000011#16 = .push true 3 ∧
    decode 0b1011010010000000#16 = .push false 0x80 ∧
    decode 0b1011110100000001#16 = .pop true 1 ∧
    decode 0b1100000000000110#16 = .stmia 0 6 ∧
    decode 0b1100100100000011#16 = .ldmia 1 3 := by decide

theorem test_decode_f16_low :
    decode 0b1101000000010000#16 = .beq 0x10 ∧
    decode 0b1101000101111111#16 = .bne 0x7F ∧
    decode 0b1101001000010000#16 = .bcs 0x10 ∧
    decode 0b1101001100010000#16 = .bcc 0x10 ∧
    decode 0b1101010000010000#16 = .bmi 0x10 ∧
    decode 0b1101010100010000#16 = .bpl 0x10 ∧
    decode 0b1101011000010000#16 = .bvs 0x10 ∧
    decode 0b1101011100010000#16 = .bvc 0x10 := by decide

theorem test_decode_f16_high :
    decode 0b1101100000010000#16 = .bhi 0x10 ∧
    decode 0b1101100100010000#16 = .bls 0x10 ∧
    decode 0b1101101000010000#16 = .bge 0x10 ∧
    decode 0b1101101111110000#16 = .blt 0xF0 ∧
    decode 0b1101110000010000#16 = .bgt 0x10 ∧
    decode 0b1101110110000000#16 = .ble 0x80 ∧
    decode 0b1101111000000001#16 = .udfDE 1 ∧
    decode 0b1101111100000101#16 = .swi 5 := by decide

theorem test_decode_f18_f19 :
    decode 0b1110011111111110#16 = .b 0x7FE ∧
    decode 0b1110100000100000#16 = .blxSuffix 0x20 ∧
    decode 0b1111010000000000#16 = .blPrefix 0x400 ∧
    decode 0b1111100000100001#16 = .blSuffix 0x21 := by decide

theorem test_decode_undefined_rows :
    decode 0b1011000100000001#16 = .udfB1 1 ∧
    decode 0b1011001000000001#16 = .udfB2B3 1 ∧
    decode 0b1011001100000000#16 = .udfB2B3 0x100 ∧
    decode 0b1011011000000010#16 = .udfB6B7 2 ∧
    decode 0b1011101100000000#16 = .udfB8BB 0x300 ∧
    decode 0b1011111000000000#16 = .udfBEBF 0 ∧
    decode 0b1011111100000011#16 = .udfBEBF 0x103 := by decide

theorem test_decodeTableWord : decodeTableWord 16 0x1840 = some (.addReg 0 0 1) := by decide

theorem test_decode_truncated : decodeBytes [0x40] = .error .truncated := by decide

/-! ### One step

The start of 95_test_vectors.md: ARMv5, the parameters at their defaults, System mode, T = 1, I = F = 0, NZCV 0000,
A = 0x1000, all registers 0 here. -/

/-- The start state. -/
def sys : State :=
  { State.powerOn { arch := .armv5 } with
    regs := { low := Vector.replicate 8 0, usrHi := Vector.replicate 5 0, fiqHi := Vector.replicate 5 0,
              sp := Vector.replicate 6 0, lr := Vector.replicate 6 0 }
    pc   := 0x1000
    cpsr := Psr.ofWord 0x0000003F }

/-- The start state with the flags N Z C V. -/
def flags (nzcv : BitVec 4) : State :=
  { sys with cpsr := { sys.cpsr with n := nzcv.getLsbD 3, z := nzcv.getLsbD 2, c := nzcv.getLsbD 1, v := nzcv.getLsbD 0 } }

/-- The start state on ARMv4. -/
def onV4 (s : State) : State := { s with cfg := { s.cfg with arch := .armv4 } }

/-- The start state in User mode. -/
def user : State := { sys with cpsr := Psr.ofWord 0x00000030 }

/-- A word of memory before the step. -/
def put (s : State) (a v : Word) : State := { s with mem := Memory.write s.mem .word a v }

/-- The word of memory at an address. -/
def wordAt (s : State) (a : Word) : Word := Memory.read s.mem .word a

/-- N Z C V after. -/
def nzcv (s : State) : BitVec 4 :=
  BitVec.ofBool s.cpsr.n ++ BitVec.ofBool s.cpsr.z ++ BitVec.ofBool s.cpsr.c ++ BitVec.ofBool s.cpsr.v

/-- A refusal, by name. -/
def refusedWith (r : Result) (why : Refusal) : Bool :=
  match r with
  | .next _ => false
  | .fault _ => false
  | .refused x => x == why

/-- The step that runs `op` answers a next state of which `p` holds. -/
def gives (s : State) (op : Nat) (p : State → Bool) : Bool :=
  match step (s.withFetchWord 16 op) with
  | .next t => p t
  | .fault _ => false
  | .refused _ => false

theorem test_lsl_imm_0_keeps_c :
    gives (((flags 0b0010).setLow 1 0x80000001)) 0x0008
      (fun t => t.low 0 == 0x80000001 && nzcv t == 0b1010#4) = true := by decide

theorem test_lsl_imm_31 :
    gives ((sys.setLow 1 3)) 0x07C8
      (fun t => t.low 0 == 0x80000000 && nzcv t == 0b1010#4 && t.pc == 0x1002) = true := by decide

theorem test_lsr_imm_0_is_32 :
    gives ((sys.setLow 1 0x80000000)) 0x0808 (fun t => t.low 0 == 0 && nzcv t == 0b0110#4) = true := by decide

theorem test_lsr_imm_1 :
    gives ((sys.setLow 1 3)) 0x0848 (fun t => t.low 0 == 1 && nzcv t == 0b0010#4) = true := by decide

theorem test_asr_imm_0_is_32 :
    gives (((flags 0b0011).setLow 1 0x7FFFFFFF)) 0x1008
      (fun t => t.low 0 == 0 && nzcv t == 0b0101#4) = true := by decide

theorem test_asr_imm_4 :
    gives ((sys.setLow 1 0xF0000010)) 0x1108
      (fun t => t.low 0 == 0xFF000001 && nzcv t == 0b1000#4) = true := by decide

theorem test_add_reg_carries :
    gives (((sys.setLow 0 0xFFFFFFFF).setLow 1 1)) 0x1840
      (fun t => t.low 0 == 0 && nzcv t == 0b0110#4) = true := by decide

theorem test_add_reg_overflows :
    gives (((sys.setLow 0 0x7FFFFFFF).setLow 1 1)) 0x1840
      (fun t => t.low 0 == 0x80000000 && nzcv t == 0b1001#4) = true := by decide

theorem test_sub_reg_borrows :
    gives (((sys.setLow 1 0).setLow 2 1)) 0x1A88
      (fun t => t.low 0 == 0xFFFFFFFF && nzcv t == 0b1000#4) = true := by decide

theorem test_sub_reg_overflows :
    gives (((sys.setLow 1 0x80000000).setLow 2 1)) 0x1A88
      (fun t => t.low 0 == 0x7FFFFFFF && nzcv t == 0b0011#4) = true := by decide

theorem test_add_imm3_zero_clears_c_v :
    gives ((flags 0b1011)) 0x1C08 (fun t => t.low 0 == 0 && nzcv t == 0b0100#4) = true := by decide

theorem test_sub_imm3_zero_sets_c :
    gives ((sys.setLow 1 5)) 0x1E08 (fun t => t.low 0 == 5 && nzcv t == 0b0010#4) = true := by decide

theorem test_mov_imm_keeps_c_v :
    gives ((flags 0b1011)) 0x2000 (fun t => t.low 0 == 0 && nzcv t == 0b0111#4) = true := by decide

theorem test_cmp_imm :
    gives (sys) 0x2801 (fun t => t.low 0 == 0 && nzcv t == 0b1000#4) = true := by decide

theorem test_add_imm8_wraps :
    gives ((sys.setLow 0 0xFFFFFF01)) 0x30FF (fun t => t.low 0 == 0 && nzcv t == 0b0110#4) = true := by decide

theorem test_sub_imm8_overflows :
    gives ((sys.setLow 0 0x80000000)) 0x3801
      (fun t => t.low 0 == 0x7FFFFFFF && nzcv t == 0b0011#4) = true := by decide

theorem test_and_keeps_c_v :
    gives ((((flags 0b0011).setLow 0 0xF0F0).setLow 1 0xFF00)) 0x4008
      (fun t => t.low 0 == 0xF000 && nzcv t == 0b0011#4) = true := by decide

theorem test_eor :
    gives (((sys.setLow 0 0xF0F0).setLow 1 0xFF00)) 0x4048
      (fun t => t.low 0 == 0x0FF0 && nzcv t == 0b0000#4) = true := by decide

theorem test_lsl_reg_32 :
    gives (((sys.setLow 0 1).setLow 1 32)) 0x4088 (fun t => t.low 0 == 0 && nzcv t == 0b0110#4) = true := by decide

theorem test_lsl_reg_low_byte_0 :
    gives ((((flags 0b0010).setLow 0 1).setLow 1 0x100)) 0x4088
      (fun t => t.low 0 == 1 && nzcv t == 0b0010#4) = true := by decide

theorem test_lsr_reg_32 :
    gives (((sys.setLow 0 0x80000000).setLow 1 32)) 0x40C8
      (fun t => t.low 0 == 0 && nzcv t == 0b0110#4) = true := by decide

theorem test_lsr_reg_33 :
    gives ((((flags 0b0010).setLow 0 0x80000000).setLow 1 33)) 0x40C8
      (fun t => t.low 0 == 0 && nzcv t == 0b0100#4) = true := by decide

theorem test_asr_reg_40_negative :
    gives (((sys.setLow 0 0x80000000).setLow 1 40)) 0x4108
      (fun t => t.low 0 == 0xFFFFFFFF && nzcv t == 0b1010#4) = true := by decide

theorem test_asr_reg_40_positive :
    gives ((((flags 0b0010).setLow 0 0x7FFFFFFF).setLow 1 40)) 0x4108
      (fun t => t.low 0 == 0 && nzcv t == 0b0100#4) = true := by decide

theorem test_adc_source_v_of_base :
    gives (((flags 0b0010).setLow 0 0x7FFFFFFF)) 0x4148
      (fun t => t.low 0 == 0x80000000 && nzcv t == 0b1000#4) = true := by decide

theorem test_adc_architectural :
    gives ({ ((flags 0b0010).setLow 0 0x7FFFFFFF) with cfg := { arch := .armv5, adcSbcFlags := .architectural } }) 0x4148
      (fun t => t.low 0 == 0x80000000 && nzcv t == 0b1001#4) = true := by decide

theorem test_sbc_source_c_of_base :
    gives (sys) 0x4188 (fun t => t.low 0 == 0xFFFFFFFF && nzcv t == 0b1010#4) = true := by decide

theorem test_sbc_architectural :
    gives ({ sys with cfg := { arch := .armv5, adcSbcFlags := .architectural } }) 0x4188
      (fun t => t.low 0 == 0xFFFFFFFF && nzcv t == 0b1000#4) = true := by decide

theorem test_ror_0_keeps_c_v :
    gives (((flags 0b0001).setLow 0 0x80000001)) 0x41C8
      (fun t => t.low 0 == 0x80000001 && nzcv t == 0b1001#4) = true := by decide

theorem test_ror_36 :
    gives (((sys.setLow 0 0x12345678).setLow 1 36)) 0x41C8
      (fun t => t.low 0 == 0x81234567 && nzcv t == 0b1010#4) = true := by decide

theorem test_tst_writes_no_register :
    gives ((((flags 0b0011).setLow 0 0xF0).setLow 1 0x0F)) 0x4208
      (fun t => t.low 0 == 0xF0 && nzcv t == 0b0111#4) = true := by decide

theorem test_neg_0 :
    gives (sys) 0x4248 (fun t => t.low 0 == 0 && nzcv t == 0b0110#4) = true := by decide

theorem test_neg_most_negative :
    gives ((sys.setLow 1 0x80000000)) 0x4248
      (fun t => t.low 0 == 0x80000000 && nzcv t == 0b1001#4) = true := by decide

theorem test_cmp_reg :
    gives (((sys.setLow 0 3).setLow 1 5)) 0x4288 (fun t => t.low 0 == 3 && nzcv t == 0b1000#4) = true := by decide

theorem test_cmn :
    gives (((sys.setLow 0 0xFFFFFFFF).setLow 1 1)) 0x42C8
      (fun t => t.low 0 == 0xFFFFFFFF && nzcv t == 0b0110#4) = true := by decide

theorem test_orr :
    gives (((sys.setLow 0 0xF0).setLow 1 0x0F)) 0x4308
      (fun t => t.low 0 == 0xFF && nzcv t == 0b0000#4) = true := by decide

theorem test_mul_armv5_keeps_c_v :
    gives ((((flags 0b0011).setLow 0 0x10000).setLow 1 0x10000)) 0x4348
      (fun t => t.low 0 == 0 && nzcv t == 0b0111#4) = true := by decide

theorem test_mul_armv4_clears_c :
    gives ((onV4 (((flags 0b0011).setLow 0 0x10000).setLow 1 0x10000))) 0x4348
      (fun t => t.low 0 == 0 && nzcv t == 0b0101#4) = true := by decide

theorem test_bic :
    gives (((sys.setLow 0 0xFF).setLow 1 0x0F)) 0x4388
      (fun t => t.low 0 == 0xF0 && nzcv t == 0b0000#4) = true := by decide

theorem test_mvn :
    gives (sys) 0x43C8 (fun t => t.low 0 == 0xFFFFFFFF && nzcv t == 0b1000#4) = true := by decide

theorem test_add_hi_r8 :
    gives (((flags 0b1111).setCell (.usrHi 0) 0x100).setLow 0 0x20) 0x4480
      (fun t => t.cell (.usrHi 0) == 0x120 && nzcv t == 0b1111#4) = true := by decide

theorem test_add_hi_pc :
    gives ((sys.setLow 0 0x11)) 0x4487 (fun t => t.pc == 0x1014 && t.cpsr.t) = true := by decide

theorem test_cmp_hi :
    gives ((sys.setCell (.usrHi 0) 0x100).setLow 0 0x100) 0x4580 (fun t => nzcv t == 0b0110#4) = true := by decide

theorem test_mov_hi_pc_lr :
    gives (sys.setLr 0x2005) 0x46F7 (fun t => t.pc == 0x2004 && t.cpsr.t) = true := by decide

theorem test_mov_hi_r8_r8 :
    gives ((flags 0b1010).setCell (.usrHi 0) 7) 0x46C0
      (fun t => t.cell (.usrHi 0) == 7 && nzcv t == 0b1010#4 && t.pc == 0x1002) = true := by decide

theorem test_bx_to_arm :
    gives ((sys.setLow 0 0x08000102)) 0x4700 (fun t => t.pc == 0x08000100 && !t.cpsr.t) = true := by decide

theorem test_bx_to_thumb :
    gives ((sys.setLow 1 0x08000201)) 0x4708 (fun t => t.pc == 0x08000200 && t.cpsr.t) = true := by decide

theorem test_blx_lr_reads_the_target_first :
    gives (sys.setLr 0x3001) 0x47F0 (fun t => t.pc == 0x3000 && t.lr == 0x1003) = true := by decide

theorem test_blx_armv4_is_undefined :
    gives ((onV4 ((sys.setLow 3 0x2001)))) 0x4798
      (fun t => t.cpsr.m == 0x1B#5 && t.cell (.lr .und) == 0x1002 && t.spsr.und.toWord == 0x3F && t.pc == 4) = true := by decide

theorem test_ldr_pc_clears_bit_1 :
    gives (put { sys with pc := 0x102 } 0x108 0xDEADBEEF) 0x4B01
      (fun t => t.low 3 == 0xDEADBEEF && t.pc == 0x104) = true := by decide

theorem test_str_reg_ignores_low_bits :
    gives ((((sys.setLow 0 0xAABBCCDD).setLow 1 0x2001).setLow 2 4)) 0x5088
      (fun t => wordAt t 0x2004 == 0xAABBCCDD) = true := by decide

theorem test_strb_reg :
    gives (put (((sys.setLow 0 0xAABBCCDD).setLow 1 0x2000).setLow 2 5) 0x2004 0x11111111) 0x5488
      (fun t => wordAt t 0x2004 == 0x1111DD11) = true := by decide

theorem test_ldr_reg_rotates_8 :
    gives (put (sys.setLow 1 0x2001) 0x2000 0x44332211) 0x5888 (fun t => t.low 0 == 0x11443322) = true := by decide

theorem test_ldr_reg_rotates_24 :
    gives (put (sys.setLow 1 0x2003) 0x2000 0x44332211) 0x5888 (fun t => t.low 0 == 0x33221144) = true := by decide

theorem test_ldrb_reg :
    gives (put ((sys.setLow 1 0x2000).setLow 2 3) 0x2000 0x84332211) 0x5C88
      (fun t => t.low 0 == 0x84) = true := by decide

theorem test_strh_reg :
    gives (put (((sys.setLow 0 0xAABBCCDD).setLow 1 0x2000).setLow 2 2) 0x2000 0x11111111) 0x5288
      (fun t => wordAt t 0x2000 == 0xCCDD1111) = true := by decide

theorem test_ldrsb_reg :
    gives (put ((sys.setLow 1 0x2000).setLow 2 3) 0x2000 0x84332211) 0x5688
      (fun t => t.low 0 == 0xFFFFFF84) = true := by decide

theorem test_ldrh_reg :
    gives (put ((sys.setLow 1 0x2000).setLow 2 2) 0x2000 0x84332211) 0x5A88
      (fun t => t.low 0 == 0x8433) = true := by decide

theorem test_ldrh_reg_odd_force_align :
    gives ({ put (sys.setLow 1 0x2001) 0x2000 0x84332211 with cfg := { arch := .armv5, misalignedHalfword := .forceAlign } }) 0x5A88
      (fun t => t.low 0 == 0x11000022) = true := by decide

theorem test_ldrsh_reg :
    gives (put ((sys.setLow 1 0x2000).setLow 2 2) 0x2000 0x84332211) 0x5E88
      (fun t => t.low 0 == 0xFFFF8433) = true := by decide

theorem test_ldrsh_reg_odd_force_align :
    gives ({ put (sys.setLow 1 0x2001) 0x2000 0x84338211 with cfg := { arch := .armv5, misalignedHalfword := .forceAlign } }) 0x5E88
      (fun t => t.low 0 == 0xFFFFFF82) = true := by decide

theorem test_str_imm :
    gives (((sys.setLow 0 0x55).setLow 1 0x2000)) 0x6048 (fun t => wordAt t 0x2004 == 0x55) = true := by decide

theorem test_ldr_imm :
    gives (put (sys.setLow 1 0x2000) 0x207C 0xCAFEBABE) 0x6FC8 (fun t => t.low 0 == 0xCAFEBABE) = true := by decide

theorem test_strb_imm :
    gives (((sys.setLow 0 0x1FF).setLow 1 0x2000)) 0x77C8 (fun t => wordAt t 0x201C == 0xFF000000) = true := by decide

theorem test_ldrb_imm :
    gives (put (sys.setLow 1 0x2000) 0x201C 0xAB000000) 0x7FC8 (fun t => t.low 0 == 0xAB) = true := by decide

theorem test_strh_imm :
    gives (((sys.setLow 0 0x12345678).setLow 1 0x2000)) 0x8048
      (fun t => wordAt t 0x2000 == 0x56780000) = true := by decide

theorem test_ldrh_imm :
    gives (put (sys.setLow 1 0x2000) 0x203C 0xBEEF0000) 0x8FC8 (fun t => t.low 0 == 0xBEEF) = true := by decide

theorem test_str_sp :
    gives (((sys.setLow 0 0x77)).setSp 0x3000) 0x9001
      (fun t => wordAt t 0x3004 == 0x77 && t.sp == 0x3000) = true := by decide

theorem test_ldr_sp :
    gives (put (sys.setSp 0x3000) 0x33FC 0x99) 0x99FF (fun t => t.low 1 == 0x99) = true := by decide

theorem test_add_pc_clears_bit_1 :
    gives ({ sys with pc := 0x1002 }) 0xA002 (fun t => t.low 0 == 0x100C) = true := by decide

theorem test_add_sp_as_it_is :
    gives (sys.setSp 0x3001) 0xA8FF (fun t => t.low 0 == 0x33FD) = true := by decide

theorem test_add_sp_imm :
    gives ((flags 0b1111).setSp 0x3000) 0xB07F (fun t => t.sp == 0x31FC && nzcv t == 0b1111#4) = true := by decide

theorem test_sub_sp_imm_wraps :
    gives (sys.setSp 0) 0xB081 (fun t => t.sp == 0xFFFFFFFC) = true := by decide

theorem test_push :
    gives ((((((sys.setLow 0 1).setLow 1 2)).setSp 0x3000).setLr 0x1235)) 0xB503
      (fun t => wordAt t 0x2FF4 == 1 && wordAt t 0x2FF8 == 2 && wordAt t 0x2FFC == 0x1235 && t.sp == 0x2FF4) = true := by decide

theorem test_pop_pc_armv5_even :
    gives (put (({ sys with pc := 0x8000 } : State).setSp 0x1000) 0x1000 0x90000000) 0xBD00
      (fun t => t.pc == 0x90000000 && !t.cpsr.t && t.sp == 0x1004) = true := by decide

theorem test_pop_pc_armv4_even :
    gives (onV4 (put (({ sys with pc := 0x8000 } : State).setSp 0x1000) 0x1000 0x90000002)) 0xBD00
      (fun t => t.pc == 0x90000002 && t.cpsr.t && t.sp == 0x1004) = true := by decide

theorem test_stmia_base_first_misaligned :
    gives ((((sys.setLow 0 0x2002).setLow 1 1).setLow 2 2)) 0xC007
      (fun t => wordAt t 0x2000 == 0x2002 && wordAt t 0x2004 == 1 && wordAt t 0x2008 == 2 && t.low 0 == 0x200E) = true := by decide

theorem test_stmia_base_not_first_armv4 :
    gives (onV4 (((sys.setLow 1 0x2000).setLow 0 9))) 0xC103
      (fun t => wordAt t 0x2000 == 9 && wordAt t 0x2004 == 0x2008 && t.low 1 == 0x2008) = true := by decide

theorem test_ldmia_base_in_list :
    gives (put (put ((sys.setLow 0 0x2000)) 0x2000 0x11) 0x2004 0x22) 0xC803
      (fun t => t.low 0 == 0x11 && t.low 1 == 0x22) = true := by decide

theorem test_ldmia_empty_armv4 :
    gives (onV4 (put ((sys.setLow 0 0x2000)) 0x2000 0x3001)) 0xC800
      (fun t => t.low 0 == 0x2040 && t.pc == 0x3000 && t.cpsr.t) = true := by decide

theorem test_beq_taken :
    gives ((flags 0b0100)) 0xD010 (fun t => t.pc == 0x1024 && nzcv t == 0b0100#4) = true := by decide

theorem test_bne_taken :
    gives ((flags 0b0000)) 0xD110 (fun t => t.pc == 0x1024 && nzcv t == 0b0000#4) = true := by decide

theorem test_bcs_taken :
    gives ((flags 0b0010)) 0xD210 (fun t => t.pc == 0x1024 && nzcv t == 0b0010#4) = true := by decide

theorem test_bcc_not_taken :
    gives ((flags 0b0010)) 0xD310 (fun t => t.pc == 0x1002 && nzcv t == 0b0010#4) = true := by decide

theorem test_bmi_taken :
    gives ((flags 0b1000)) 0xD410 (fun t => t.pc == 0x1024 && nzcv t == 0b1000#4) = true := by decide

theorem test_bpl_not_taken :
    gives ((flags 0b1000)) 0xD510 (fun t => t.pc == 0x1002 && nzcv t == 0b1000#4) = true := by decide

theorem test_bvs_taken :
    gives ((flags 0b0001)) 0xD610 (fun t => t.pc == 0x1024 && nzcv t == 0b0001#4) = true := by decide

theorem test_bvc_not_taken :
    gives ((flags 0b0001)) 0xD710 (fun t => t.pc == 0x1002 && nzcv t == 0b0001#4) = true := by decide

theorem test_bhi_not_taken :
    gives ((flags 0b0110)) 0xD810 (fun t => t.pc == 0x1002 && nzcv t == 0b0110#4) = true := by decide

theorem test_bls_taken :
    gives ((flags 0b0110)) 0xD910 (fun t => t.pc == 0x1024 && nzcv t == 0b0110#4) = true := by decide

theorem test_bge_taken :
    gives ((flags 0b1001)) 0xDA10 (fun t => t.pc == 0x1024 && nzcv t == 0b1001#4) = true := by decide

theorem test_blt_taken :
    gives ((flags 0b1000)) 0xDB10 (fun t => t.pc == 0x1024 && nzcv t == 0b1000#4) = true := by decide

theorem test_bgt_not_taken :
    gives ((flags 0b0100)) 0xDC10 (fun t => t.pc == 0x1002 && nzcv t == 0b0100#4) = true := by decide

theorem test_ble_taken :
    gives ((flags 0b0001)) 0xDD10 (fun t => t.pc == 0x1024 && nzcv t == 0b0001#4) = true := by decide

theorem test_beq_wraps_below_0 :
    gives ({ flags 0b0100 with pc := 0x20 }) 0xD080 (fun t => t.pc == 0xFFFFFF24) = true := by decide

theorem test_cond_14_is_undefined :
    gives (user) 0xDE00
      (fun t => t.cpsr.toWord == 0x9B && t.cell (.lr .und) == 0x1002 && t.spsr.und.toWord == 0x30 && t.pc == 4) = true := by decide

theorem test_swi :
    gives ({ user with pc := 0x2FFE }) 0xDF00
      (fun t => t.cpsr.toWord == 0x93 && t.cell (.lr .svc) == 0x3000 && t.spsr.svc.toWord == 0x30 && t.pc == 8) = true := by decide

theorem test_b_most_negative :
    gives (sys) 0xE400 (fun t => t.pc == 0x0804) = true := by decide

theorem test_b_most_positive :
    gives (sys) 0xE3FF (fun t => t.pc == 0x1802) = true := by decide

theorem test_bl_prefix :
    gives (sys) 0xF7FF (fun t => t.lr == 4 && t.pc == 0x1002) = true := by decide

theorem test_bl_suffix :
    gives (sys.setLr 0x5000) 0xF810 (fun t => t.lr == 0x1003 && t.pc == 0x5020 && t.cpsr.t) = true := by decide

theorem test_blx_suffix_aligns :
    gives (({ sys with pc := 0x2002 } : State).setLr 0x2004) 0xE821
      (fun t => t.pc == 0x2044 && t.lr == 0x2005 && !t.cpsr.t) = true := by decide

theorem test_blx_suffix_armv4_is_undefined :
    gives (onV4 (({ sys with pc := 0x2002 } : State).setLr 0x2004)) 0xE820
      (fun t => t.cell (.lr .und) == 0x2004 && t.cell (.lr .usr) == 0x2004 && t.pc == 4) = true := by decide

theorem test_udf_b1 :
    gives (user) 0xB100
      (fun t => t.cpsr.toWord == 0x9B && t.cell (.lr .und) == 0x1002 && t.pc == 4) = true := by decide

theorem test_udf_b2 :
    gives (user) 0xB200
      (fun t => t.cpsr.toWord == 0x9B && t.cell (.lr .und) == 0x1002 && t.pc == 4) = true := by decide

theorem test_udf_b6 :
    gives (user) 0xB600
      (fun t => t.cpsr.toWord == 0x9B && t.cell (.lr .und) == 0x1002 && t.pc == 4) = true := by decide

theorem test_udf_bb :
    gives (user) 0xBB00
      (fun t => t.cpsr.toWord == 0x9B && t.cell (.lr .und) == 0x1002 && t.pc == 4) = true := by decide

theorem test_udf_bf :
    gives (user) 0xBF00
      (fun t => t.cpsr.toWord == 0x9B && t.cell (.lr .und) == 0x1002 && t.pc == 4) = true := by decide

theorem test_bkpt_prefetch_abort :
    gives ({ user with cfg := { arch := .armv5, v5Bkpt := .prefetchAbort } }) 0xBE00
      (fun t => t.cpsr.toWord == 0x97 && t.cell (.lr .abt) == 0x1004 && t.spsr.abt.toWord == 0x30 && t.pc == 0x0C) = true := by decide

theorem test_empty_push_is_refused : refusedWith (step (sys.withFetchWord 16 0xB400)) .emptyStackList = true := by decide

theorem test_empty_pop_is_refused : refusedWith (step (sys.withFetchWord 16 0xBC00)) .emptyStackList = true := by decide

theorem test_odd_strh_is_refused :
    refusedWith (step ((sys.setLow 1 0x2001).withFetchWord 16 0x5288)) .misalignedHalfwordStore = true := by decide

/-- Part 3, P1, the first step: two cycles. -/
theorem test_clock : gives user 0x2000 (fun t => t.clock == 2) = true := by decide

/-! ### Exceptions, reset and the poll (95_test_vectors.md Parts 3 and 4) -/

/-- The next state of a result satisfies `p`. -/
def answers (r : Result) (p : State → Bool) : Bool :=
  match r with
  | .next t => p t
  | .fault _ => false
  | .refused _ => false

/-- The start state with an oracle whose answers are given. -/
def oracle (s : State) (answers : List BusAnswer) : State :=
  { s with cfg := { s.cfg with busAbort := .oracle }, bus := answers }

theorem test_data_abort : gives (oracle ((sys.setLow 0 0x99).setLow 1 0x5000) [{}, { abort := true }]) 0x6808
    (fun t => t.cpsr.toWord == 0x97 && t.spsr.abt.toWord == 0x3F && t.cell (.lr .abt) == 0x1006 && t.low 0 == 0x99 &&
      t.pc == 0x10) = true := by decide

theorem test_prefetch_abort : answers (step (oracle sys [{ abort := true }]))
    (fun t => t.cpsr.toWord == 0x97 && t.cell (.lr .abt) == 0x1004 && t.pc == 0x0C) = true := by decide

theorem test_reset_call : answers (resetCall { sys with cpsr := Psr.ofWord 0xF0000030, pc := 0x1234 })
    (fun t => t.cpsr.toWord == 0xF00000D3 && t.spsr.svc.toWord == 0xF0000030 && t.cell (.lr .svc) == 0x1234 &&
      t.pc == 0) = true := by decide

theorem test_reset_call_high_vectors :
    answers (resetCall (enableCp15 0xFFFF0000 { sys with pc := 0x1234 }).2) (fun t => t.pc == 0xFFFF0000) = true := by decide

theorem test_invalid_mode : refusedWith (step { sys with cpsr := Psr.ofWord 0x00000035 }) .invalidMode = true := by decide

theorem test_handoff : step { sys with cpsr := Psr.ofWord 0x0000001F } = .fault .handoff := rfl

theorem test_irq_in_arm_state : answers
    (step (setLine .irq true { sys with cpsr := Psr.ofWord 0x00000010, pc := 0x8000 }))
    (fun t => t.cell (.lr .irq) == 0x8004 && t.cpsr.toWord == 0x92 && t.pc == 0x18) = true := by decide

theorem test_fiq_before_irq : answers
    (step (setLine .fiq true (setLine .irq true { sys with cpsr := Psr.ofWord 0x40000030, pc := 0x1002 })))
    (fun t => t.cpsr.toWord == 0x400000D1 && t.spsr.fiq.toWord == 0x40000030 && t.cell (.lr .fiq) == 0x1006 &&
      t.pc == 0x1C && t.clock == 0) = true := by decide

theorem test_halt_idles : answers (step (setLine .halt true sys)) (fun t => t.pc == 0x1000 && t.clock == 1) = true := by
  decide

theorem test_bad_slot : refusedWith (mapCoprocessor 16 { exceptionVector := 0 } sys) .badSlot = true := by decide

theorem test_bad_arch : refusedWith (newCpu 6 {} { arch := .armv5 }) .badArch = true := by decide

/-! ### Witnesses: for every statement with hypotheses, what meets them -/

/-- A state that a result answers. -/
theorem next_of_answers {r : Result} {p : State → Bool} (h : answers r p = true) : ∃ t, r = .next t ∧ p t = true := by
  unfold answers at h
  split at h
  · exact ⟨_, rfl, h⟩
  · cases h
  · cases h

/-- The start state in a mode, by the word of its CPSR. -/
def withCpsr (w : Word) : State := { sys with cpsr := Psr.ofWord w }

theorem sys_vectorsLegal : sys.vectorsLegal := by unfold State.vectorsLegal; decide

theorem sys_modeLegal : sys.modeLegal := by unfold State.modeLegal; decide

theorem oracle_vectorsLegal (l : List BusAnswer) : (oracle sys l).vectorsLegal := sys_vectorsLegal

theorem quiet_noAbort (n : Nat) (s : State) (h : s.cfg.busAbort = .none) : NoAbortIn n s :=
  fun ho => absurd (h.symm.trans ho) (by decide)

theorem witness_EveryWordIsTheEncodingOfItsInstruction : encode (.movImm 0 0) = 0x2000#16 := by decide

theorem witness_AWrittenRegisterReadsBackAndNoOtherChanges :
    (7 : Fin 16).val < 8 ∧ (8 ≤ (8 : Fin 16).val ∧ (8 : Fin 16).val < 13) ∧ (8 ≤ (12 : Fin 16).val ∧ (12 : Fin 16).val < 13) ∧
      (withCpsr 0x31).cpsr.m = Mode.fiq.bits ∧ sys.cpsr.m = Mode.system.bits ∧ (13 : Fin 16).val = 13 ∧
      (14 : Fin 16).val = 14 ∧ (14 : Fin 16).val < 15 := by decide

theorem witness_AModeRoundTripKeepsTheVisibleRegisters :
    sys.cpsr.m = Mode.system.bits ∧ Mode.system.bank ≠ Mode.irq.bank := by decide

theorem witness_AStoredWordLoadsBackRotated : sys.bus = [] ∧ Memory.wf sys.mem = true := by decide

theorem witness_HiRegisterAddAndMove :
    (Instr.addHi 14 15 = .addHi 14 15 ∧ (14 : Fin 16).val < 15) ∧ (Instr.movHi 15 14 = .movHi 15 14 ∧ (15 : Fin 16).val = 15) ∧
      (Instr.addHi 15 0 = .addHi 15 0 ∧ (15 : Fin 16).val = 15) ∧ (Instr.movHi 0 8 = .movHi 0 8 ∧ (0 : Fin 16).val < 15) := by
  decide

theorem witness_BranchAndExchange :
    ((sys.setLow 0 0x2001).readReg 0).getLsbD 0 = true ∧ (sys.readReg 15).getLsbD 0 = false := by decide

theorem witness_LinkAndExchangeOnArmv5 :
    (sys.setLr 0x3001).cfg.arch = .armv5 ∧ ((sys.setLr 0x3001).readReg 14).getLsbD 0 = true ∧
      (sys.readReg 0).getLsbD 0 = false := by decide

theorem witness_LoadRelativeToPc :
    sys.nextAborts = false ∧ sys.pc.getLsbD 0 = false ∧ (oracle sys [{ abort := true }]).nextAborts = true ∧
      (oracle sys [{ abort := true }]).vectorsLegal := ⟨by decide, by decide, by decide, oracle_vectorsLegal _⟩

theorem witness_WordLoadsRotate :
    sys.nextAborts = false ∧ (∃ a, Instr.ldrReg 0 1 2 = .ldrReg 0 1 2 ∧ a = sys.low 1 + sys.low 2) ∧
      (∃ a, Instr.ldrImm 0 1 31 = .ldrImm 0 1 31 ∧ a = sys.low 1 + BitVec.ofNat 32 (4 * (31#5).toNat)) ∧
      ∃ a, Instr.ldrSp 7 0xFF = .ldrSp 7 0xFF ∧ a = sys.sp + BitVec.ofNat 32 (4 * (0xFF#8).toNat) :=
  ⟨by decide, ⟨_, rfl, rfl⟩, ⟨_, rfl, rfl⟩, ⟨_, rfl, rfl⟩⟩

theorem witness_ByteLoadsExtend : sys.nextAborts = false := by decide

/-- Even, odd at the top of memory under `force_align`, and odd under `unspecified`. -/
theorem witness_HalfwordLoads :
    ((sys.setLow 1 0xFFFFFFFE).low 1 + (sys.setLow 1 0xFFFFFFFE).low 2).getLsbD 0 = false ∧
      (sys.setLow 1 0xFFFFFFFE).nextAborts = false ∧
      ((sys.setLow 1 0xFFFFFFFF).low 1 + BitVec.ofNat 32 (2 * (0#5).toNat)).getLsbD 0 = true ∧
      sys.cfg.misalignedHalfword = .unspecified ∧
      ({ sys with cfg := { sys.cfg with misalignedHalfword := .forceAlign } } : State).cfg.misalignedHalfword = .forceAlign := by
  decide

theorem witness_WordStoresAlign :
    sys.nextAborts = false ∧ (∃ a, Instr.strReg 0 1 2 = .strReg 0 1 2 ∧ a = sys.addrReg 1 2) ∧
      (∃ a, Instr.strImm 0 1 31 = .strImm 0 1 31 ∧ a = sys.low 1 + BitVec.ofNat 32 (4 * (31#5).toNat)) ∧
      ∃ a, Instr.strSp 7 0xFF = .strSp 7 0xFF ∧ a = sys.sp + BitVec.ofNat 32 (4 * (0xFF#8).toNat) :=
  ⟨by decide, ⟨_, rfl, rfl⟩, ⟨_, rfl, rfl⟩, ⟨_, rfl, rfl⟩⟩

theorem witness_ByteStores : sys.nextAborts = false ∧ Instr.strbImm 0 1 31 = .strbImm 0 1 31 := by decide

theorem witness_HalfwordStores :
    (sys.low 1 + sys.low 2).getLsbD 0 = false ∧ sys.nextAborts = false ∧
      ((sys.setLow 1 0xFFFFFFFF).low 1 + BitVec.ofNat 32 (2 * (0#5).toNat)).getLsbD 0 = true ∧
      sys.cfg.misalignedHalfword = .unspecified ∧
      ({ sys with cfg := { sys.cfg with misalignedHalfword := .forceAlign } } : State).nextAborts = false := by decide

theorem witness_AnAbortedAccessRaisesDataAbortPrecisely :
    MakesOneAccess (oracle sys [{ abort := true }]) (.ldrImm 0 1 0) ∧
      MakesOneAccess (oracle sys [{ abort := true }]) (.strhReg 0 1 2) ∧
      MakesOneAccess (onV4 (oracle sys [{ abort := true }])) (.ldmia 0 0) ∧
      (oracle sys [{ abort := true }]).nextAborts = true ∧ (oracle sys [{ abort := true }]).vectorsLegal := by
  refine ⟨trivial, ?_, ?_, by decide, oracle_vectorsLegal _⟩
  · intro h; exact absurd h (by decide)
  · exact ⟨rfl, rfl⟩

/-- The fullest list, and LR or PC alone. -/
theorem witness_PushStoresTheList :
    rankIn 0xFF 8 + (if true then 1 else 0) ≠ 0 ∧ NoAbortIn 9 sys ∧ rankIn 0 8 + (if true then 1 else 0) ≠ 0 ∧ NoAbortIn 1 sys :=
  ⟨by decide, quiet_noAbort _ _ rfl, by decide, quiet_noAbort _ _ rfl⟩

/-- A popped PC on each architecture, with bit 0 set and clear. -/
theorem witness_PopLoadsTheList :
    rankIn 0xFF 8 + (if true then 1 else 0) ≠ 0 ∧ NoAbortIn 9 (put sys 0 1) ∧ NoAbortIn 1 (onV4 sys) ∧
      (Memory.read (put sys 0 1).mem .word (wordAddr sys.sp 0)).getLsbD 0 = true ∧
      (Memory.read sys.mem .word (wordAddr sys.sp 0)).getLsbD 0 = false ∧ sys.cfg.arch = .armv5 ∧ (onV4 sys).cfg.arch = .armv4 :=
  ⟨by decide, quiet_noAbort _ _ rfl, quiet_noAbort _ _ rfl, by decide, by decide, rfl, rfl⟩

theorem witness_EmptyStackListsAreRefused : (Instr.push false 0).wellFormed = false ∧
    refusedWith (exec (.pop false 0) sys) .emptyStackList = true := by decide

/-- The base not listed, first, and not first, on ARMv4. -/
theorem witness_StoreMultipleStoresTheList :
    rankIn 0x06 8 ≠ 0 ∧ NoAbortIn 2 sys ∧ (0x06#8).getLsbD (0 : Fin 8).val = false ∧
      ((0x03#8).getLsbD (0 : Fin 8).val = true ∧ rankIn 0x03 0 = 0) ∧
      ((0x03#8).getLsbD (1 : Fin 8).val = true ∧ rankIn 0x03 1 ≠ 0 ∧ (onV4 sys).cfg.arch = .armv4) ∧ NoAbortIn 8 (onV4 sys) :=
  ⟨by decide, quiet_noAbort _ _ rfl, by decide, by decide, by decide, quiet_noAbort _ _ rfl⟩

theorem witness_LoadMultipleLoadsTheList :
    rankIn 0xFF 8 ≠ 0 ∧ NoAbortIn 8 sys ∧ (0xFE#8).getLsbD (0 : Fin 8).val = false ∧ (0xFE#8).getLsbD (7 : Fin 8).val = true :=
  ⟨by decide, quiet_noAbort _ _ rfl, by decide, by decide⟩

theorem witness_EmptyBlockTransfers :
    sys.cfg.arch = .armv5 ∧ (onV4 sys).cfg.arch = .armv4 ∧ (onV4 sys).nextAborts = false := by decide

/-- At the first access, and at the last of nine. -/
theorem witness_AnAbortInsideATransferRaisesDataAbort :
    AbortsAt 0 (oracle sys [{ abort := true }]) ∧
      AbortsAt 8 (oracle sys [{}, {}, {}, {}, {}, {}, {}, {}, { abort := true }]) ∧
      AbortsAt 7 (oracle sys [{}, {}, {}, {}, {}, {}, {}, { abort := true }]) ∧
      8 < rankIn 0xFF 8 + (if true then 1 else 0) ∧ 7 < rankIn 0xFF 8 ∧ 0 < rankIn 0x80 8 ∧
      (oracle sys [{ abort := true }]).vectorsLegal ∧ sys.vectorsLegal :=
  ⟨⟨rfl, rfl, by decide⟩, ⟨rfl, rfl, by decide⟩, ⟨rfl, rfl, by decide⟩, by decide, by decide, by decide,
    oracle_vectorsLegal _, sys_vectorsLegal⟩

theorem witness_ConditionalBranches : Cond.Holds .eq (flags 0b0100).cpsr ∧ ¬ Cond.Holds .eq sys.cpsr := by
  unfold Cond.Holds; decide

theorem witness_ConditionsAfterACompareMeanComparisons :
    ∃ t meaning, exec (.cmpReg 0 1) sys = .next t ∧ Cond.Compares .lt (sys.low 0) (sys.low 1) = some meaning :=
  ⟨_, _, rfl, rfl⟩

theorem witness_ALongBranchPairCalls :
    sys.modeLegal ∧ sys.cpsr.t = true ∧ (put sys 0x1000 0xF820F000).pc.getLsbD 0 = false ∧
      sys.lines = { fiq := false, irq := false, halt := false } ∧ sys.bus = [] ∧ sys.cfg.fetchSeesStores = true ∧
      HoldsBytes (put sys 0x1000 0xF820F000) sys.pc 2 ((encode (.blPrefix 0)).zeroExtend 32) ∧
      HoldsBytes (put sys 0x1000 0xF820F000) (sys.pc + 2#32) 2 ((encode (.blSuffix 0x20)).zeroExtend 32) := by
  refine ⟨sys_modeLegal, by decide, by decide, by decide, by decide, by decide, ?_, ?_⟩ <;>
    (intro k hk; interval_cases k <;> decide)

theorem witness_SoftwareInterruptEntersSupervisor : sys.vectorsLegal ∧ sys.coproc[15] = none :=
  ⟨sys_vectorsLegal, by decide⟩

theorem witness_UndefinedEncodingsEnterUndefined :
    sys.vectorsLegal ∧ sys.cfg.v5Bkpt = .undefined ∧ (0x100#9).getLsbD 8 = true ∧ (onV4 sys).cfg.arch = .armv4 ∧
      sys.cfg.arch = .armv5 ∧ ({ arch := .armv5, v5Bkpt := .prefetchAbort } : Config).v5Bkpt = .prefetchAbort ∧
      (0xFF#9).getLsbD 8 = false ∧ sys.cpsr.t = true :=
  ⟨sys_vectorsLegal, by decide, by decide, rfl, rfl, rfl, by decide, by decide⟩

/-- Masked, unmasked with a legal vector base, and unmasked with another. -/
theorem witness_TheEntrySequence :
    (withCpsr 0x7F).cpsr.f = true ∧ (withCpsr 0xBF).cpsr.i = true ∧ sys.cpsr.f = false ∧ sys.vectorsLegal ∧
      ¬ (enableCp15 0x1000 sys).2.vectorsLegal :=
  ⟨by decide, by decide, by decide, sys_vectorsLegal, by unfold State.vectorsLegal; decide⟩

theorem witness_TheExceptionTable :
    sys.coproc[15] = none ∧ (enableCp15 0xFFFF0000 sys).2.coproc[15] = some { exceptionVector := 0xFFFF0000 } ∧
      (enableCp15 0x1000 sys).2.coproc[15] = some { exceptionVector := 0x1000 } := by decide

theorem witness_AReturnRestoresTheInterruptedState :
    sys.modeLegal ∧ sys.masked .irq = false ∧ ∃ t, enter .irq 0x1002 sys = .next t := ⟨sys_modeLegal, by decide, _, rfl⟩

theorem witness_ResetEntersSupervisorAtTheResetVector : sys.vectorsLegal := sys_vectorsLegal

/-- R260: an instance built on a bus sees what the platform behind it holds, on the architecture asked for. -/
theorem test_new_on_a_bus :
    answers (newCpu 4 { mem := [(0x1000, 0x2A)], answers := [{ waits := 3 }] } { arch := .armv5 }) (fun t =>
      t.cfg.arch == .armv4 && Memory.byte t.mem 0x1000 == 0x2A && t.nextAnswer.waits == 3 && t.clock == 0) = true := by
  decide

theorem witness_TheHostCalls :
    ((4 : Nat) = 4 ∧ Arch.armv4 = .armv4) ∧ ((5 : Nat) = 5 ∧ Arch.armv5 = .armv5) ∧
      (16 : Nat) ≤ 16 ∧ (15 : Nat) < 16 ∧ (0xFFFF0000#32 : Word) = 0xFFFF0000#32 ∧ (3 : Nat) ≠ 4 ∧ (3 : Nat) ≠ 5 ∧
      Mode.ofBits ((0x15#32 : Word).extractLsb' 0 5) = none := by decide

/-- The three clauses, each line with its mask clear, and a masked FIQ before an unmasked IRQ. -/
theorem witness_ThePollTakesFiqThenIrqThenHalt :
    sys.modeLegal ∧ sys.pcAligned ∧ sys.vectorsLegal ∧
      ((setLine .fiq true sys).lines.fiq = true ∧ sys.cpsr.f = false) ∧
      ((setLine .irq true (setLine .fiq true (withCpsr 0x7F))).lines.irq = true ∧ (withCpsr 0x7F).cpsr.f = true ∧
        (withCpsr 0x7F).cpsr.i = false) ∧
      ((setLine .halt true sys).lines.halt = true ∧ (setLine .halt true sys).lines.fiq = false) :=
  ⟨sys_modeLegal, by unfold State.pcAligned; decide, sys_vectorsLegal, by decide, by decide, by decide⟩

theorem witness_WhatStopsAStep :
    ¬ (withCpsr 0x35).modeLegal ∧ (withCpsr 0x1F).modeLegal ∧ (withCpsr 0x1F).lines.fiq = false ∧
      (withCpsr 0x1F).lines.irq = false ∧ (withCpsr 0x1F).lines.halt = false ∧ (withCpsr 0x1F).cpsr.t = false :=
  ⟨by unfold State.modeLegal; decide, by unfold State.modeLegal; decide, rfl, rfl, rfl, by decide⟩

/-- The start state under `fetch_sees_stores = false`, the halfword at its pc written by another agent of the bus. -/
def stale : State :=
  otherAgentWrites .half 0x1000 0x20FF { sys with cfg := { sys.cfg with fetchSeesStores := false } }

/-- A fetch from memory, seen and unseen stores, a fetch the platform answers, and a fetch from a written address. -/
theorem witness_AStepRunsTheDecodedInstruction :
    (stale.modeLegal ∧ stale.cpsr.t = true ∧ stale.nextAborts = false ∧ stale.cfg.fetchSeesStores = false ∧
      (stale.pc &&& 0xFFFFFFFE#32).toNat ∈ stale.stored ∧ stale.lines = sys.lines) ∧
    sys.modeLegal ∧ sys.lines.fiq = false ∧ sys.lines.irq = false ∧ sys.lines.halt = false ∧ sys.cpsr.t = true ∧
      sys.nextAborts = false ∧ sys.nextAnswer.data = none ∧ sys.cfg.fetchSeesStores = true ∧ sys.stored = [] ∧
      decodeBytes [Memory.byte sys.mem 0x1000, Memory.byte sys.mem 0x1001] = .ok (.lslImm 0 0 0, []) ∧
      ({ sys with bus := [{ data := some 0x2000 }] } : State).nextAnswer.data = some 0x2000 :=
  ⟨⟨sys_modeLegal, rfl, rfl, rfl, by decide, rfl⟩,
    sys_modeLegal, rfl, rfl, rfl, by decide, by decide, by decide, rfl, rfl, by decide, by decide⟩

/-- R68: another agent's write is in memory and makes its addresses written ones, two of them here. -/
theorem test_other_agent_writes : Memory.byte stale.mem 0x1000 = 0xFF ∧ Memory.byte stale.mem 0x1001 = 0x20 ∧
    stale.stored = [0x1000, 0x1001] := by decide

/-- R68: the free draw is taken from a written address even where the platform answers the fetch (log 8). -/
theorem test_fetch_from_a_written_address_draws : ∃ op m, fetch16 { stale with bus := [{ data := some 0x20AA }] } = .ok op m ∧
    m.draws = stale.draws + 1 ∧ m.pc = 0x1002#32 ∧ m.bus = [] := ⟨_, _, rfl, rfl, by decide, rfl⟩

theorem witness_AnAbortedFetchEntersPrefetchAbort :
    sys.modeLegal ∧ sys.lines.fiq = false ∧ sys.lines.irq = false ∧ sys.lines.halt = false ∧ sys.cpsr.t = true ∧
      (oracle sys [{ abort := true }]).nextAborts = true ∧ (oracle sys [{ abort := true }]).vectorsLegal :=
  ⟨sys_modeLegal, rfl, rfl, rfl, by decide, by decide, oracle_vectorsLegal _⟩

theorem witness_EveryStepKeepsTheInvariant : sys.Inv ∧ ∃ t, step sys = .next t ∧ (t.pc == 0x1002#32) = true :=
  ⟨⟨sys_modeLegal, by unfold State.pcAligned; decide, by decide⟩, next_of_answers (by decide)⟩

/-- A step that keeps HALT, and one that clears it. -/
theorem witness_WhatNoStepWrites :
    (∃ t, step (setLine .halt true sys) = .next t ∧ t.lines.halt = true) ∧
      ∃ t, step (setLine .halt true (setLine .irq true sys)) = .next t ∧ (!t.lines.halt) = true :=
  ⟨next_of_answers (by decide), next_of_answers (by decide)⟩

/-- A step that changes no mode, and one that does. -/
theorem witness_OnlyAnEntryChangesTheModeTheMasksAndTheSpsrs :
    (∃ t, step user = .next t ∧ (t.cpsr.m == 0x10#5) = true) ∧
      ∃ t, step (user.withFetchWord 16 0xDF00) = .next t ∧ (t.cpsr.m == 0x13#5) = true :=
  ⟨next_of_answers (by decide), next_of_answers (by decide)⟩

/-- A cell of the current mode's view written, and the R14 of the mode entered. -/
theorem witness_OtherModesRegistersAreOutOfReach :
    sys.modeLegal ∧ (∃ t, step (sys.withFetchWord 16 0x20FF) = .next t ∧ (t.cell (.low 0) != sys.cell (.low 0)) = true) ∧
      ∃ t, step (sys.withFetchWord 16 0xDF00) = .next t ∧ (t.cell (.lr .svc) != sys.cell (.lr .svc)) = true :=
  ⟨sys_modeLegal, next_of_answers (by decide), next_of_answers (by decide)⟩

end Sys2Proof.Tests
end

section
/-! What an addition and a subtraction with their flags do to the state (00_scope.md R14; 40_shift_addsub_imm.md R103 to
R106): the model's flag formulas are those of exact arithmetic, and nothing but Rd and the flags changes. -/

namespace Sys2Proof.Machine

/-! ### The carry and the overflow, in exact arithmetic -/

/-- `AddFlags`' C: the wrapped sum is below an operand exactly when the exact sum needs a 33rd bit. -/
theorem ult_add_eq_carry (a b : Word) : (a + b).ult a = decide (2 ^ 32 ≤ a.toNat + b.toNat) := by
  rw [BitVec.ult_eq_decide, BitVec.toNat_add, decide_eq_decide]
  omega

/-- `SubFlags`' C: the wrapped difference is at most the minuend exactly when nothing is borrowed. -/
theorem ule_sub_eq_noBorrow (a b : Word) : (a - b).ule a = decide (b.toNat ≤ a.toNat) := by
  rw [BitVec.ule_eq_decide, BitVec.toNat_sub, decide_eq_decide]
  omega

/-- The library's signed overflow of a sum says that the wrapped sum is not the exact one. -/
theorem saddOverflow_eq_toInt_ne (a b : Word) : a.saddOverflow b = decide (a.toInt + b.toInt ≠ (a + b).toInt) := by
  rw [Bool.eq_iff_iff, decide_eq_true_iff]
  constructor
  · intro h
    have hlt := (a + b).toInt_lt
    have hle := (a + b).le_toInt
    simp only [BitVec.saddOverflow, Bool.or_eq_true, decide_eq_true_eq] at h
    omega
  · intro h
    by_contra hn
    exact h (BitVec.toInt_add_of_not_saddOverflow hn).symm

/-- The library's signed overflow of a difference says that the wrapped difference is not the exact one. -/
theorem ssubOverflow_eq_toInt_ne (a b : Word) : a.ssubOverflow b = decide (a.toInt - b.toInt ≠ (a - b).toInt) := by
  rw [Bool.eq_iff_iff, decide_eq_true_iff]
  constructor
  · intro h
    have hlt := (a - b).toInt_lt
    have hle := (a - b).le_toInt
    simp only [BitVec.ssubOverflow, Bool.or_eq_true, decide_eq_true_eq] at h
    omega
  · intro h
    by_contra hn
    exact h (BitVec.toInt_sub_of_not_ssubOverflow hn).symm

/-- `AddFlags`' V: both operands differ in sign from the wrapped sum. -/
theorem signs_add_eq_overflow (a b : Word) :
    ((a ^^^ (a + b)) &&& (b ^^^ (a + b))).getLsbD 31 = decide (a.toInt + b.toInt ≠ (a + b).toInt) := by
  rw [← saddOverflow_eq_toInt_ne, BitVec.saddOverflow_eq, BitVec.getLsbD_and, BitVec.getLsbD_xor, BitVec.getLsbD_xor]
  simp only [BitVec.msb_eq_getLsbD_last]
  generalize a.getLsbD 31 = x, b.getLsbD 31 = y, (a + b).getLsbD 31 = z
  decide +revert

/-- `SubFlags`' V: the operands differ in sign, and so do the minuend and the wrapped difference. -/
theorem signs_sub_eq_overflow (a b : Word) :
    ((a ^^^ b) &&& (a ^^^ (a - b))).getLsbD 31 = decide (a.toInt - b.toInt ≠ (a - b).toInt) := by
  rw [← ssubOverflow_eq_toInt_ne, BitVec.ssubOverflow_eq, BitVec.getLsbD_and, BitVec.getLsbD_xor, BitVec.getLsbD_xor]
  simp only [BitVec.msb_eq_getLsbD_last]
  generalize a.getLsbD 31 = x, b.getLsbD 31 = y, (a - b).getLsbD 31 = z
  decide +revert

/-! ### The flags of the state -/

theorem State.addTest_nz (s : State) (a b : Word) : NZOf (s.addTest a b) (a + b) := ⟨rfl, rfl⟩

theorem State.subTest_nz (s : State) (a b : Word) : NZOf (s.subTest a b) (a - b) := ⟨rfl, rfl⟩

theorem State.addTest_cv (s : State) (a b : Word) : AddCV (s.addTest a b) a b :=
  ⟨ult_add_eq_carry a b, signs_add_eq_overflow a b⟩

theorem State.subTest_cv (s : State) (a b : Word) : SubCV (s.subTest a b) a b :=
  ⟨ule_sub_eq_noBorrow a b, signs_sub_eq_overflow a b⟩

/-! ### The frame -/

/-- New flags are within the frame of an operation that writes no register. -/
theorem registerFrame_flags (s : State) {p : Psr} (h : s.cpsr.SameControl p) :
    RegisterFrame [] s { s with cpsr := p } :=
  ⟨fun _ _ => rfl, ⟨⟨h.reserved, h.i, h.f, h.m⟩, h.t⟩, ⟨rfl, rfl, rfl, rfl⟩, fun _ => rfl, ⟨rfl, rfl, rfl, rfl⟩⟩

/-- A write of Rd adds that one cell to the frame. -/
theorem RegisterFrame.setLow {s t : State} (h : RegisterFrame [] s t) (rd : Fin 8) (v : Word) :
    RegisterFrame [.low rd] s (t.setLow rd v) := by
  obtain ⟨hcells, hrest⟩ := h
  refine ⟨fun c hc => ?_, hrest⟩
  rw [State.setLow_cell, if_neg (List.ne_of_not_mem_cons hc)]
  exact hcells c List.not_mem_nil

theorem State.addTest_frame (s : State) (a b : Word) : RegisterFrame [] s (s.addTest a b) :=
  registerFrame_flags s ((s.cpsr.addFlags_control a b (a + b)).trans (Psr.setNZ_control _ _))

theorem State.subTest_frame (s : State) (a b : Word) : RegisterFrame [] s (s.subTest a b) :=
  registerFrame_flags s ((s.cpsr.subFlags_control a b (a - b)).trans (Psr.setNZ_control _ _))

/-! ### The whole operation -/

theorem State.addInto_addsInto (s : State) (rd : Fin 8) (a b : Word) : AddsInto s (s.addInto rd a b) rd a b := by
  have hr : ((s.addInto rd a b).low rd).toNat = (a.toNat + b.toNat) % 2 ^ 32 := by
    rw [State.addInto, State.low_setLow, if_pos rfl, BitVec.toNat_add]
  exact ⟨hr, s.addTest_nz a b, s.addTest_cv a b, rfl, (s.addTest_frame a b).setLow rd _⟩

theorem State.subInto_subsInto (s : State) (rd : Fin 8) (a b : Word) : SubsInto s (s.subInto rd a b) rd a b := by
  have hr : ((s.subInto rd a b).low rd).toNat = (2 ^ 32 + a.toNat - b.toNat) % 2 ^ 32 := by
    rw [State.subInto, State.low_setLow, if_pos rfl, BitVec.toNat_sub]
    omega
  exact ⟨hr, s.subTest_nz a b, s.subTest_cv a b, rfl, (s.subTest_frame a b).setLow rd _⟩

/-- A zero-extended 3-bit immediate is its number (30_encoding.md R92). -/
theorem zext3_eq_ofNat (i : BitVec 3) : zext3 i = BitVec.ofNat 32 i.toNat := (BitVec.ofNat_toNat 32 i).symm

end Sys2Proof.Machine

open Sys2Proof Sys2Proof.Machine

/-- Settles O8: both forms of ADD are `State.addInto`, whose result, flags and frame `State.addInto_addsInto` gives. -/
theorem addRegisterAndAddImm3 : Obligations.AddRegisterAndAddImm3 := by
  intro s rd rs rn imm3
  refine ⟨⟨_, rfl, s.addInto_addsInto rd (s.low rs) (s.low rn)⟩, ⟨_, rfl, ?_⟩⟩
  rw [← zext3_eq_ofNat]
  exact s.addInto_addsInto rd (s.low rs) (zext3 imm3)

/-- Settles O9: both forms of SUB are `State.subInto`, whose result, flags and frame `State.subInto_subsInto` gives. -/
theorem subRegisterAndSubImm3 : Obligations.SubRegisterAndSubImm3 := by
  intro s rd rs rn imm3
  refine ⟨⟨_, rfl, s.subInto_subsInto rd (s.low rs) (s.low rn)⟩, ⟨_, rfl, ?_⟩⟩
  rw [← zext3_eq_ofNat]
  exact s.subInto_subsInto rd (s.low rs) (zext3 imm3)

end

section
/-! CMP, CMN and MUL of two low registers (41_alu_register.md R131, R132, R134): a compare is `State.subTest` or
`State.addTest`, and MUL is `State.moveInto` after the one flag that depends on the architecture. -/

namespace Sys2Proof.Machine

/-! ### A compare -/

theorem State.subTest_compares (s : State) (a b : Word) : Compares s (s.subTest a b) a b :=
  ⟨s.subTest_nz a b, s.subTest_cv a b, rfl, s.subTest_frame a b⟩

/-! ### A result with N and Z from it -/

theorem State.moveInto_nz (s : State) (rd : Fin 8) (r : Word) : NZOf (s.moveInto rd r) r := ⟨rfl, rfl⟩

@[simp] theorem State.low_moveInto (s : State) (rd k : Fin 8) (r : Word) :
    (s.moveInto rd r).low k = if k = rd then r else s.low k := by simp [State.low]

/-- A result written with N and Z from it adds Rd to the frame; the frame of a register operation leaves N and Z out. -/
theorem RegisterFrame.moveInto {s t : State} (h : RegisterFrame [] s t) (rd : Fin 8) (r : Word) :
    RegisterFrame [.low rd] s (t.moveInto rd r) :=
  have hflags : RegisterFrame [] s (t.testFlags r) := h
  hflags.setLow rd r

/-! ### MUL -/

/-- C after MUL, of C before it (R134). -/
def mulCarry (arch : Arch) (c : Bool) : Bool :=
  match arch with
  | .armv4 => false
  | .armv5 => c

/-- On both architectures MUL is a write of C followed by the write of the low word of the product. -/
theorem exec_mul (s : State) (rd rs : Fin 8) : exec (.mul rd rs) s =
    .next ({ s with cpsr := s.cpsr.setC (mulCarry s.cfg.arch s.cpsr.c) }.moveInto rd (s.low rd * s.low rs)) := by
  cases harch : s.cfg.arch with
  | armv4 => simp only [exec, execMul, harch, mulCarry]
  | armv5 => simp only [exec, execMul, harch, mulCarry, Psr.setC]

end Sys2Proof.Machine

open Sys2Proof Sys2Proof.Machine

/-- Settles O15: CMP is `State.subTest` and CMN is `State.addTest`, whose flags and frame are known. -/
theorem compareRegisters : Obligations.CompareRegisters := by
  intro s rd rs
  constructor
  · exact ⟨_, rfl, s.subTest_compares (s.low rd) (s.low rs)⟩
  · exact ⟨_, rfl, s.addTest_nz _ _, s.addTest_cv _ _, rfl, s.addTest_frame _ _⟩

/-- Settles O17, by `exec_mul`: N and Z are those of the word written, C is `mulCarry`, and V is not written. -/
theorem multiplyKeepsTheLowWord : Obligations.MultiplyKeepsTheLowWord := by
  intro s rd rs
  refine ⟨_, exec_mul s rd rs, ?_, ?_, rfl, rfl, rfl, (registerFrame_flags s (s.cpsr.setC_control _)).moveInto rd _⟩
  · rw [State.low_moveInto, if_pos rfl, BitVec.toNat_mul]
  · rw [State.low_moveInto, if_pos rfl]
    exact State.moveInto_nz ..

end

section
/-! ADD and MOV over R0 to R15 (42_hireg_bx.md R141, R143): both are one `State.writeReg`, which is a cell write below R15
and a jump in Thumb state at R15 (10_state.md R25). -/

namespace Sys2Proof.Machine

/-! ### The register view is injective -/

/-- The number under which a mode's view shows a cell, read off R21's table from right to left. -/
def Cell.regNumber : Cell → Nat
  | .low k   => k.val
  | .usrHi k => 8 + k.val
  | .fiqHi k => 8 + k.val
  | .sp _    => 13
  | .lr _    => 14

/-- `Cell.regNumber` is a left inverse of the register view of each mode. -/
theorem regNumber_phys (m : BitVec 5) (i : Fin 15) : (phys m i).regNumber = i.val := by
  have hi := i.isLt
  have hrange : i.val < 8 ∨ (8 ≤ i.val ∧ i.val < 13) ∨ i.val = 13 ∨ i.val = 14 := by omega
  obtain hlow | ⟨hge, hlt⟩ | hsp | hlr := hrange
  · simp [phys, hlow, Cell.regNumber]
  · rw [phys, dif_neg (by omega), dif_pos hlt]
    split <;> exact Nat.add_sub_of_le hge
  · simp [phys, hsp, Cell.regNumber]
  · simp [phys, hlr, Cell.regNumber]

/-- No mode shows one cell under two numbers (R21). -/
theorem phys_inj (m : BitVec 5) (i j : Fin 15) : phys m i = phys m j ↔ i = j := by
  refine ⟨fun h => Fin.ext ?_, congrArg (phys m)⟩
  rw [← regNumber_phys m i, h, regNumber_phys]

/-! ### A register written -/

theorem State.writeReg_of_lt (s : State) {i : Fin 16} (h : i.val < 15) (v : Word) :
    s.writeReg i v = s.setCell (phys s.cpsr.m ⟨i.val, h⟩) v := dif_pos h

theorem State.writeReg_of_eq (s : State) {i : Fin 16} (h : i.val = 15) (v : Word) :
    s.writeReg i v = s.jumpThumb v := dif_neg (by omega)

/-- A register below R15 reads as written, and every other, R15 with it, as before. -/
theorem State.readReg_writeReg (s : State) {i : Fin 16} (h : i.val < 15) (j : Fin 16) (v : Word) :
    (s.writeReg i v).readReg j = if j = i then v else s.readReg j := by
  rw [s.writeReg_of_lt h]
  by_cases hj : j.val < 15
  · simp [State.readReg, hj, phys_inj, Fin.ext_iff]
  · have hne : j ≠ i := fun he => hj (he ▸ h)
    simp [State.readReg, hj, hne, State.pcRead]

/-! ### The frame -/

theorem State.setCell_frame (s : State) (c : Cell) (v : Word) : RegisterFrame [c] s (s.setCell c v) := by
  refine ⟨fun d hd => ?_, ⟨⟨rfl, rfl, rfl, rfl⟩, rfl⟩, ⟨rfl, rfl, rfl, rfl⟩, fun _ => rfl, ⟨rfl, rfl, rfl, rfl⟩⟩
  rw [State.setCell_cell, if_neg (List.ne_of_not_mem_cons hd)]

theorem State.jumpThumb_frame (s : State) (a : Word) : RegisterFrame [] s (s.jumpThumb a) :=
  ⟨fun _ _ => rfl, ⟨⟨rfl, rfl, rfl, rfl⟩, rfl⟩, ⟨rfl, rfl, rfl, rfl⟩, fun _ => rfl, ⟨rfl, rfl, rfl, rfl⟩⟩

/-- No register write touches the flags, a jump in Thumb state included. -/
theorem State.writeReg_flags (s : State) (i : Fin 16) (v : Word) : SameFlags s (s.writeReg i v) := by
  unfold State.writeReg
  split <;> exact ⟨rfl, rfl, rfl, rfl⟩

end Sys2Proof.Machine

open Sys2Proof Sys2Proof.Machine

/-- Settles O18: both instructions answer `s.writeReg rd r`, which below R15 is the write of one cell of the view, and at
R15 a jump that clears bit 0 of the target and keeps T. -/
theorem hiRegisterAddAndMove : Obligations.HiRegisterAddAndMove := by
  intro s rd rs i r hi
  have hexec : exec i s = .next (s.writeReg rd r) := by
    obtain ⟨rfl, rfl⟩ | ⟨rfl, rfl⟩ := hi
    · rfl
    · rfl
  refine ⟨fun h => ⟨_, hexec, ?_, ?_, s.writeReg_flags rd r, ?_, fun j hj => ?_⟩,
    fun h => ⟨_, hexec, ?_, s.writeReg_flags rd r, ?_⟩⟩
  · rw [s.readReg_writeReg h, if_pos rfl]
  · rw [s.writeReg_of_lt h, State.setCell_pc]
  · rw [s.writeReg_of_lt h]
    exact s.setCell_frame _ r
  · rw [s.readReg_writeReg h, if_neg hj]
  · rw [s.writeReg_of_eq h, State.jumpThumb_pc]
    rfl
  · rw [s.writeReg_of_eq h]
    exact s.jumpThumb_frame r

end

section
/-! B and the two halves of BL (46_branch_swi.md R204 to R206): an offset of the model, an extended immediate shifted
left, is that immediate times a power of two, and each instruction is a write of LR, of the pc, or of both. -/

namespace Sys2Proof.Machine

/-! ### The offsets, in exact arithmetic -/

/-- A sign-extended immediate shifted left is the signed immediate times a power of two. -/
theorem signExtend_shiftLeft_eq_ofInt {w : Nat} (i : BitVec w) (k : Nat) :
    i.signExtend 32 <<< k = BitVec.ofInt 32 (2 ^ k * i.toInt) := by
  have hpow : BitVec.twoPow 32 k = BitVec.ofInt 32 (2 ^ k : Nat) := by
    apply BitVec.eq_of_toNat_eq
    rw [BitVec.ofInt_natCast, BitVec.toNat_twoPow, BitVec.toNat_ofNat]
  rw [← BitVec.twoPow_mul_eq_shiftLeft, hpow, BitVec.signExtend, ← BitVec.ofInt_mul, Nat.cast_pow, Nat.cast_ofNat]

/-- A zero-extended immediate shifted left is the unsigned immediate times a power of two. -/
theorem zeroExtend_shiftLeft_eq_ofNat {w : Nat} (i : BitVec w) (k : Nat) :
    i.zeroExtend 32 <<< k = BitVec.ofNat 32 (2 ^ k * i.toNat) := by
  apply BitVec.eq_of_toNat_eq
  rw [BitVec.toNat_shiftLeft, BitVec.toNat_ofNat]
  simp [Nat.shiftLeft_eq, Nat.mul_comm]

theorem branch11_eq_ofInt (i : BitVec 11) : branch11 i = BitVec.ofInt 32 (2 * i.toInt) :=
  signExtend_shiftLeft_eq_ofInt i 1

theorem branchHigh_eq_ofInt (i : BitVec 11) : branchHigh i = BitVec.ofInt 32 (4096 * i.toInt) :=
  signExtend_shiftLeft_eq_ofInt i 12

theorem branchLow_eq_ofNat (i : BitVec 11) : branchLow i = BitVec.ofNat 32 (2 * i.toNat) :=
  zeroExtend_shiftLeft_eq_ofNat i 1

/-! ### The frame -/

theorem RegisterFrame.refl (s : State) : RegisterFrame [] s s := registerFrame_flags s ⟨rfl, rfl, rfl, rfl, rfl⟩

/-- The frame says nothing of the pc, so it holds wherever the instruction goes on. -/
theorem RegisterFrame.setPc {cs : List Cell} {s t : State} (h : RegisterFrame cs s t) (a : Word) :
    RegisterFrame cs s { t with pc := a } := h

theorem State.setLr_frame (s : State) (v : Word) : RegisterFrame [.lr (bankOf s.cpsr.m)] s (s.setLr v) :=
  s.setCell_frame _ v

end Sys2Proof.Machine

open Sys2Proof Sys2Proof.Machine

/-- Settles O41: B is one write of the pc, and `branch11` is twice the signed offset. -/
theorem unconditionalBranch : Obligations.UnconditionalBranch := by
  intro s imm11
  refine ⟨_, rfl, ?_, ⟨rfl, rfl, rfl, rfl⟩, (RegisterFrame.refl s).setPc _⟩
  rw [← branch11_eq_ofInt]
  rfl

/-- Settles O42: the prefix is one write of LR; the suffix reads LR before it writes the link, and then jumps in Thumb
state, which clears bit 0 of the target and keeps T. -/
theorem longBranchHalves : Obligations.LongBranchHalves := by
  intro s imm11
  refine ⟨⟨_, rfl, ?_, rfl, ⟨rfl, rfl, rfl, rfl⟩, s.setLr_frame _⟩,
    ⟨_, rfl, ?_, ?_, ⟨rfl, rfl, rfl, rfl⟩, (s.setLr_frame _).setPc _⟩⟩
  · rw [State.lr_setLr, branchHigh_eq_ofInt]
    rfl
  · rw [State.lr_jumpThumb, State.lr_setLr]
    rfl
  · rw [State.jumpThumb_pc, branchLow_eq_ofNat]
    rfl

end

section
/-! The whole machine: what a step can do, in the two forms that the statements about every step ask for. A step either
works on what the current mode can name (`Ordinary`), or it enters an exception from a state that differs from the one
before only by quiet work and the pc (`StepEnters`). Every invariant is then one fact about each form. -/

namespace Sys2Proof.Machine

/-! ### The two forms of a step -/

/-- The pc may be set to one value on both sides of steady work. -/
theorem Steady.withPc {s t : State} (h : Steady s t) (p : Word) : Steady { s with pc := p } { t with pc := p } where
  cfg := h.cfg
  coproc := h.coproc
  spsr := h.spsr
  lines := h.lines
  masks := h.masks
  thumb := h.thumb
  pc := rfl
  clock := h.clock
  cells := h.cells
  wf := h.wf
  cpsr := h.cpsr

theorem Steady.abandonFetch (s : State) : Steady s s.abandonFetch := ⟨Quiet.accessed s 0 _ _, rfl⟩

/-- An entry that a step takes, by way of steady work and whatever became of the pc. -/
def StepEnters (s t : State) : Prop :=
  ∃ (m : State) (e : ExceptionKind) (lr base : Word), e ≠ .reset ∧ e ≠ .addressOverflow ∧ s.masked e = false ∧
    Steady s { m with pc := s.pc } ∧ s.vectorBase = some base ∧ t = m.entered e lr base

/-- No kind that an instruction raises has a mask (60_exceptions.md R224), and none is Reset or AddressOverflow. -/
theorem ExceptionKind.raisable.unmasked {e : ExceptionKind} (h : e.raisable) (s : State) :
    e ≠ .reset ∧ e ≠ .addressOverflow ∧ s.masked e = false := by
  obtain rfl | rfl | rfl | rfl := h
  · exact ⟨by decide, by decide, rfl⟩
  · exact ⟨by decide, by decide, rfl⟩
  · exact ⟨by decide, by decide, rfl⟩
  · exact ⟨by decide, by decide, rfl⟩

/-- An instruction's entry is the step's: the fetch before it was steady but for the pc. -/
theorem EntersQuietly.stepEnters {s m t : State} (hq : Steady s { m with pc := s.pc }) (h : EntersQuietly m t) :
    StepEnters s t := by
  obtain ⟨m', e, p, base, hq', he, hb, rfl⟩ := h
  obtain ⟨hr, ha, hm⟩ := he.unmasked s
  have hbase : s.vectorBase = m.vectorBase := (State.vectorBase_congr (m := m) hq.coproc).symm
  exact ⟨m', e, _, base, hr, ha, hm, hq.trans (hq'.withPc s.pc), hbase.trans hb, rfl⟩

/-- An instruction's ordinary work is the step's: it starts at an even pc, so it ends at an aligned one. -/
theorem Ordinary.after_fetch {s m t : State} (ht : s.cpsr.t = true) (hq : Steady s { m with pc := s.pc })
    (hpc : m.pc = alignHalf s.pc + 2) (h : Ordinary m t) : Ordinary s t ∧ t.pcAligned := by
  have haligned : t.pcAligned := by
    refine h.jump (hq.thumb.trans ht) ?_
    rw [hpc]
    exact even_add _ _ (alignHalf_even _) rfl
  have hset : Ordinary { m with pc := s.pc } t :=
    ⟨h.cfg, h.coproc, h.spsr, h.lines, h.masks, h.clock, h.cells, h.wf, fun _ _ => haligned⟩
  exact ⟨hq.toQuiet.then_ordinary hset, haligned⟩

/-- Every step is of one of the two forms. -/
theorem step_forms {s t : State} (h : step s = .next t) :
    s.modeLegal ∧ ((Ordinary s t ∧ (s.pcAligned → t.pcAligned)) ∨ StepEnters s t) := by
  obtain ⟨hmode, hcases⟩ := step_cases h
  refine ⟨hmode, ?_⟩
  obtain ⟨e, p, base, he, hm, hb, rfl⟩ | ⟨_, rfl⟩ | ⟨m, p, base, _, hq, hb, rfl⟩ | ⟨i, m, ht, hq, hpc, hexec⟩ := hcases
  · have hkind : e ≠ .reset ∧ e ≠ .addressOverflow := by
      obtain rfl | rfl := he <;> exact ⟨by decide, by decide⟩
    exact .inr ⟨_, e, p, base, hkind.1, hkind.2, hm, Steady.abandonFetch s, hb, rfl⟩
  · exact .inl ⟨(Quiet.accessed s 1 s.draws s.bus).ordinary, id⟩
  · exact .inr ⟨m, .prefetchAbort, p, base, by decide, by decide, rfl, hq, hb, rfl⟩
  · obtain hord | hent := exec_cases hexec
    · obtain ⟨hord', haligned⟩ := Ordinary.after_fetch ht hq hpc hord
      exact .inl ⟨hord', fun _ => haligned⟩
    · exact .inr (hent.stepEnters hq)

/-! ### What an entry leaves -/

theorem StepEnters.enteredFrom {s t : State} (h : StepEnters s t) : EnteredFrom s t := by
  obtain ⟨m, e, lr, base, hr, ha, hm, hq, hb, rfl⟩ := h
  have hcpsr : m.cpsr = s.cpsr := hq.cpsr
  have hspsr : m.spsr = s.spsr := hq.spsr
  refine ⟨e, base, hr, ha, hm, ?_, ?_, hb, rfl⟩
  · rw [State.entered_cpsr, hcpsr]
  · rw [State.entered_spsr, hspsr, hcpsr]

/-- The mode field of an exception's target is one of the seven values (R28). -/
theorem ExcMode.bits_legal (x : ExcMode) : Mode.ofBits x.bits ≠ none := by cases x <;> decide

/-- The target's mode field selects the target's bank (R28). -/
theorem bankOf_excMode_bits (x : ExcMode) : bankOf x.bits = x.bank := by cases x <;> rfl

/-- Every vector is word-aligned, and an entry goes there in ARM state. -/
theorem State.entered_pcAligned (s : State) (e : ExceptionKind) (lr : Word) {base : Word}
    (hb : base = 0x00000000#32 ∨ base = 0xFFFF0000#32) : (s.entered e lr base).pcAligned := by
  simp only [State.pcAligned, State.entered_cpsr, State.entered_pc, Bool.false_eq_true, if_false]
  obtain rfl | rfl := hb <;> cases e <;> decide

theorem StepEnters.inv {s t : State} (h : StepEnters s t) (hwf : Memory.wf s.mem = true) : t.Inv := by
  obtain ⟨m, e, lr, base, _, _, _, hq, hb, rfl⟩ := h
  exact ⟨e.target.bits_legal, m.entered_pcAligned e lr (State.vectorBase_values hb), hq.wf hwf⟩

/-- Among the register cells an entry adds only the target's R14 to those the mode before can name. -/
theorem StepEnters.cells {s t : State} (h : StepEnters s t) {c : Cell} (hc : t.cell c ≠ s.cell c) :
    (∃ i : Fin 15, c = phys s.cpsr.m i) ∨ (t.cpsr.t = false ∧ c = .lr (bankOf t.cpsr.m)) := by
  obtain ⟨m, e, lr, base, _, _, _, hq, _, rfl⟩ := h
  by_cases hlr : c = .lr e.target.bank
  · exact .inr ⟨rfl, by rw [hlr, State.entered_cpsr, bankOf_excMode_bits]⟩
  · rw [State.entered_cell, if_neg hlr] at hc
    exact .inl (hq.cells c hc)

end Sys2Proof.Machine

open Sys2Proof Sys2Proof.Machine

/-- Settles O56: ordinary work keeps the mode and leads an aligned pc to an aligned one; an entry goes to a legal mode and
a word-aligned vector in ARM state; both keep memory's form. -/
theorem everyStepKeepsTheInvariant : Obligations.EveryStepKeepsTheInvariant := by
  rintro s t ⟨hmode, hpc, hwf⟩ h
  obtain ⟨_, ⟨hord, haligned⟩ | hent⟩ := step_forms h
  · obtain ⟨_, _, _, hm⟩ := hord.masks
    refine ⟨?_, haligned hpc, hord.wf hwf⟩
    rw [State.modeLegal, hm]
    exact hmode
  · exact hent.inv hwf

/-- Settles O57: the three parts are evaluated on the one state. -/
theorem theInvariantHoldsAfterReset : Obligations.TheInvariantHoldsAfterReset := by
  refine ⟨?_, ?_, rfl⟩
  · unfold State.modeLegal
    decide
  · unfold State.pcAligned
    decide

/-- Settles O59: ordinary work keeps all of them, and the other form of a step is an entry. -/
theorem onlyAnEntryChangesTheModeTheMasksAndTheSpsrs :
    Obligations.OnlyAnEntryChangesTheModeTheMasksAndTheSpsrs := by
  intro s t h
  obtain ⟨_, ⟨hord, _⟩ | hent⟩ := step_forms h
  · exact .inl ⟨hord.masks, hord.spsr⟩
  · exact .inr hent.enteredFrom

/-- Settles O60: ordinary work writes only cells of the mode's view, and an entry adds the target's R14. -/
theorem otherModesRegistersAreOutOfReach : Obligations.OtherModesRegistersAreOutOfReach := by
  intro s t c _ h hc
  obtain ⟨_, ⟨hord, _⟩ | hent⟩ := step_forms h
  · exact .inl (hord.cells c hc)
  · exact hent.cells hc

/-- Settles O58: ordinary work keeps the lines whole, and an entry clears HALT alone. -/
theorem whatNoStepWrites : Obligations.WhatNoStepWrites := by
  intro s t h
  obtain ⟨_, ⟨hord, _⟩ | hent⟩ := step_forms h
  · have hl := hord.lines
    exact ⟨hord.cfg, hord.coproc, by rw [hl], by rw [hl], .inl (by rw [hl]), hord.clock⟩
  · have hfrom := hent.enteredFrom
    obtain ⟨m, e, lr, base, _, _, _, hq, _, rfl⟩ := hent
    have hl : m.lines = s.lines := hq.lines
    exact ⟨hq.cfg, hq.coproc, by simp [hl], by simp [hl], .inr ⟨rfl, hfrom⟩, hq.clock⟩

end

section
/-! The encoding (30_encoding.md R70 to R94). Decode of encode is Laws/PerInstr.lean's lemma of each constructor. Encode of
decode goes by the shape of the word: a word whose fixed bits are those of a shape is that shape's word of its own
fields, and each row of the decoder's tables reads exactly those fields. -/

namespace Sys2Proof

open Laws.RoundTrip (field_toNat bit_toNat append_toNat lowBits_toNat word7_toNat wordImm5_toNat wordImm8_toNat
  wordAlu_toNat wordHi_toNat wordBx_toNat wordStack_toNat wordCond_toNat wordImm11_toNat)

/-! ### Bytes and table words -/

/-- The two bytes of a halfword, put together again (R51). -/
theorem halfBytes_join (w : Half) : w.extractLsb' 8 8 ++ w.extractLsb' 0 8 = w := by
  apply BitVec.eq_of_toNat_eq
  have := w.isLt
  rw [append_toNat, field_toNat, field_toNat]
  omega

/-- The decoder takes the two bytes of a halfword and leaves the rest (R70). -/
theorem decodeBytes_halfBytes (w : Half) (rest : List Byte) :
    decodeBytes (halfBytes w ++ rest) = .ok (decode w, rest) := by
  show Except.ok (decode (w.extractLsb' 8 8 ++ w.extractLsb' 0 8), rest) = _
  rw [halfBytes_join]

/-- A halfword is its own table word. -/
theorem decodeTableWord_toNat (w : Half) : decodeTableWord 16 w.toNat = some (decode w) := by
  have hw : BitVec.ofNat 16 (w.toNat % 2 ^ 16) = w := by
    rw [Nat.mod_eq_of_lt w.isLt, BitVec.ofNat_toNat, BitVec.setWidth_eq]
  have hb := decodeBytes_halfBytes w []
  rw [List.append_nil] at hb
  rw [decodeTableWord, hw, hb]

/-! ### Decode of encode -/

theorem decode_encode : ∀ i : Instr, decode (encode i) = i
  | .lslImm .. => Laws.RoundTrip.lslImm ..
  | .lsrImm .. => Laws.RoundTrip.lsrImm ..
  | .asrImm .. => Laws.RoundTrip.asrImm ..
  | .addReg .. => Laws.RoundTrip.addReg ..
  | .subReg .. => Laws.RoundTrip.subReg ..
  | .addImm3 .. => Laws.RoundTrip.addImm3 ..
  | .subImm3 .. => Laws.RoundTrip.subImm3 ..
  | .movImm .. => Laws.RoundTrip.movImm ..
  | .cmpImm .. => Laws.RoundTrip.cmpImm ..
  | .addImm8 .. => Laws.RoundTrip.addImm8 ..
  | .subImm8 .. => Laws.RoundTrip.subImm8 ..
  | .and .. => Laws.RoundTrip.and ..
  | .eor .. => Laws.RoundTrip.eor ..
  | .lslReg .. => Laws.RoundTrip.lslReg ..
  | .lsrReg .. => Laws.RoundTrip.lsrReg ..
  | .asrReg .. => Laws.RoundTrip.asrReg ..
  | .adc .. => Laws.RoundTrip.adc ..
  | .sbc .. => Laws.RoundTrip.sbc ..
  | .ror .. => Laws.RoundTrip.ror ..
  | .tst .. => Laws.RoundTrip.tst ..
  | .neg .. => Laws.RoundTrip.neg ..
  | .cmpReg .. => Laws.RoundTrip.cmpReg ..
  | .cmn .. => Laws.RoundTrip.cmn ..
  | .orr .. => Laws.RoundTrip.orr ..
  | .mul .. => Laws.RoundTrip.mul ..
  | .bic .. => Laws.RoundTrip.bic ..
  | .mvn .. => Laws.RoundTrip.mvn ..
  | .addHi .. => Laws.RoundTrip.addHi ..
  | .cmpHi .. => Laws.RoundTrip.cmpHi ..
  | .movHi .. => Laws.RoundTrip.movHi ..
  | .bx .. => Laws.RoundTrip.bx ..
  | .blxReg .. => Laws.RoundTrip.blxReg ..
  | .ldrPc .. => Laws.RoundTrip.ldrPc ..
  | .strReg .. => Laws.RoundTrip.strReg ..
  | .strbReg .. => Laws.RoundTrip.strbReg ..
  | .ldrReg .. => Laws.RoundTrip.ldrReg ..
  | .ldrbReg .. => Laws.RoundTrip.ldrbReg ..
  | .strhReg .. => Laws.RoundTrip.strhReg ..
  | .ldrsbReg .. => Laws.RoundTrip.ldrsbReg ..
  | .ldrhReg .. => Laws.RoundTrip.ldrhReg ..
  | .ldrshReg .. => Laws.RoundTrip.ldrshReg ..
  | .strImm .. => Laws.RoundTrip.strImm ..
  | .ldrImm .. => Laws.RoundTrip.ldrImm ..
  | .strbImm .. => Laws.RoundTrip.strbImm ..
  | .ldrbImm .. => Laws.RoundTrip.ldrbImm ..
  | .strhImm .. => Laws.RoundTrip.strhImm ..
  | .ldrhImm .. => Laws.RoundTrip.ldrhImm ..
  | .strSp .. => Laws.RoundTrip.strSp ..
  | .ldrSp .. => Laws.RoundTrip.ldrSp ..
  | .addPc .. => Laws.RoundTrip.addPc ..
  | .addSp .. => Laws.RoundTrip.addSp ..
  | .addSpImm .. => Laws.RoundTrip.addSpImm ..
  | .subSpImm .. => Laws.RoundTrip.subSpImm ..
  | .push .. => Laws.RoundTrip.push ..
  | .pop .. => Laws.RoundTrip.pop ..
  | .stmia .. => Laws.RoundTrip.stmia ..
  | .ldmia .. => Laws.RoundTrip.ldmia ..
  | .beq .. => Laws.RoundTrip.beq ..
  | .bne .. => Laws.RoundTrip.bne ..
  | .bcs .. => Laws.RoundTrip.bcs ..
  | .bcc .. => Laws.RoundTrip.bcc ..
  | .bmi .. => Laws.RoundTrip.bmi ..
  | .bpl .. => Laws.RoundTrip.bpl ..
  | .bvs .. => Laws.RoundTrip.bvs ..
  | .bvc .. => Laws.RoundTrip.bvc ..
  | .bhi .. => Laws.RoundTrip.bhi ..
  | .bls .. => Laws.RoundTrip.bls ..
  | .bge .. => Laws.RoundTrip.bge ..
  | .blt .. => Laws.RoundTrip.blt ..
  | .bgt .. => Laws.RoundTrip.bgt ..
  | .ble .. => Laws.RoundTrip.ble ..
  | .udfDE .. => Laws.RoundTrip.udfDE ..
  | .swi .. => Laws.RoundTrip.swi ..
  | .b .. => Laws.RoundTrip.b ..
  | .blxSuffix .. => Laws.RoundTrip.blxSuffix ..
  | .blPrefix .. => Laws.RoundTrip.blPrefix ..
  | .blSuffix .. => Laws.RoundTrip.blSuffix ..
  | .udfB1 .. => Laws.RoundTrip.udfB1 ..
  | .udfB2B3 .. => Laws.RoundTrip.udfB2B3 ..
  | .udfB6B7 .. => Laws.RoundTrip.udfB6B7 ..
  | .udfB8BB .. => Laws.RoundTrip.udfB8BB ..
  | .udfBEBF .. => Laws.RoundTrip.udfBEBF ..

theorem decode_of_encode {i : Instr} {w : Half} (h : encode i = w) : decode w = i := h ▸ decode_encode i

/-! ### A word from its own fields -/

theorem word7_fields {w : Half} {key : BitVec 7} (h : (w.extractLsb' 9 7).toNat = key.toNat) :
    word7 key (w.extractLsb' 6 3) (w.extractLsb' 3 3) (regField w 0) = w := by
  apply BitVec.eq_of_toNat_eq
  rw [word7_toNat, ← h]
  simp only [regField, field_toNat]
  omega

theorem lowBits_regField (w : Half) (lo : Nat) : lowBits (regField w lo) = w.extractLsb' lo 3 := by
  apply BitVec.eq_of_toNat_eq
  rw [lowBits_toNat]
  rfl

theorem wordImm5_fields {w : Half} {key : BitVec 5} (h : (w.extractLsb' 11 5).toNat = key.toNat) :
    wordImm5 key (w.extractLsb' 6 5) (regField w 3) (regField w 0) = w := by
  apply BitVec.eq_of_toNat_eq
  rw [wordImm5_toNat, ← h]
  simp only [regField, field_toNat]
  omega

theorem wordImm8_fields {w : Half} {key : BitVec 5} (h : (w.extractLsb' 11 5).toNat = key.toNat) :
    wordImm8 key (regField w 8) (w.extractLsb' 0 8) = w := by
  apply BitVec.eq_of_toNat_eq
  rw [wordImm8_toNat, ← h]
  simp only [regField, field_toNat]
  omega

theorem wordImm11_fields {w : Half} {key : BitVec 5} (h : (w.extractLsb' 11 5).toNat = key.toNat) :
    wordImm11 key (w.extractLsb' 0 11) = w := by
  apply BitVec.eq_of_toNat_eq
  rw [wordImm11_toNat, ← h]
  simp only [field_toNat]
  omega

theorem wordAlu_fields {w : Half} {sub : BitVec 4} (hkey : (w.extractLsb' 10 6).toNat = 16)
    (h : (w.extractLsb' 6 4).toNat = sub.toNat) : wordAlu sub (regField w 3) (regField w 0) = w := by
  apply BitVec.eq_of_toNat_eq
  rw [wordAlu_toNat, ← h]
  rw [field_toNat] at hkey
  simp only [regField, field_toNat]
  omega

theorem hiDest_val (w : Half) : (hiDest w).val = w.toNat / 128 % 2 * 8 + w.toNat % 8 := by
  show (w.extractLsb' 7 1 ++ w.extractLsb' 0 3).toNat = _
  rw [append_toNat, field_toNat, field_toNat]
  omega

theorem hiSource_val (w : Half) : (hiSource w).val = w.toNat / 8 % 16 := field_toNat w 3 4

theorem wordHi_fields {w : Half} {sub : BitVec 2} (hkey : (w.extractLsb' 10 6).toNat = 17)
    (h : (w.extractLsb' 8 2).toNat = sub.toNat) : wordHi sub (hiSource w) (hiDest w) = w := by
  apply BitVec.eq_of_toNat_eq
  rw [wordHi_toNat, hiDest_val, hiSource_val, ← h]
  rw [field_toNat] at hkey
  simp only [field_toNat]
  omega

theorem wordBx_fields {w : Half} {link : BitVec 1} (hkey : (w.extractLsb' 8 8).toNat = 71)
    (h : w.toNat / 2 ^ 7 % 2 = link.toNat) : wordBx link (hiSource w) (w.extractLsb' 0 3) = w := by
  apply BitVec.eq_of_toNat_eq
  rw [wordBx_toNat, hiSource_val, ← h]
  rw [field_toNat] at hkey
  simp only [field_toNat]
  omega

theorem wordStack_fields {w : Half} {load : BitVec 1} (hkey : (w.extractLsb' 9 7).toNat = 90 + 4 * load.toNat) :
    wordStack load (w.getLsbD 8) (w.extractLsb' 0 8) = w := by
  have hbit : (w.getLsbD 8).toNat = w.toNat / 2 ^ 8 % 2 := by
    rw [bit_toNat]
    obtain hb | hb := Nat.mod_two_eq_zero_or_one (w.toNat / 2 ^ 8) <;> rw [hb] <;> rfl
  apply BitVec.eq_of_toNat_eq
  rw [wordStack_toNat, hbit]
  rw [field_toNat] at hkey
  simp only [field_toNat]
  omega

theorem wordCond_fields {w : Half} {cond : BitVec 4} (hkey : (w.extractLsb' 12 4).toNat = 13)
    (h : (w.extractLsb' 8 4).toNat = cond.toNat) : wordCond cond (w.extractLsb' 0 8) = w := by
  apply BitVec.eq_of_toNat_eq
  rw [wordCond_toNat, ← h]
  rw [field_toNat] at hkey
  simp only [field_toNat]
  omega

/-- A word of fixed bits and one free field, as the rows of F13 and the undefined rows are. -/
theorem append_fields {n m : Nat} {w : Half} {key : BitVec n} (h : w.toNat / 2 ^ m = key.toNat) :
    (key ++ w.extractLsb' 0 m).toNat = w.toNat := by
  rw [append_toNat, field_toNat, ← h, Nat.pow_zero, Nat.div_one]
  exact Nat.div_add_mod' ..

/-! ### Encode of decode, table by table -/

/-- Two adjacent fields are one field. -/
theorem field_join {w : Half} {lo n m a b : Nat} (ha : (w.extractLsb' (lo + m) n).toNat = a)
    (hb : (w.extractLsb' lo m).toNat = b) : (w.extractLsb' lo (m + n)).toNat = a * 2 ^ m + b := by
  rw [field_toNat] at ha hb ⊢
  rw [← ha, ← hb, Nat.pow_add, Nat.pow_add, ← Nat.div_div_eq_div_mul, Nat.mod_mul, Nat.mul_comm, Nat.add_comm]

theorem encode_decodeF2 {w : Half} (hkey : (w.extractLsb' 11 5).toNat = 3) : encode (decodeF2 w) = w := by
  have hlt := (w.extractLsb' 9 2).isLt
  unfold decodeF2
  split <;> simp only [encode, lowBits_regField]
  case h_1 h | h_2 h | h_3 h => exact word7_fields (field_join hkey h)
  case h_4 h0 h1 h2 =>
    have h : (w.extractLsb' 9 2).toNat = 3 := by simp only [imp_false] at *; omega
    exact word7_fields (field_join hkey h)

theorem encode_decodeF4 {w : Half} (hkey : (w.extractLsb' 11 5).toNat = 8) (h10 : w.getLsbD 10 = false) :
    encode (decodeF4 w) = w := by
  have hkey : (w.extractLsb' 10 6).toNat = 16 := by
    simp only [bit_toNat, field_toNat, decide_eq_false_iff_not] at *
    omega
  have hlt := (w.extractLsb' 6 4).isLt
  unfold decodeF4
  split <;> simp only [encode]
  case h_1 h | h_2 h | h_3 h | h_4 h | h_5 h | h_6 h | h_7 h | h_8 h | h_9 h | h_10 h | h_11 h | h_12 h | h_13 h
    | h_14 h | h_15 h => exact wordAlu_fields hkey h
  case h_16 =>
    have h : (w.extractLsb' 6 4).toNat = 15 := by simp only [imp_false] at *; omega
    exact wordAlu_fields hkey h

theorem encode_decodeF5 {w : Half} (hkey : (w.extractLsb' 11 5).toNat = 8) (h10 : w.getLsbD 10 = true) :
    encode (decodeF5 w) = w := by
  have hkey : (w.extractLsb' 10 6).toNat = 17 := by
    simp only [bit_toNat, field_toNat, decide_eq_true_eq] at *
    omega
  have hlt := (w.extractLsb' 8 2).isLt
  unfold decodeF5
  split
  case h_1 h | h_2 h | h_3 h => exact wordHi_fields hkey h
  case h_4 =>
    have h : (w.extractLsb' 8 2).toNat = 3 := by simp only [imp_false] at *; omega
    have hkey : (w.extractLsb' 8 8).toNat = 71 := field_join hkey h
    split <;> rename_i hlink <;> rw [bit_toNat, decide_eq_true_eq] at hlink
    · exact wordBx_fields hkey hlink
    · exact wordBx_fields hkey (Nat.mod_two_ne_one.mp hlink)

theorem encode_decodeF7F8 {w : Half}
    (hkey : (w.extractLsb' 11 5).toNat = 10 ∨ (w.extractLsb' 11 5).toNat = 11) : encode (decodeF7F8 w) = w := by
  have hkey : (w.extractLsb' 12 4).toNat = 5 := by
    simp only [field_toNat] at *
    omega
  have hlt := (w.extractLsb' 9 3).isLt
  unfold decodeF7F8
  split <;> simp only [encode, lowBits_regField]
  case h_1 h | h_2 h | h_3 h | h_4 h | h_5 h | h_6 h | h_7 h => exact word7_fields (field_join hkey h)
  case h_8 =>
    have h : (w.extractLsb' 9 3).toNat = 7 := by simp only [imp_false] at *; omega
    exact word7_fields (field_join hkey h)

theorem encode_decodeF16 {w : Half}
    (hkey : (w.extractLsb' 11 5).toNat = 26 ∨ (w.extractLsb' 11 5).toNat = 27) : encode (decodeF16 w) = w := by
  have hkey : (w.extractLsb' 12 4).toNat = 13 := by
    simp only [field_toNat] at *
    omega
  have hlt := (w.extractLsb' 8 4).isLt
  unfold decodeF16
  split
  case h_1 h | h_2 h | h_3 h | h_4 h | h_5 h | h_6 h | h_7 h | h_8 h | h_9 h | h_10 h | h_11 h | h_12 h | h_13 h
    | h_14 h | h_15 h => exact wordCond_fields hkey h
  case h_16 =>
    have h : (w.extractLsb' 8 4).toNat = 15 := by simp only [imp_false] at *; omega
    exact wordCond_fields hkey h

theorem encode_decodeMisc {w : Half}
    (hkey : (w.extractLsb' 11 5).toNat = 22 ∨ (w.extractLsb' 11 5).toNat = 23) : encode (decodeMisc w) = w := by
  have hkey : w.toNat / 2 ^ 12 = 11 := by
    simp only [field_toNat] at *
    omega
  have hlt := (w.extractLsb' 8 4).isLt
  unfold decodeMisc
  split
  all_goals simp only [field_toNat] at *
  case h_1 h =>
    split <;> rename_i hsub <;> refine BitVec.eq_of_toNat_eq (append_fields ?_) <;>
      simp only [bit_toNat, decide_eq_true_eq, BitVec.toNat_ofNat] at * <;> omega
  case h_2 h | h_3 h | h_4 h | h_7 h | h_8 h | h_9 h | h_10 h | h_11 h | h_12 h =>
    refine BitVec.eq_of_toNat_eq (append_fields ?_)
    simp only [BitVec.toNat_ofNat]
    omega
  case h_5 h | h_6 h | h_13 h | h_14 h =>
    refine wordStack_fields ?_
    simp only [field_toNat, BitVec.toNat_ofNat]
    omega
  case h_15 =>
    refine BitVec.eq_of_toNat_eq (append_fields ?_)
    simp only [imp_false, BitVec.toNat_ofNat] at *
    omega

/-- Every word is the word of the instruction it decodes to. -/
theorem encode_decode (w : Half) : encode (decode w) = w := by
  have hlt := (w.extractLsb' 11 5).isLt
  unfold decode
  split
  case h_1 h | h_2 h | h_3 h | h_13 h | h_14 h | h_15 h | h_16 h | h_17 h | h_18 h => exact wordImm5_fields h
  case h_5 h | h_6 h | h_7 h | h_8 h | h_10 h | h_19 h | h_20 h | h_21 h | h_22 h | h_25 h | h_26 h =>
    exact wordImm8_fields h
  case h_29 h | h_30 h | h_31 h => exact wordImm11_fields h
  case h_4 h => exact encode_decodeF2 h
  case h_9 h =>
    split <;> rename_i h10
    · exact encode_decodeF5 h h10
    · exact encode_decodeF4 h (Bool.not_eq_true _ ▸ h10)
  case h_11 h => exact encode_decodeF7F8 (.inl h)
  case h_12 h => exact encode_decodeF7F8 (.inr h)
  case h_23 h => exact encode_decodeMisc (.inl h)
  case h_24 h => exact encode_decodeMisc (.inr h)
  case h_27 h => exact encode_decodeF16 (.inl h)
  case h_28 h => exact encode_decodeF16 (.inr h)
  case h_32 =>
    have h : (w.extractLsb' 11 5).toNat = 31 := by simp only [imp_false] at *; omega
    exact wordImm11_fields h

end Sys2Proof

open Sys2Proof Sys2Proof.Machine

/-- Settles O1, by `decode_encode`: the two bytes of the word are the word again, and so is its table word. -/
theorem decodingAnEncodedInstructionGivesItBack : Obligations.DecodingAnEncodedInstructionGivesItBack := by
  intro i rest
  rw [decodeBytes_halfBytes, decodeTableWord_toNat, decode_encode]
  exact ⟨rfl, rfl⟩

/-- Settles O2: `encode_decode` gives the word back, and `decode_encode` makes the instruction the only one. -/
theorem everyWordIsTheEncodingOfItsInstruction : Obligations.EveryWordIsTheEncodingOfItsInstruction := by
  exact fun w => ⟨encode_decode w, fun i hi => (decode_of_encode hi).symm⟩

/-- Settles O3: each word is its instruction's encoding, as the encoder's tables give it, so it decodes to it. -/
theorem wordsOfTheFormatTablesDecode : Obligations.WordsOfTheFormatTablesDecode :=
  ⟨decode_of_encode rfl, decode_of_encode rfl, decode_of_encode rfl, decode_of_encode rfl,
    decode_of_encode rfl, decode_of_encode rfl, decode_of_encode rfl, decode_of_encode rfl,
    decode_of_encode rfl, decode_of_encode rfl, decode_of_encode rfl, decode_of_encode rfl,
    decode_of_encode rfl, decode_of_encode rfl, decode_of_encode rfl, decode_of_encode rfl,
    decode_of_encode rfl, decode_of_encode rfl, decode_of_encode rfl, decode_of_encode rfl⟩

end

section
/-! The 8-bit immediates, NEG, the comparisons and the conditional branches (40_shift_addsub_imm.md R107 to R110;
41_alu_register.md R130; 42_hireg_bx.md R142; 46_branch_swi.md R200, R201). The flags of `State.subTest` are those of
exact arithmetic, so each condition after a compare is one comparison of numbers. -/

namespace Sys2Proof.Machine

/-! ### 8-bit immediates -/

/-- A zero-extended 8-bit immediate is its number (30_encoding.md R92). -/
theorem zext8_eq_ofNat (i : BitVec 8) : zext8 i = BitVec.ofNat 32 i.toNat := (BitVec.ofNat_toNat 32 i).symm

theorem zext8_toNat (i : BitVec 8) : (zext8 i).toNat = i.toNat := by
  rw [zext8_eq_ofNat, BitVec.toNat_ofNat]
  omega

/-- No 8-bit immediate is negative as a word. -/
theorem zext8_sign (i : BitVec 8) : (zext8 i).getLsbD 31 = false := by
  rw [← BitVec.msb_eq_getLsbD_last, BitVec.msb_eq_decide, zext8_toNat]
  have := i.isLt
  simp only [decide_eq_false_iff_not]
  omega

theorem zext8_eq_zero_iff (i : BitVec 8) : zext8 i = 0#32 ↔ i = 0#8 := by
  rw [← BitVec.toNat_inj, zext8_toNat, ← BitVec.toNat_inj (x := i)]
  rfl

/-! ### The flags of a subtraction as comparisons -/

/-- The sign of a word is bit 31. -/
theorem sign_eq_toInt_neg (a : Word) : a.getLsbD 31 = decide (a.toInt < 0) := by
  rw [← BitVec.msb_eq_toInt, BitVec.msb_eq_getLsbD_last]

/-- N = V after a subtraction: the wrapped difference has the wrong sign exactly when it overflowed. -/
theorem sign_eq_overflow_iff_le (a b : Word) :
    decide ((a - b).toInt < 0) = decide (a.toInt - b.toInt ≠ (a - b).toInt) ↔ b.toInt ≤ a.toInt := by
  have halt := a.toInt_lt
  have hale := a.le_toInt
  have hblt := b.toInt_lt
  have hble := b.le_toInt
  rw [decide_eq_decide, BitVec.toInt_sub, Int.bmod_def]
  omega

/-- The flags after a compare, as comparisons of the operands (R131, R200). -/
structure ComparedFlags (p : Psr) (a b : Word) : Prop where
  z : p.z = true ↔ a = b
  c : p.c = true ↔ b.toNat ≤ a.toNat
  ge : p.n = p.v ↔ b.toInt ≤ a.toInt

theorem State.subTest_comparedFlags (s : State) (a b : Word) : ComparedFlags (s.subTest a b).cpsr a b := by
  obtain ⟨hn, hz⟩ := s.subTest_nz a b
  obtain ⟨hc, hv⟩ := s.subTest_cv a b
  refine ⟨?_, ?_, ?_⟩
  · rw [hz, decide_eq_true_iff]
    exact sub_eq_zero
  · rw [hc, decide_eq_true_iff]
  · rw [hn, hv, sign_eq_toInt_neg]
    exact sign_eq_overflow_iff_le a b

/-- Each condition passes exactly when the comparison that R200 gives as its meaning holds. -/
theorem ComparedFlags.holds_iff {p : Psr} {a b : Word} (h : ComparedFlags p a b) (k : Cond) {meaning : Prop}
    (hk : k.Compares a b = some meaning) : k.Holds p ↔ meaning := by
  obtain ⟨hz, hc, hge⟩ := h
  have hzf : p.z = false ↔ a ≠ b := by rw [← Bool.not_eq_true, hz]
  have hcf : p.c = false ↔ a.toNat < b.toNat := by rw [← Bool.not_eq_true, hc, Nat.not_le]
  have hnat : a = b ↔ a.toNat = b.toNat := BitVec.toNat_inj.symm
  have hint : a = b ↔ a.toInt = b.toInt := BitVec.toInt_inj.symm
  cases k <;> simp only [Cond.Compares, Option.some.injEq, reduceCtorEq] at hk <;> subst hk <;>
    simp only [Cond.Holds, ne_eq]
  case eq => exact hz
  case ne => exact hzf
  case cs => exact hc
  case cc => exact hcf
  case hi => rw [hc, hzf, Ne, hnat]; omega
  case ls => rw [hcf, hz, hnat]; omega
  case ge => exact hge
  case lt => rw [hge]; omega
  case gt => rw [hzf, hge, Ne, hint]; omega
  case le => rw [hz, hge, hint]; omega

/-! ### Conditional branches -/

/-- The model's test of a condition is R200's column. -/
theorem Cond.passes_iff (k : Cond) (p : Psr) : k.passes p = true ↔ k.Holds p := by
  cases k <;> simp [Cond.passes, Cond.Holds]

theorem exec_condInstr (s : State) (k : Cond) (imm8 : BitVec 8) :
    exec (k.instr imm8) s = .next (s.branchIf k imm8) := by cases k <;> rfl

theorem branch8_eq_ofInt (i : BitVec 8) : branch8 i = BitVec.ofInt 32 (2 * i.toInt) :=
  signExtend_shiftLeft_eq_ofInt i 1

theorem State.branchIf_taken {s : State} {k : Cond} (h : k.Holds s.cpsr) (imm8 : BitVec 8) :
    s.branchIf k imm8 = { s with pc := s.pcRead + branch8 imm8 } := if_pos ((k.passes_iff _).mpr h)

theorem State.branchIf_notTaken {s : State} {k : Cond} (h : ¬ k.Holds s.cpsr) (imm8 : BitVec 8) :
    s.branchIf k imm8 = s := if_neg (mt (k.passes_iff _).mp h)

end Sys2Proof.Machine

open Sys2Proof Sys2Proof.Machine

/-- Settles O10: MOV is `State.moveInto` of the immediate, and CMP, ADD and SUB are the operations of F2 on it. -/
theorem eightBitImmediateOperations : Obligations.EightBitImmediateOperations := by
  intro s rd imm8
  rw [← zext8_eq_ofNat]
  refine ⟨⟨_, rfl, ?_, zext8_sign imm8, decide_eq_decide.mpr (zext8_eq_zero_iff imm8), ⟨rfl, rfl⟩, rfl,
    (RegisterFrame.refl s).moveInto rd _⟩, ⟨_, rfl, s.subTest_compares _ _⟩, ⟨_, rfl, s.addInto_addsInto rd _ _⟩,
    ⟨_, rfl, s.subInto_subsInto rd _ _⟩⟩
  rw [State.low_moveInto, if_pos rfl, zext8_toNat]

/-- Settles O16: the difference 0 - Rs borrows unless Rs is 0, and overflows for the one word that is its own negative. -/
theorem negateSubtractsFromZero : Obligations.NegateSubtractsFromZero := by
  intro s rd rs
  have h := s.subInto_subsInto rd 0#32 (s.low rs)
  have ⟨_, _, ⟨hc, hv⟩, _⟩ := h
  refine ⟨_, rfl, h, hc.trans ?_, hv.trans ?_⟩
  · rw [decide_eq_decide, ← BitVec.toNat_inj, BitVec.toNat_zero]
    exact Nat.le_zero
  · have hlt := (s.low rs).toInt_lt
    have hle := (s.low rs).le_toInt
    rw [decide_eq_decide, ← BitVec.toInt_inj, BitVec.toInt_sub, Int.bmod_def]
    have h0 : (0#32).toInt = 0 := rfl
    have hmin : (0x80000000#32).toInt = -2147483648 := rfl
    omega

/-- Settles O19: CMP over any registers is `State.subTest`. -/
theorem hiRegisterCompare : Obligations.HiRegisterCompare :=
  fun s rd rs => ⟨_, rfl, s.subTest_compares (s.readReg rd) (s.readReg rs)⟩

/-- Settles O39: `exec_condInstr` makes every conditional branch one `State.branchIf`, which writes the pc or nothing. -/
theorem conditionalBranches : Obligations.ConditionalBranches := by
  intro s k imm8
  refine ⟨_, exec_condInstr s k imm8, ?_⟩
  by_cases h : k.Holds s.cpsr
  · rw [s.branchIf_taken h, branch8_eq_ofInt]
    exact ⟨fun _ => rfl, fun hn => absurd h hn, ⟨rfl, rfl, rfl, rfl⟩, (RegisterFrame.refl s).setPc _⟩
  · rw [s.branchIf_notTaken h]
    exact ⟨fun hp => absurd hp h, fun _ => rfl, ⟨rfl, rfl, rfl, rfl⟩, RegisterFrame.refl s⟩

/-- Settles O40: CMP leaves the flags of `State.subTest`, which are comparisons of the two registers. -/
theorem conditionsAfterACompareMeanComparisons : Obligations.ConditionsAfterACompareMeanComparisons := by
  intro s t rd rs k meaning h hk
  obtain rfl : s.subTest (s.low rd) (s.low rs) = t := by injection h
  exact (s.subTest_comparedFlags _ _).holds_iff k hk

end

section
/-! The shifter, the logical operations and the carry chain (40_shift_addsub_imm.md R100 to R102; 41_alu_register.md R120
to R137). Each shift has its result and its carry for every amount at once; an instruction then only names the amount. -/

namespace Sys2Proof.Machine

/-! ### The results of the shifter, in exact arithmetic -/

theorem shiftLeft_toNat (v : Word) (n : Nat) (c : Bool) : (shiftLeft v n c).1.toNat = v.toNat * 2 ^ n % 2 ^ 32 := by
  have hbeyond (h : 32 ≤ n) : v.toNat * 2 ^ n % 2 ^ 32 = 0 :=
    Nat.mod_eq_zero_of_dvd ((Nat.pow_dvd_pow 2 h).mul_left _)
  unfold shiftLeft
  split
  case isTrue h0 => rw [h0, Nat.pow_zero, Nat.mul_one, Nat.mod_eq_of_lt v.isLt]
  split
  case isTrue => rw [BitVec.toNat_shiftLeft, Nat.shiftLeft_eq]
  split
  case isTrue => exact (hbeyond (by omega)).symm
  case isFalse => exact (hbeyond (by omega)).symm

theorem shiftRight_toNat (v : Word) (n : Nat) (c : Bool) : (shiftRight v n c).1.toNat = v.toNat / 2 ^ n := by
  have hbeyond (h : 32 ≤ n) : v.toNat / 2 ^ n = 0 :=
    Nat.div_eq_of_lt (v.isLt.trans_le (Nat.pow_le_pow_right (by decide) h))
  unfold shiftRight
  split
  case isTrue h0 => rw [h0, Nat.pow_zero, Nat.div_one]
  split
  case isTrue => rw [BitVec.toNat_ushiftRight, Nat.shiftRight_eq_div_pow]
  split
  case isTrue => exact (hbeyond (by omega)).symm
  case isFalse => exact (hbeyond (by omega)).symm

/-- A word shifted arithmetically out of its width is its sign alone. -/
theorem toInt_div_beyond (v : Word) {n : Nat} (h : 32 ≤ n) : v.toInt / 2 ^ n = if v.getLsbD 31 then -1 else 0 := by
  have hpow : (2 : Int) ^ 32 ≤ 2 ^ n := pow_le_pow_right₀ (by decide) h
  have hlt := v.toInt_lt
  have hle := v.le_toInt
  rw [sign_eq_toInt_neg]
  by_cases hneg : v.toInt < 0
  · rw [decide_eq_true hneg, if_pos rfl]
    exact Int.ediv_eq_neg_one_of_neg_of_le hneg (by omega)
  · rw [decide_eq_false hneg, if_neg (by decide)]
    exact Int.ediv_eq_zero_of_lt (by omega) (by omega)

theorem shiftArith_toInt (v : Word) (n : Nat) (c : Bool) : (shiftArith v n c).1.toInt = v.toInt / 2 ^ n := by
  unfold shiftArith
  split
  case isTrue h0 => rw [h0, pow_zero, Int.ediv_one]
  split
  case isTrue => rw [BitVec.toInt_sshiftRight, Int.shiftRight_eq_div_pow]; rfl
  rw [toInt_div_beyond v (by omega)]
  split <;> rfl

theorem rotate_getLsbD (v : Word) (n : Nat) (c : Bool) {k : Nat} (hk : k < 32) :
    (rotate v n c).1.getLsbD k = v.getLsbD ((k + n) % 32) := by
  unfold rotate
  split
  case isTrue h0 => rw [h0, Nat.add_zero, Nat.mod_eq_of_lt hk]
  split
  case isTrue => congr 1; omega
  rw [BitVec.getLsbD_rotateRight_of_lt (Nat.mod_lt _ (by decide))]
  by_cases hwrap : k < 32 - n % 32
  · rw [decide_eq_true hwrap, cond_true]
    congr 1
    omega
  · rw [decide_eq_false hwrap, cond_false, decide_eq_true hk, Bool.true_and]
    congr 1
    omega

/-! ### The carries of the shifter -/

theorem shiftLeft_carry (v : Word) (n : Nat) (c : Bool) :
    (shiftLeft v n c).2 = if n = 0 then c else if n ≤ 32 then v.getLsbD (32 - n) else false := by
  unfold shiftLeft
  grind

theorem shiftRight_carry (v : Word) (n : Nat) (c : Bool) :
    (shiftRight v n c).2 = if n = 0 then c else if n ≤ 32 then v.getLsbD (n - 1) else false := by
  unfold shiftRight
  grind

theorem shiftArith_carry (v : Word) (n : Nat) (c : Bool) :
    (shiftArith v n c).2 = if n = 0 then c else if n ≤ 32 then v.getLsbD (n - 1) else v.getLsbD 31 := by
  unfold shiftArith
  grind

theorem rotate_carry (v : Word) (n : Nat) (c : Bool) :
    (rotate v n c).2 = if n = 0 then c else (rotate v n c).1.getLsbD 31 := by
  unfold rotate
  grind

/-! ### The amounts -/

/-- The amount of F4 is a remainder (R120). -/
theorem lowByte_eq_mod (v : Word) : lowByte v = v.toNat % 256 := by
  simp [lowByte]

/-- No immediate amount is beyond the width, and LSR's and ASR's is never 0 (R92). -/
theorem shiftAmount_range (i : BitVec 5) : 0 < shiftAmount i ∧ shiftAmount i ≤ 32 := by
  have hlt := i.isLt
  unfold shiftAmount
  split
  case isTrue => decide
  case isFalse h =>
    have hne : i.toNat ≠ 0 := fun h0 => h (BitVec.eq_of_toNat_eq h0)
    omega

/-! ### A result and its carry, written -/

theorem State.shiftInto_shiftsInto (s : State) (rd : Fin 8) {out : Word × Bool} {c : Bool} (hc : out.2 = c) :
    ShiftsInto s (s.shiftInto rd out) rd out.1 c := by
  refine ⟨?_, hc, rfl, ⟨rfl, rfl⟩, rfl, (registerFrame_flags s (s.cpsr.setC_control out.2)).moveInto rd out.1⟩
  rw [State.low, State.shiftInto_cell, if_pos rfl]

/-! ### The logical operations -/

theorem State.moveInto_bitsInto (s : State) (rd : Fin 8) {r : Word} {bit : Nat → Bool}
    (h : ∀ k, k < 32 → r.getLsbD k = bit k) : BitsInto s (s.moveInto rd r) rd bit := by
  have hr : (s.moveInto rd r).low rd = r := by rw [State.low_moveInto, if_pos rfl]
  refine ⟨?_, ?_, ⟨rfl, rfl⟩, rfl, (RegisterFrame.refl s).moveInto rd r⟩
  · rw [hr]
    exact h
  · rw [hr]
    exact s.moveInto_nz rd r

/-- A word is zero when all its bits are. -/
theorem eq_zero_iff_bits (r : Word) : r = 0#32 ↔ ∀ k, k < 32 → r.getLsbD k = false := by
  refine ⟨fun h k _ => by rw [h, BitVec.getLsbD_zero], fun h => BitVec.eq_of_getLsbD_eq fun k hk => ?_⟩
  rw [h k hk, BitVec.getLsbD_zero]

/-! ### The carry chain -/

theorem Psr.carryIn_toNat (p : Psr) : p.carryIn.toNat = if p.c then 1 else 0 := by
  unfold Psr.carryIn
  split <;> rfl

/-- V of a three-term sum with a carry: both operands differ in sign from the wrapped sum. -/
theorem signs_eq_overflow_of_carry (a b r : Word) {c : Int} (hc : 0 ≤ c ∧ c ≤ 1)
    (hr : r.toInt = (a.toInt + b.toInt + c).bmod (2 ^ 32)) :
    ((a ^^^ r) &&& (b ^^^ r)).getLsbD 31 = decide (a.toInt + b.toInt + c ≠ r.toInt) := by
  have halt := a.toInt_lt
  have hale := a.le_toInt
  have hblt := b.toInt_lt
  have hble := b.le_toInt
  rw [BitVec.getLsbD_and, BitVec.getLsbD_xor, BitVec.getLsbD_xor, sign_eq_toInt_neg, sign_eq_toInt_neg b,
    sign_eq_toInt_neg r, Bool.eq_iff_iff]
  simp only [Bool.and_eq_true, bne_iff_ne, ne_eq, decide_eq_decide, decide_eq_true_eq]
  rw [Int.bmod_def] at hr
  omega

/-- V of a three-term difference with a borrow. -/
theorem signs_eq_overflow_of_borrow (a b r : Word) {c : Int} (hc : 0 ≤ c ∧ c ≤ 1)
    (hr : r.toInt = (a.toInt - b.toInt - c).bmod (2 ^ 32)) :
    ((a ^^^ b) &&& (a ^^^ r)).getLsbD 31 = decide (a.toInt - b.toInt - c ≠ r.toInt) := by
  have halt := a.toInt_lt
  have hale := a.le_toInt
  have hblt := b.toInt_lt
  have hble := b.le_toInt
  rw [BitVec.getLsbD_and, BitVec.getLsbD_xor, BitVec.getLsbD_xor, sign_eq_toInt_neg, sign_eq_toInt_neg b,
    sign_eq_toInt_neg r, Bool.eq_iff_iff]
  simp only [Bool.and_eq_true, bne_iff_ne, ne_eq, decide_eq_decide, decide_eq_true_eq]
  rw [Int.bmod_def] at hr
  omega

theorem Psr.carryIn_toInt (p : Psr) : p.carryIn.toInt = ((if p.c then 1 else 0 : Nat) : Int) := by
  unfold Psr.carryIn
  split <;> rfl

theorem adc_toNat (a b : Word) (p : Psr) :
    (a + b + p.carryIn).toNat = (a.toNat + b.toNat + if p.c then 1 else 0) % 2 ^ 32 := by
  rw [BitVec.toNat_add, BitVec.toNat_add, p.carryIn_toNat, Nat.mod_add_mod]

/-- The sum that ADC writes, as a signed number. -/
theorem adc_toInt (a b : Word) (p : Psr) : (a + b + p.carryIn).toInt =
    (a.toInt + b.toInt + ((if p.c then 1 else 0 : Nat) : Int)).bmod (2 ^ 32) := by
  rw [BitVec.toInt_add, BitVec.toInt_add, Int.bmod_add_bmod, p.carryIn_toInt]

theorem sbc_toNat (a b : Word) (p : Psr) : (a - b + p.carryIn - 1).toNat =
    (2 ^ 32 + a.toNat - b.toNat + (if p.c then 1 else 0) + (2 ^ 32 - 1)) % 2 ^ 32 := by
  have h1 : (1 : Word).toNat = 1 := rfl
  have hb := b.isLt
  rw [BitVec.toNat_sub, BitVec.toNat_add, BitVec.toNat_sub, p.carryIn_toNat, h1]
  omega

/-- The difference that SBC writes, as a signed number. -/
theorem sbc_toInt (a b : Word) (p : Psr) : (a - b + p.carryIn - 1).toInt =
    (a.toInt - b.toInt - (1 - ((if p.c then 1 else 0 : Nat) : Int))).bmod (2 ^ 32) := by
  have h1 : (1 : Word).toInt = 1 := rfl
  rw [BitVec.toInt_sub, BitVec.toInt_add, BitVec.toInt_sub, Int.bmod_sub_bmod, Int.add_sub_assoc, Int.bmod_add_bmod,
    p.carryIn_toInt, h1]
  congr 1
  omega

theorem exec_adc (s : State) (rd rs : Fin 8) {r : Word} (hr : r = s.low rd + s.low rs + s.cpsr.carryIn) :
    exec (.adc rd rs) s =
      .next ({ s with cpsr := s.cpsr.adcFlags s.cfg.adcSbcFlags (s.low rd) (s.low rs) r }.moveInto rd r) := by
  rw [hr]
  rfl

theorem exec_sbc (s : State) (rd rs : Fin 8) {r : Word} (hr : r = s.low rd - s.low rs + s.cpsr.carryIn - 1) :
    exec (.sbc rd rs) s =
      .next ({ s with cpsr := s.cpsr.sbcFlags s.cfg.adcSbcFlags (s.low rd) (s.low rs) r }.moveInto rd r) := by
  rw [hr]
  rfl

end Sys2Proof.Machine

open Sys2Proof Sys2Proof.Machine

/-- Settles O7: the three shifts at their amounts, which for LSR and ASR lie between 1 and 32. -/
theorem shiftsByAnImmediate : Obligations.ShiftsByAnImmediate := by
  intro s rd rs imm5
  have hzero : imm5 = 0#5 ↔ imm5.toNat = 0 := BitVec.toNat_inj.symm
  have hlt := imm5.isLt
  obtain ⟨hpos, hle⟩ := shiftAmount_range imm5
  refine ⟨⟨_, _, rfl, shiftLeft_toNat _ _ s.cpsr.c, s.shiftInto_shiftsInto rd ?_⟩,
    ⟨_, _, rfl, shiftRight_toNat _ _ s.cpsr.c, s.shiftInto_shiftsInto rd ?_⟩,
    ⟨_, _, rfl, shiftArith_toInt _ _ s.cpsr.c, s.shiftInto_shiftsInto rd ?_⟩⟩
  · rw [shiftLeft_carry, if_pos (by omega : imm5.toNat ≤ 32)]
    simp only [hzero]
  · exact (shiftRight_carry _ _ _).trans ((if_neg hpos.ne').trans (if_pos hle))
  · exact (shiftArith_carry _ _ _).trans ((if_neg hpos.ne').trans (if_pos hle))

/-- Settles O11: each result bit is the operation on the operands' bits, and TST only sets N and Z of the result of AND. -/
theorem logicalOperations : Obligations.LogicalOperations := by
  intro s rd rs a b
  refine ⟨⟨_, rfl, s.moveInto_bitsInto rd fun k _ => ?_⟩, ⟨_, rfl, s.moveInto_bitsInto rd fun k _ => ?_⟩,
    ⟨_, rfl, s.moveInto_bitsInto rd fun k _ => ?_⟩, ⟨_, rfl, s.moveInto_bitsInto rd fun k hk => ?_⟩,
    ⟨_, rfl, s.moveInto_bitsInto rd fun k hk => ?_⟩,
    ⟨_, rfl, ?_, ?_, ⟨rfl, rfl⟩, rfl, registerFrame_flags s (s.cpsr.setNZ_control _)⟩⟩
  · exact BitVec.getLsbD_and
  · exact BitVec.getLsbD_xor
  · exact BitVec.getLsbD_or
  · rw [BitVec.getLsbD_and, BitVec.getLsbD_not, decide_eq_true hk, Bool.true_and]
  · rw [BitVec.getLsbD_not, decide_eq_true hk, Bool.true_and]
  · exact BitVec.getLsbD_and
  · simp only [State.testFlags_cpsr, Psr.setNZ_z, decide_eq_true_iff, eq_zero_iff_bits, BitVec.getLsbD_and]
    exact Iff.rfl

/-- Settles O12: the three shifts at the amount in the low byte of Rs. -/
theorem shiftsByARegister : Obligations.ShiftsByARegister := by
  intro s rd rs v n
  have hn : lowByte (s.low rs) = n := lowByte_eq_mod _
  rw [← hn]
  exact ⟨⟨_, _, rfl, shiftLeft_toNat _ _ s.cpsr.c, s.shiftInto_shiftsInto rd (shiftLeft_carry ..)⟩,
    ⟨_, _, rfl, shiftRight_toNat _ _ s.cpsr.c, s.shiftInto_shiftsInto rd (shiftRight_carry ..)⟩,
    ⟨_, _, rfl, shiftArith_toInt _ _ s.cpsr.c, s.shiftInto_shiftsInto rd (shiftArith_carry ..)⟩⟩

/-- Settles O13: the rotation at the amount in the low byte of Rs. -/
theorem rotateByARegister : Obligations.RotateByARegister := by
  intro s rd rs v n
  have hn : lowByte (s.low rs) = n := lowByte_eq_mod _
  rw [← hn]
  exact ⟨_, _, rfl, fun k hk => rotate_getLsbD _ _ s.cpsr.c hk, s.shiftInto_shiftsInto rd (rotate_carry ..)⟩

/-- Settles O14: the word written is the three-term sum or difference; its C and V are those of the two-term operation
under `source`, and of the whole one under `architectural`. -/
theorem addAndSubtractWithCarry : Obligations.AddAndSubtractWithCarry := by
  intro s rd rs a b cin
  have hcin : s.cpsr.carryIn.toNat = cin := s.cpsr.carryIn_toNat
  have hbit : 0 ≤ (cin : Int) ∧ (cin : Int) ≤ 1 := by
    simp only [cin]
    split <;> decide
  constructor
  · refine ⟨_, exec_adc s rd rs rfl, ?_, ?_, rfl, (registerFrame_flags s (s.cpsr.adcFlags_control ..)).moveInto rd _,
      fun hk => ?_, fun hk => ?_⟩
    · rw [State.low_moveInto, if_pos rfl]
      exact adc_toNat a b s.cpsr
    · rw [State.low_moveInto, if_pos rfl]
      exact State.moveInto_nz ..
    · rw [hk]
      exact s.addTest_cv a b
    · rw [State.low_moveInto, if_pos rfl, hk]
      exact ⟨by rw [← hcin]; rfl, signs_eq_overflow_of_carry a b _ hbit (adc_toInt a b s.cpsr)⟩
  · refine ⟨_, exec_sbc s rd rs rfl, ?_, ?_, rfl, (registerFrame_flags s (s.cpsr.sbcFlags_control ..)).moveInto rd _,
      fun hk => ?_, fun hk => ?_⟩
    · rw [State.low_moveInto, if_pos rfl]
      exact sbc_toNat a b s.cpsr
    · rw [State.low_moveInto, if_pos rfl]
      exact State.moveInto_nz ..
    · rw [hk]
      exact s.subTest_cv a b
    · rw [State.low_moveInto, if_pos rfl, hk]
      exact ⟨by rw [← hcin]; rfl, signs_eq_overflow_of_borrow a b _ (by omega) (sbc_toInt a b s.cpsr)⟩

end

section
/-! The register view (10_state.md R20 to R25): which cell R21's table names, and what a change of mode does to it. -/

namespace Sys2Proof.Machine

/-! ### Modes and banks -/

theorem Mode.ofBits_bits (m : Mode) : Mode.ofBits m.bits = some m := by cases m <;> decide

theorem Mode.bits_legal (m : Mode) : Mode.ofBits m.bits ≠ none := by
  rw [m.ofBits_bits]
  exact Option.some_ne_none m

theorem bankOf_bits (m : Mode) : bankOf m.bits = m.bank := by
  rw [bankOf, m.ofBits_bits]

/-! ### R21's table, row by row -/

theorem phys_of_lt_eight (m : BitVec 5) {i : Fin 15} (h : i.val < 8) : phys m i = .low ⟨i.val, h⟩ := dif_pos h

theorem phys_of_banked (m : BitVec 5) {i : Fin 15} (h8 : 8 ≤ i.val) (h13 : i.val < 13) :
    ∃ k : Fin 5, i.val = 8 + k.val ∧ phys m i = if m = Mode.fiq.bits then .fiqHi k else .usrHi k := by
  refine ⟨⟨i.val - 8, by omega⟩, (Nat.add_sub_of_le h8).symm, ?_⟩
  rw [phys, dif_neg (by omega), dif_pos h13]
  rfl

/-- R13's cell is named by no other register of any mode. -/
theorem phys_eq_sp_iff (m : BitVec 5) (i : Fin 15) (b : Bank) : phys m i = .sp b ↔ i.val = 13 ∧ bankOf m = b := by
  constructor
  · intro h
    have hi : i.val = 13 := by rw [← regNumber_phys m i, h]; rfl
    obtain rfl : i = 13 := Fin.ext hi
    exact ⟨hi, Cell.sp.inj h⟩
  · rintro ⟨hi, rfl⟩
    obtain rfl : i = 13 := Fin.ext hi
    rfl

/-- R14's cell is named by no other register of any mode. -/
theorem phys_eq_lr_iff (m : BitVec 5) (i : Fin 15) (b : Bank) : phys m i = .lr b ↔ i.val = 14 ∧ bankOf m = b := by
  constructor
  · intro h
    have hi : i.val = 14 := by rw [← regNumber_phys m i, h]; rfl
    obtain rfl : i = 14 := Fin.ext hi
    exact ⟨hi, Cell.lr.inj h⟩
  · rintro ⟨hi, rfl⟩
    obtain rfl : i = 14 := Fin.ext hi
    rfl

/-- A register reads alike in two states that agree on the view and on the cell it names. -/
theorem State.readReg_congr {s t : State} (hm : t.cpsr.m = s.cpsr.m) {i : Fin 16} (hi : i.val < 15)
    (hc : t.cell (phys s.cpsr.m ⟨i.val, hi⟩) = s.cell (phys s.cpsr.m ⟨i.val, hi⟩)) : t.readReg i = s.readReg i := by
  rw [State.readReg, State.readReg, dif_pos hi, dif_pos hi, hm, hc]

/-! ### The mode field rewritten -/

/-- WriteCPSR of a status register's own word, in a legal mode, writes that register (R233). -/
theorem writeCpsr_toWord {p : Psr} (h : Mode.ofBits p.m ≠ none) (s : State) :
    writeCpsr p.toWord s = .next { s with cpsr := p } := by
  rw [writeCpsr, Psr.ofWord_toWord]
  split
  · contradiction
  · rfl

end Sys2Proof.Machine

open Sys2Proof Sys2Proof.Machine

/-- Settles O4: the write is one of the cell that `phys` names, and `phys` is R21's table. -/
theorem aWrittenRegisterReadsBackAndNoOtherChanges : Obligations.AWrittenRegisterReadsBackAndNoOtherChanges := by
  intro s i j v hi
  refine ⟨s.readReg_writeReg hi j v, ?_⟩
  rw [s.writeReg_of_lt hi]
  refine ⟨rfl, _, (s.setCell_frame _ v).1, fun h => ⟨_, phys_of_lt_eight _ h, rfl⟩,
    fun h8 h13 => phys_of_banked s.cpsr.m (i := ⟨i.val, hi⟩) h8 h13, fun mode hmode => ⟨fun h13 => ?_, fun h14 => ?_⟩⟩
  · rw [← bankOf_bits, ← hmode]
    exact (phys_eq_sp_iff ..).mpr ⟨h13, rfl⟩
  · rw [← bankOf_bits, ← hmode]
    exact (phys_eq_lr_iff ..).mpr ⟨h14, rfl⟩

/-- Settles O5: the two writes of the CPSR leave the status as it was, and the write between them goes to a cell that the
first mode does not name. -/
theorem aModeRoundTripKeepsTheVisibleRegisters : Obligations.AModeRoundTripKeepsTheVisibleRegisters := by
  intro s a b x ha hbank
  set t : State := { s with cpsr := { s.cpsr with m := b.bits } }
  have hwrite : t.writeReg 13 x = t.setCell (.sp b.bank) x := by
    rw [t.writeReg_of_lt (by decide), ← bankOf_bits]
    rfl
  refine ⟨t, { t.writeReg 13 x with cpsr := s.cpsr }, writeCpsr_toWord b.bits_legal s, rfl,
    writeCpsr_toWord (ha ▸ a.bits_legal) _, rfl, fun i => ?_, ?_⟩
  · rw [hwrite]
    by_cases hi : i.val < 15
    · have hne : phys s.cpsr.m ⟨i.val, hi⟩ ≠ .sp b.bank := by
        rw [Ne, phys_eq_sp_iff, ha, bankOf_bits]
        exact fun h => hbank h.2
      exact State.readReg_congr (s := s) (t := { t.setCell (.sp b.bank) x with cpsr := s.cpsr }) rfl hi
        ((t.setCell_cell (.sp b.bank) _ x).trans (if_neg hne))
    · simp [State.readReg, hi, State.pcRead, t]
  · rw [t.readReg_writeReg (by decide), if_pos rfl]

end

section
/-! Exceptions (60_exceptions.md): what an entry leaves, from whatever work came before it, and what a return restores. -/

namespace Sys2Proof.Machine

/-! ### The frame of an entry -/

theorem SameCellsExcept.refl (s : State) : SameCellsExcept [] s s := fun _ _ => rfl

/-- An entry from `m`, which differs from `s` in no more than the listed cells, memory and the accesses. -/
theorem State.entered_entersSpoiling {cs : List Cell} {s m : State} {base : Word} (e : ExceptionKind) (lr : Word)
    (hcells : SameCellsExcept cs s m) (hcpsr : m.cpsr = s.cpsr) (hsys : SameSystem s m)
    (hb : s.vectorBase = some base) : EntersSpoiling cs e lr s (m.entered e lr base) := by
  obtain ⟨hcfg, hspsr, hlines, hcoproc⟩ := hsys
  refine ⟨?_, fun c hc => ?_, ?_, fun x hx => ?_, rfl, rfl, rfl, ?_, ?_, ?_, ⟨base, hb, rfl⟩, ?_, hcfg, hcoproc⟩
  · rw [State.entered_cell, if_pos rfl]
  · obtain ⟨hlr, hcs⟩ := not_or.mp (mt List.mem_cons.mpr hc)
    rw [State.entered_cell, if_neg hlr]
    exact hcells c hcs
  · rw [State.entered_spsr, Spsrs.get_set, if_pos rfl, hcpsr]
  · rw [State.entered_spsr, Spsrs.get_set, if_neg hx, hspsr]
  · rw [State.entered_cpsr, hcpsr]
  · rw [SameFlags, State.entered_cpsr, hcpsr]
    exact ⟨rfl, rfl, rfl, rfl⟩
  · rw [State.entered_cpsr, hcpsr]
  · rw [State.entered_lines, hlines]

/-- An entry at once changes nothing else. -/
theorem State.entered_enters (s : State) (e : ExceptionKind) (lr : Word) {base : Word} (hb : s.vectorBase = some base) :
    Enters e lr s (s.entered e lr base) :=
  ⟨s.entered_entersSpoiling e lr (SameCellsExcept.refl s) rfl ⟨rfl, rfl, rfl, rfl⟩ hb, fun _ => rfl⟩

theorem State.entered_noAccess (s : State) (e : ExceptionKind) (lr base : Word) : NoAccess s (s.entered e lr base) :=
  ⟨rfl, rfl, rfl, rfl⟩

theorem State.vectorBase_of_legal {s : State} (h : s.vectorsLegal) : ∃ base, s.vectorBase = some base :=
  Option.ne_none_iff_exists'.mp h

/-- A raised exception is entered with the link A + 2 plus the offset (R15, R227), where the vector base is legal. -/
theorem raise_entered {e : ExceptionKind} (he : e.raisable) {s : State} {base : Word} (hb : s.vectorBase = some base) :
    raise e s = .next (s.entered e (s.pc + e.offset s.cfg s.cpsr.t) base) :=
  enter_unmasked s.pc (he.unmasked s).2.2 hb

/-- An exception raised at once by an instruction. -/
theorem raise_enters {e : ExceptionKind} (he : e.raisable) {s : State} (hv : s.vectorsLegal) :
    ∃ t, raise e s = .next t ∧ Enters e (s.pc + e.offset s.cfg s.cpsr.t) s t ∧ NoAccess s t := by
  obtain ⟨base, hb⟩ := State.vectorBase_of_legal hv
  exact ⟨_, raise_entered he hb, s.entered_enters e _ hb, s.entered_noAccess ..⟩

/-! ### Masks, offsets and the vector base -/

/-- The two kinds with a mask bit (R224). -/
theorem State.masked_iff (s : State) (e : ExceptionKind) :
    s.masked e = true ↔ (e = .fiq ∧ s.cpsr.f = true) ∨ (e = .irq ∧ s.cpsr.i = true) := by
  cases e <;> simp [State.masked]

theorem enter_masked {e : ExceptionKind} (p : Word) {s : State} (h : s.masked e = true) : enter e p s = .next s :=
  if_pos h

/-- An unmasked kind under an answer of slot 15 outside the contract (R229). -/
theorem enter_badVectorBase {e : ExceptionKind} (p : Word) {s : State} (hm : s.masked e = false)
    (hb : s.vectorBase = none) : enter e p s = .refused .badVectorBase := by
  simp [enter, hm, hb]

/-- The kinds whose link is the pc value itself in both states (R220). -/
theorem offset_eq_zero {e : ExceptionKind} (he : e = .reset ∨ e = .undefined ∨ e = .swi) (c : Config) (t : Bool) :
    e.offset c t = 0#32 := by
  obtain rfl | rfl | rfl := he <;> cases t <;> rfl

theorem State.vectorBase_of_empty {s : State} (h : s.coproc[15] = none) : s.vectorBase = some 0x00000000#32 := by
  simp only [State.vectorBase, h]

theorem State.vectorBase_of_handle {s : State} {h : Coproc} (hs : s.coproc[15] = some h) : s.vectorBase =
    if h.exceptionVector = 0x00000000#32 ∨ h.exceptionVector = 0xFFFF0000#32 then some h.exceptionVector else none := by
  simp only [State.vectorBase, hs]

/-! ### The return -/

/-- In the target's mode the SPSR is the target's (R28, R30). -/
theorem spsrFor_target (x : ExcMode) (s : State) : spsrFor x.bits s = .ok (s.spsr.get x) := by cases x <;> rfl

/-- A return in an exception's mode, to a status in a legal mode (R233). -/
theorem returnFromException_eq {s : State} {x : ExcMode} (hm : s.cpsr.m = x.bits)
    (hl : Mode.ofBits (s.spsr.get x).m ≠ none) (target : Word) :
    returnFromException target s = .next ({ s with cpsr := s.spsr.get x }.resumeAt target) := by
  rw [returnFromException, hm, spsrFor_target]
  simp only [writeCpsr_toWord hl]

end Sys2Proof.Machine

open Sys2Proof Sys2Proof.Machine

/-- Settles O46: the three cases are a masked interrupt, a legal vector base, and a base outside the contract. -/
theorem theEntrySequence : Obligations.TheEntrySequence := by
  intro s e p
  rw [← s.masked_iff e, Bool.not_eq_true]
  refine ⟨enter_masked p, fun hm hv => ?_, fun hm hv => enter_badVectorBase p hm (not_not.mp hv)⟩
  obtain ⟨base, hb⟩ := State.vectorBase_of_legal hv
  exact ⟨_, enter_unmasked p hm hb, s.entered_enters e _ hb, s.entered_noAccess ..⟩

/-- Settles O47: the rows of the table one by one, and the three answers of slot 15. -/
theorem theExceptionTable : Obligations.TheExceptionTable := by
  refine ⟨fun c e m vector arm thumb f h => ?_, fun s => ⟨State.vectorBase_of_empty, fun h hs => ?_⟩⟩
  · simp only [List.mem_cons, List.not_mem_nil, or_false, Prod.mk.injEq] at h
    rcases h with ⟨rfl, rfl, rfl, rfl, rfl, rfl⟩ | ⟨rfl, rfl, rfl, rfl, rfl, rfl⟩ | ⟨rfl, rfl, rfl, rfl, rfl, rfl⟩ |
      ⟨rfl, rfl, rfl, rfl, rfl, rfl⟩ | ⟨rfl, rfl, rfl, rfl, rfl, rfl⟩ | ⟨rfl, rfl, rfl, rfl, rfl, rfl⟩ |
      ⟨rfl, rfl, rfl, rfl, rfl, rfl⟩ | ⟨rfl, rfl, rfl, rfl, rfl, rfl⟩
    all_goals exact ⟨rfl, rfl, rfl, rfl, rfl⟩
  · rw [State.vectorBase_of_handle hs]
    exact ⟨fun hv => if_pos hv, fun h0 h1 => if_neg (not_or.mpr ⟨h0, h1⟩)⟩

/-- Settles O44: SWI is raised whatever its comment, and its link has no offset. -/
theorem softwareInterruptEntersSupervisor : Obligations.SoftwareInterruptEntersSupervisor := by
  intro s imm8 hv
  obtain ⟨base, hb⟩ := State.vectorBase_of_legal hv
  have hentered := raise_entered (e := .swi) (.inr (.inl rfl)) hb
  rw [offset_eq_zero (.inr (.inr rfl)), BitVec.add_zero] at hentered
  refine ⟨_, hentered, s.entered_enters .swi _ hb, s.entered_noAccess .., rfl, rfl, fun hempty => ?_⟩
  rw [State.vectorBase_of_empty hempty, Option.some.injEq] at hb
  rw [← hb]
  rfl

/-- Settles O45: each of the encodings raises Undefined, whose link has no offset; 0xBE raises PrefetchAbort, whose offset
in Thumb state is 2. -/
theorem undefinedEncodingsEnterUndefined : Obligations.UndefinedEncodingsEnterUndefined := by
  intro s i b8 b9 b10 b11 rs sbz hv
  refine ⟨fun hi => ?_, fun harch hbkpt hbit ht => ?_⟩
  · have hexec : exec i s = raise .undefined s := by
      rcases hi with rfl | rfl | rfl | rfl | rfl | ⟨rfl, hbkpt⟩ | ⟨rfl, harch⟩ | ⟨rfl, harch⟩
      case inr.inr.inr.inr.inr.inl =>
        refine if_neg ?_
        rintro ⟨harch, hbit, hpre⟩
        simp only [harch, hbit, hpre, reduceCtorEq, Bool.false_eq_true, or_self] at hbkpt
      case inr.inr.inr.inr.inr.inr.inl => simp only [exec, execBlxReg, harch]
      case inr.inr.inr.inr.inr.inr.inr => simp only [exec, execBlxSuffix, harch]
      all_goals rfl
    have henters := raise_enters undefined_raisable hv
    rw [offset_eq_zero (.inr (.inl rfl)), BitVec.add_zero] at henters
    rw [hexec]
    exact henters
  · have hexec : exec (.udfBEBF b9) s = raise .prefetchAbort s := if_pos ⟨harch, hbit, hbkpt⟩
    have henters := raise_enters (e := .prefetchAbort) (.inr (.inr (.inl rfl))) hv
    rw [ht] at henters
    rw [hexec]
    exact henters

/-- Settles O48: the entry left the status in the target's SPSR and wrote one R14, so the return restores the status and
with it the view, in which only a target R14 of the interrupted mode's own differs. -/
theorem aReturnRestoresTheInterruptedState : Obligations.AReturnRestoresTheInterruptedState := by
  intro s t e p x hlegal hm h
  obtain ⟨hm', _⟩ | ⟨base, _, _, rfl⟩ := enter_cases h
  · rw [hm] at hm'
    cases hm'
  have hget : ((s.entered e (p + e.offset s.cfg s.cpsr.t) base).spsr.get e.target) = s.cpsr := by
    rw [State.entered_spsr, Spsrs.get_set, if_pos rfl]
  refine ⟨_, returnFromException_eq (x := e.target) rfl (by rw [hget]; exact hlegal) x, hget, ?_,
    fun i hi hne => ?_, fun _ => rfl, rfl⟩
  · rw [hget]
    rfl
  · refine State.readReg_congr (congrArg Psr.m hget) hi ((s.entered_cell e _ base _).trans (if_neg fun hc => ?_))
    obtain ⟨h14, hbank⟩ := (phys_eq_lr_iff ..).mp hc
    exact hne h14 hbank

/-- Settles O49: Reset has no mask and no offset. -/
theorem resetEntersSupervisorAtTheResetVector : Obligations.ResetEntersSupervisorAtTheResetVector := by
  intro s hv
  obtain ⟨base, hb⟩ := State.vectorBase_of_legal hv
  have hentered := enter_unmasked (e := .reset) s.pc rfl hb
  rw [offset_eq_zero (.inl rfl), BitVec.add_zero] at hentered
  refine ⟨_, hentered, s.entered_enters .reset _ hb, s.entered_noAccess .., rfl, rfl, rfl, Bool.or_true _, ?_⟩
  rw [hb, State.entered_pc]
  exact congrArg some (BitVec.add_zero base).symm

/-- Settles O50: the state is one literal, and each part of the statement is read off it. -/
theorem theStateAfterReset : Obligations.TheStateAfterReset :=
  ⟨⟨_, rfl, rfl⟩, rfl, rfl, rfl, rfl, rfl, rfl, rfl, by decide, rfl⟩

end

section
/-! Address operands and what one access comes to (20_memory.md; 43_load_store.md): an answered load or store with its
frame, and the DataAbort of an aborted one. -/

namespace Sys2Proof.Machine

/-! ### Offsets (30_encoding.md R92) -/

/-- A zero-extended immediate times a factor is the factor times its number. -/
theorem zeroExtend_mul_eq_ofNat {w : Nat} (i : BitVec w) (k : Nat) :
    i.zeroExtend 32 * BitVec.ofNat 32 k = BitVec.ofNat 32 (k * i.toNat) := by
  rw [Nat.mul_comm, BitVec.ofNat_mul, BitVec.ofNat_toNat]

theorem offset5_eq_ofNat (i : BitVec 5) : offset5 i = BitVec.ofNat 32 i.toNat := (BitVec.ofNat_toNat 32 i).symm

theorem offset5x2_eq_ofNat (i : BitVec 5) : offset5x2 i = BitVec.ofNat 32 (2 * i.toNat) := zeroExtend_mul_eq_ofNat i 2

theorem offset5x4_eq_ofNat (i : BitVec 5) : offset5x4 i = BitVec.ofNat 32 (4 * i.toNat) := zeroExtend_mul_eq_ofNat i 4

theorem offset7x4_eq_ofNat (i : BitVec 7) : offset7x4 i = BitVec.ofNat 32 (4 * i.toNat) := zeroExtend_mul_eq_ofNat i 4

theorem offset8x4_eq_ofNat (i : BitVec 8) : offset8x4 i = BitVec.ofNat 32 (4 * i.toNat) := zeroExtend_mul_eq_ofNat i 4

theorem State.addrSp_eq (s : State) (i : BitVec 8) : s.addrSp i = s.sp + BitVec.ofNat 32 (4 * i.toNat) := by
  rw [State.addrSp, offset8x4_eq_ofNat]

theorem State.addrPc_eq (s : State) (i : BitVec 8) :
    s.addrPc i = ((s.pc + 2#32) &&& 0xFFFFFFFD#32) + BitVec.ofNat 32 (4 * i.toNat) := by
  rw [State.addrPc, offset8x4_eq_ofNat]
  rfl

/-! ### Bytes of a word -/

/-- A word is its four bytes. -/
theorem eq_of_bytes {v w : Word} (h : ∀ k, k < 4 → v.extractLsb' (8 * k) 8 = w.extractLsb' (8 * k) 8) : v = w := by
  apply BitVec.eq_of_getLsbD_eq
  intro i hi
  have hbyte := congrArg (fun b : Byte => b.getLsbD (i % 8)) (h (i / 8) (by omega))
  simp only [BitVec.getLsbD_extractLsb', Nat.div_add_mod, Nat.mod_lt i (by decide : 0 < 8), decide_true,
    Bool.true_and] at hbyte
  exact hbyte

/-- What an access of a width carries is a remainder (R13). -/
theorem Width.trim_toNat (w : Width) (v : Word) : (w.trim v).toNat = v.toNat % 2 ^ (8 * w.bytes) := by
  have := v.isLt
  cases w <;> simp [Width.trim, Width.bytes] <;> omega

theorem Memory.read_byte (m : List Host.Cell) (w : Width) (a : Word) {k : Nat} (hk : k < w.bytes) :
    (Memory.read m w a).extractLsb' (8 * k) 8 = Memory.byte m (a + BitVec.ofNat 32 k) := by
  cases w with
  | byte =>
    obtain rfl : k = 0 := by simp only [Width.bytes] at hk; omega
    ext i hi
    simp [Memory.read]
    grind
  | half =>
    have h : k = 0 ∨ k = 1 := by simp only [Width.bytes] at hk; omega
    rcases h with rfl | rfl <;> ext i hi <;> simp [Memory.read] <;> grind
  | word => exact Memory.read_word_byte m a k hk

theorem Memory.read_lt (m : List Host.Cell) (w : Width) (a : Word) :
    (Memory.read m w a).toNat < 2 ^ (8 * w.bytes) := by
  cases w with
  | byte =>
    have := (Memory.byte m a).isLt
    simp only [Memory.read, Width.bytes, BitVec.truncate_eq_setWidth, BitVec.toNat_setWidth]
    omega
  | half =>
    have := (Memory.byte m (a + 1) ++ Memory.byte m a).isLt
    simp only [Memory.read, Width.bytes, BitVec.truncate_eq_setWidth, BitVec.toNat_setWidth]
    omega
  | word => exact BitVec.isLt _

/-- What a read answers is what the statements call found. -/
theorem State.readValue_finds (s : State) (w : Width) (a : Word) : Finds s w a (s.readValue w a) := by
  rw [Finds, FindsAt, State.readValue, nextAnswer_eq]
  cases (s.bus.getD 0 {}).data with
  | some d => exact w.trim_toNat d
  | none => exact ⟨fun k hk => Memory.read_byte s.mem w a hk, Memory.read_lt s.mem w a⟩

/-- Nothing is found beyond the width. -/
theorem Finds.lt {s : State} {w : Width} {a v : Word} (h : Finds s w a v) : v.toNat < 2 ^ (8 * w.bytes) := by
  rw [Finds, FindsAt] at h
  split at h
  · rw [h]
    exact Nat.mod_lt _ (Nat.two_pow_pos _)
  · exact h.2

/-! ### One access -/

/-- The state after an access that is answered (R272). -/
def State.answered (s : State) : State :=
  { s with bus := s.bus.tail, clock := s.clock + (s.nextAnswer.waits + 1) }

/-- The state after an access that aborts (R62; log 6). -/
def State.aborted (s : State) : State :=
  { s with bus := s.bus.tail, clock := s.clock + Config.freeCycles s.draws, draws := s.draws + 1 }

theorem finishLoad_ok {s : State} (h : s.nextAborts = false) (rd : Fin 8) (f : Word → Word) (w : Width) (a : Word) :
    finishLoad rd f (s.busRead w a) = .next (s.answered.setLow rd (f (s.readValue w a))) := by
  rw [s.busRead_ok w a h]
  rfl

theorem finishLoad_abort {s : State} (h : s.nextAborts = true) (rd : Fin 8) (f : Word → Word) (w : Width) (a : Word) :
    finishLoad rd f (s.busRead w a) = raise .dataAbort s.aborted := by
  rw [s.busRead_abort w a h]
  rfl

theorem finishStore_ok {s : State} (h : s.nextAborts = false) (w : Width) (a v : Word) :
    finishStore (s.busWrite w a v) = .next (s.answered.storeBytes w a v) := by
  rw [s.busWrite_ok w a v h]
  rfl

theorem finishStore_abort {s : State} (h : s.nextAborts = true) (w : Width) (a v : Word) :
    finishStore (s.busWrite w a v) = raise .dataAbort s.aborted := by
  rw [s.busWrite_abort w a v h]
  rfl

theorem State.answered_oneAccess (s : State) : OneAccess s s.answered := ⟨(Nat.add_assoc ..).symm, rfl, rfl⟩

/-- An answered load into Rd, with what was found and the frame. -/
theorem finishLoad_loads {s : State} (h : s.nextAborts = false) (rd : Fin 8) (f : Word → Word) (w : Width) (a : Word) :
    ∃ t v, finishLoad rd f (s.busRead w a) = .next t ∧ Finds s w a v ∧ t.low rd = f v ∧ LoadFrame rd s t := by
  refine ⟨_, _, finishLoad_ok h rd f w a, s.readValue_finds w a, ?_, fun c hc => ?_, ⟨rfl, rfl, rfl, rfl⟩,
    ⟨⟨rfl, rfl, rfl, rfl⟩, rfl⟩, ⟨rfl, rfl, rfl, rfl⟩, fun _ => rfl, s.answered_oneAccess, rfl, rfl⟩
  · rw [State.low_setLow, if_pos rfl]
  · rw [State.setLow_cell, if_neg (List.ne_of_not_mem_cons hc)]
    rfl

/-- An answered store, with the bytes it leaves and the frame. -/
theorem finishStore_stores {s : State} (h : s.nextAborts = false) (w : Width) (a v : Word) :
    ∃ t, finishStore (s.busWrite w a v) = .next t ∧ HoldsBytes t a w.bytes v ∧ StoreFrame a w.bytes s t :=
  ⟨_, finishStore_ok h w a v, holdsBytes_storeBytes s.answered w a v, fun _ _ => rfl, ⟨rfl, rfl, rfl, rfl⟩,
    ⟨⟨rfl, rfl, rfl, rfl⟩, rfl⟩, ⟨rfl, rfl, rfl, rfl⟩, sameMemoryOutside_storeBytes s.answered w a v,
    writesJoin_storeBytes s.answered w a v, s.answered_oneAccess, rfl⟩

/-- The DataAbort of an instruction whose one access aborted (R167, R244). -/
theorem raise_aborted {s : State} (hv : s.vectorsLegal) : ∃ t, raise .dataAbort s.aborted = .next t ∧
    Enters .dataAbort (s.pc + ExceptionKind.dataAbort.offset s.cfg s.cpsr.t) s t ∧ t.bus = s.bus.tail ∧
    t.stored = s.stored := by
  obtain ⟨base, hb⟩ := State.vectorBase_of_legal hv
  have hbm : s.aborted.vectorBase = some base := (State.vectorBase_congr (m := s.aborted) rfl).trans hb
  exact ⟨_, raise_entered dataAbort_raisable hbm,
    ⟨State.entered_entersSpoiling .dataAbort _ (fun _ _ => rfl) rfl ⟨rfl, rfl, rfl, rfl⟩ hb, fun _ => rfl⟩, rfl, rfl⟩

/-! ### Alignment and rotation -/

theorem alignHalf_of_even {a : Word} (h : a.getLsbD 0 = false) : alignHalf a = a := by
  apply BitVec.eq_of_getLsbD_eq
  intro i hi
  have hmask : (~~~(1#32) : Word).getLsbD i = decide (i ≠ 0) := by
    have : ∀ j : Fin 32, (~~~(1#32) : Word).getLsbD j.val = decide (j.val ≠ 0) := by decide
    exact this ⟨i, hi⟩
  rw [alignHalf, BitVec.getLsbD_and, hmask]
  by_cases h0 : i = 0
  · rw [h0, h, Bool.false_and]
  · rw [decide_eq_true h0, Bool.and_true]

theorem rotateLoaded_eq (a v : Word) : rotateLoaded a v = v.rotateRight (8 * (a.toNat % 4)) := by
  rw [rotateLoaded, BitVec.extractLsb'_toNat, Nat.shiftRight_zero]

/-! ### Sign extension -/

/-- Where a value fits in `n` bits, sign extension from them is the value, less 2^n from the sign bit up. -/
theorem signExtend_low_toInt {n : Nat} (hn : n ≤ 32) {v : Word} (hv : v.toNat < 2 ^ n) :
    ((v.extractLsb' 0 n).signExtend 32).toInt =
      if 2 * v.toNat < 2 ^ n then (v.toNat : Int) else v.toNat - ((2 ^ n : Nat) : Int) := by
  have hx : (v.extractLsb' 0 n).toNat = v.toNat := by
    rw [BitVec.extractLsb'_toNat, Nat.shiftRight_zero, Nat.mod_eq_of_lt hv]
  rw [BitVec.toInt_signExtend_of_le hn, BitVec.toInt_eq_toNat_cond, hx]

/-- A word is that of its signed number, or of any number that differs by 2^32. -/
theorem eq_of_toInt_eq_toNat_sub {x y : Word} {d : Int} (hd : d = 0 ∨ d = 2 ^ 32) (h : x.toInt = y.toNat - d) :
    x = y := by
  apply BitVec.eq_of_toInt_eq
  have hx := x.toInt_lt
  have hx' := x.le_toInt
  rw [BitVec.toInt_eq_toNat_cond y]
  have := y.isLt
  split <;> omega

/-- Setting the bits above `n` of a value that fits in `n` adds them. -/
theorem or_high_toNat {n : Nat} {v mask : Word} (hv : v.toNat < 2 ^ n) (hmask : 2 ^ n ∣ mask.toNat) :
    (v ||| mask).toNat = v.toNat + mask.toNat := by
  obtain ⟨k, hk⟩ := hmask
  rw [BitVec.toNat_or, hk, Nat.or_comm, ← Nat.two_pow_add_eq_or_of_lt hv, Nat.add_comm]

theorem signHalf_eq {v : Word} (hv : v.toNat < 2 ^ 16) :
    signHalf v = if 2 ^ 15 ≤ v.toNat then v ||| 0xFFFF0000#32 else v := by
  have hint := signExtend_low_toInt (n := 16) (by decide) hv
  split
  · refine eq_of_toInt_eq_toNat_sub (.inr rfl) ?_
    have hmask : (0xFFFF0000#32).toNat = 2 ^ 32 - 2 ^ 16 := rfl
    rw [or_high_toNat (n := 16) hv (by decide), signHalf, hint, if_neg (by omega), hmask]
    omega
  · refine eq_of_toInt_eq_toNat_sub (.inl rfl) ?_
    rw [signHalf, hint, if_pos (by omega), sub_zero]

theorem signByte_eq {v : Word} (hv : v.toNat < 2 ^ 8) :
    signByte v = if 2 ^ 7 ≤ v.toNat then v ||| 0xFFFFFF00#32 else v := by
  have hint := signExtend_low_toInt (n := 8) (by decide) hv
  split
  · refine eq_of_toInt_eq_toNat_sub (.inr rfl) ?_
    have hmask : (0xFFFFFF00#32).toNat = 2 ^ 32 - 2 ^ 8 := rfl
    rw [or_high_toNat (n := 8) hv (by decide), signByte, hint, if_neg (by omega), hmask]
    omega
  · refine eq_of_toInt_eq_toNat_sub (.inl rfl) ?_
    rw [signByte, hint, if_pos (by omega), sub_zero]

/-! ### Halfword accesses, case by case (R56) -/

theorem loadHalfInto_even {a : Word} (h : a.getLsbD 0 = false) (rd : Fin 8) (s : State) :
    loadHalfInto rd a s = finishLoad rd id (s.busRead .half a) := if_neg (by rw [h]; decide)

theorem loadSignedHalfInto_even {a : Word} (h : a.getLsbD 0 = false) (rd : Fin 8) (s : State) :
    loadSignedHalfInto rd a s = finishLoad rd signHalf (s.busRead .half a) := if_neg (by rw [h]; decide)

theorem loadHalfInto_forceAlign {a : Word} {s : State} (h : a.getLsbD 0 = true)
    (hc : s.cfg.misalignedHalfword = .forceAlign) (rd : Fin 8) :
    loadHalfInto rd a s = finishLoad rd (fun v => v.rotateRight 8) (s.busRead .half (alignHalf a)) := by
  simp only [loadHalfInto, h, hc, if_true]

theorem loadSignedHalfInto_forceAlign {a : Word} {s : State} (h : a.getLsbD 0 = true)
    (hc : s.cfg.misalignedHalfword = .forceAlign) (rd : Fin 8) :
    loadSignedHalfInto rd a s = finishLoad rd signByte (s.busRead .byte a) := by
  simp only [loadSignedHalfInto, h, hc, if_true]

theorem loadHalfInto_unspecified {a : Word} {s : State} (h : a.getLsbD 0 = true)
    (hc : s.cfg.misalignedHalfword = .unspecified) (rd : Fin 8) : loadHalfInto rd a s = drawInto rd s := by
  simp only [loadHalfInto, h, hc, if_true]

theorem loadSignedHalfInto_unspecified {a : Word} {s : State} (h : a.getLsbD 0 = true)
    (hc : s.cfg.misalignedHalfword = .unspecified) (rd : Fin 8) : loadSignedHalfInto rd a s = drawInto rd s := by
  simp only [loadSignedHalfInto, h, hc, if_true]

/-- Both forms of STRH that are not refused store at the address with bit 0 cleared. -/
theorem storeHalfAt_aligned {a : Word} {s : State} (h : a.getLsbD 0 = false ∨ s.cfg.misalignedHalfword = .forceAlign)
    (v : Word) : storeHalfAt a v s = finishStore (s.busWrite .half (alignHalf a) v) := by
  by_cases heven : a.getLsbD 0 = false
  · rw [alignHalf_of_even heven]
    exact if_neg (by rw [heven]; decide)
  · simp only [storeHalfAt, Bool.not_eq_false _ ▸ heven, h.resolve_left heven, if_true]

theorem storeHalfAt_unspecified {a : Word} {s : State} (h : a.getLsbD 0 = true)
    (hc : s.cfg.misalignedHalfword = .unspecified) (v : Word) :
    storeHalfAt a v s = .refused .misalignedHalfwordStore := by
  simp only [storeHalfAt, h, hc, if_true]

end Sys2Proof.Machine
end

section
/-! Single loads and stores (43_load_store.md R150 to R167): each instruction is one call of a load or a store at its
address, and what that call comes to is known. -/

namespace Sys2Proof.Machine

/-! ### Word and byte transfers at an address -/

theorem loadWordInto_loads {s : State} (h : s.nextAborts = false) (rd : Fin 8) (a : Word) :
    ∃ t v, loadWordInto rd a s = .next t ∧ Finds s .word (a &&& 0xFFFFFFFC#32) v ∧
      t.low rd = v.rotateRight (8 * (a.toNat % 4)) ∧ LoadFrame rd s t := by
  obtain ⟨t, v, ht, hv, hlow, hframe⟩ := finishLoad_loads h rd (rotateLoaded a) .word (alignWord a)
  exact ⟨t, v, ht, hv, hlow.trans (rotateLoaded_eq a v), hframe⟩

theorem storeWordAt_stores {s : State} (h : s.nextAborts = false) (a v : Word) :
    ∃ t, storeWordAt a v s = .next t ∧ HoldsBytes t (a &&& 0xFFFFFFFC#32) 4 v ∧
      StoreFrame (a &&& 0xFFFFFFFC#32) 4 s t := finishStore_stores h .word (alignWord a) v

theorem storeByteAt_stores {s : State} (h : s.nextAborts = false) (a v : Word) :
    ∃ t, storeByteAt a v s = .next t ∧ HoldsBytes t a 1 v ∧ StoreFrame a 1 s t := finishStore_stores h .byte a v

theorem loadByteInto_loads {s : State} (h : s.nextAborts = false) (rd : Fin 8) (a : Word) :
    ∃ t, loadByteInto rd a s = .next t ∧ Finds s .byte a (t.low rd) ∧ LoadFrame rd s t := by
  obtain ⟨t, v, ht, hv, hlow, hframe⟩ := finishLoad_loads h rd id .byte a
  exact ⟨t, ht, hlow ▸ hv, hframe⟩

/-! ### An aborted access, for every instruction that makes one -/

theorem loadHalfInto_abort {s : State} (h : s.nextAborts = true) (rd : Fin 8) {a : Word}
    (hc : a.getLsbD 0 = true → s.cfg.misalignedHalfword = .forceAlign) :
    loadHalfInto rd a s = raise .dataAbort s.aborted := by
  cases ha : a.getLsbD 0 with
  | false => rw [loadHalfInto_even ha, finishLoad_abort h]
  | true => rw [loadHalfInto_forceAlign ha (hc ha), finishLoad_abort h]

theorem loadSignedHalfInto_abort {s : State} (h : s.nextAborts = true) (rd : Fin 8) {a : Word}
    (hc : a.getLsbD 0 = true → s.cfg.misalignedHalfword = .forceAlign) :
    loadSignedHalfInto rd a s = raise .dataAbort s.aborted := by
  cases ha : a.getLsbD 0 with
  | false => rw [loadSignedHalfInto_even ha, finishLoad_abort h]
  | true => rw [loadSignedHalfInto_forceAlign ha (hc ha), finishLoad_abort h]

theorem storeHalfAt_abort {s : State} (h : s.nextAborts = true) {a : Word} (v : Word)
    (hc : a.getLsbD 0 = true → s.cfg.misalignedHalfword = .forceAlign) :
    storeHalfAt a v s = raise .dataAbort s.aborted := by
  have haligned : a.getLsbD 0 = false ∨ s.cfg.misalignedHalfword = .forceAlign := by
    cases ha : a.getLsbD 0 with
    | false => exact .inl rfl
    | true => exact .inr (hc ha)
  rw [storeHalfAt_aligned haligned, finishStore_abort h]

/-- An empty STMIA on ARMv4 is one access (R193). -/
theorem exec_stmia_empty (rb : Fin 8) (s : State) : exec (.stmia rb 0#8) s = stmEmpty rb s := rfl

/-- An empty LDMIA on ARMv4 is one access (R193). -/
theorem exec_ldmia_empty (rb : Fin 8) (s : State) : exec (.ldmia rb 0#8) s = ldmEmpty rb s := rfl

/-- An instruction whose one access aborts raises DataAbort and does nothing else (R167). -/
theorem exec_of_oneAccess_abort {s : State} {i : Instr} (hi : MakesOneAccess s i) (h : s.nextAborts = true) :
    exec i s = raise .dataAbort s.aborted := by
  cases i with
  | ldrPc | ldrReg | ldrbReg | ldrsbReg | ldrImm | ldrbImm | ldrSp => exact finishLoad_abort h ..
  | strReg | strbReg | strImm | strbImm | strSp => exact finishStore_abort h ..
  | strhReg => exact storeHalfAt_abort h _ hi
  | ldrhReg => exact loadHalfInto_abort h _ hi
  | ldrshReg => exact loadSignedHalfInto_abort h _ hi
  | strhImm rd rb imm5 =>
    rw [MakesOneAccess, ← offset5x2_eq_ofNat] at hi
    exact storeHalfAt_abort h _ hi
  | ldrhImm rd rb imm5 =>
    rw [MakesOneAccess, ← offset5x2_eq_ofNat] at hi
    exact loadHalfInto_abort h _ hi
  | stmia rb rlist =>
    obtain ⟨rfl, harch⟩ := hi
    rw [exec_stmia_empty, stmEmpty, harch]
    simp only [s.busWrite_abort _ _ _ h]
    rfl
  | ldmia rb rlist =>
    obtain ⟨rfl, harch⟩ := hi
    rw [exec_ldmia_empty, ldmEmpty, harch]
    simp only [s.busRead_abort _ _ h]
    rfl
  | _ => exact hi.elim

/-! ### Low address bits -/

theorem low_bits_clear_iff (a : Word) : (a.getLsbD 0 = false ∧ a.getLsbD 1 = false) ↔ a.toNat % 4 = 0 := by
  simp only [BitVec.getLsbD, Nat.testBit_eq_decide_div_mod_eq, decide_eq_false_iff_not]
  omega

/-- The PC as a base is word-aligned wherever the instruction stands (R150). -/
theorem pcBase_aligned {pc : Word} (h : pc.getLsbD 0 = false) : ((pc + 2#32) &&& 0xFFFFFFFD#32).toNat % 4 = 0 := by
  have heven : (pc + 2#32).getLsbD 0 = false := even_add pc 2#32 h rfl
  rw [← low_bits_clear_iff, BitVec.getLsbD_and, BitVec.getLsbD_and, heven, Bool.false_and]
  exact ⟨rfl, Bool.and_false _⟩

/-! ### The free halfword load -/

/-- A load that draws its value makes no access (R56; log 18). -/
theorem drawInto_frame (rd : Fin 8) (s : State) : ∃ t, drawInto rd s = .next t ∧ SameCellsExcept [.low rd] s t ∧
    SameFlags s t ∧ SameControl s t ∧ SameSystem s t ∧ SameMemory s t ∧ t.clock = s.clock ∧ t.bus = s.bus ∧
    t.stored = s.stored ∧ t.pc = s.pc := by
  refine ⟨_, rfl, fun c hc => ?_, ⟨rfl, rfl, rfl, rfl⟩, ⟨⟨rfl, rfl, rfl, rfl⟩, rfl⟩, ⟨rfl, rfl, rfl, rfl⟩,
    fun _ => rfl, rfl, rfl, rfl, rfl⟩
  rw [State.setLow_cell, if_neg (List.ne_of_not_mem_cons hc)]
  rfl

/-! ### Memory answers -/

/-- With no answer of the platform outstanding, a word is found where its bytes are held. -/
theorem Finds.eq_of_holdsBytes {s : State} (hbus : s.bus = []) {a v w : Word} (hf : Finds s .word a v)
    (hh : HoldsBytes s a 4 w) : v = w := by
  rw [Finds, FindsAt, hbus] at hf
  obtain ⟨hbytes, _⟩ := hf
  exact eq_of_bytes fun k hk => (hbytes k hk).trans (hh k hk)

theorem nextAborts_of_no_answers {s : State} (hbus : s.bus = []) : s.nextAborts = false := by
  simp [State.nextAborts, State.nextAnswer, hbus]

end Sys2Proof.Machine

open Sys2Proof Sys2Proof.Machine

/-- Settles O29: every such instruction raises DataAbort in the state its aborted access leaves. -/
theorem anAbortedAccessRaisesDataAbortPrecisely : Obligations.AnAbortedAccessRaisesDataAbortPrecisely := by
  intro s i hi h hv
  rw [exec_of_oneAccess_abort hi h]
  exact raise_aborted hv

/-- Settles O22: the base is even whatever the pc, and bit 1 of it is cleared. -/
theorem loadRelativeToPc : Obligations.LoadRelativeToPc := by
  intro s rd imm8 addr
  have haddr : s.addrPc imm8 = addr := s.addrPc_eq imm8
  refine ⟨fun h => ?_, fun hpc => ?_, fun h hv => ?_⟩
  · obtain ⟨t, v, ht, hv, hlow, hframe⟩ := finishLoad_loads h rd id .word (s.addrPc imm8)
    exact ⟨t, ht, haddr ▸ hlow ▸ hv, hframe⟩
  · rw [low_bits_clear_iff, BitVec.toNat_add, BitVec.toNat_ofNat]
    have hbase := pcBase_aligned hpc
    omega
  · obtain ⟨t, ht, henters, _⟩ := raise_aborted hv
    exact ⟨t, (exec_of_oneAccess_abort (i := .ldrPc rd imm8) trivial h).trans ht, henters⟩

/-- Settles O23: each form is `loadWordInto` at its address. -/
theorem wordLoadsRotate : Obligations.WordLoadsRotate := by
  rintro s rd rb ro imm5 imm8 i a h (⟨rfl, rfl⟩ | ⟨rfl, rfl⟩ | ⟨rfl, rfl⟩)
  · exact loadWordInto_loads h rd _
  · rw [← offset5x4_eq_ofNat]
    exact loadWordInto_loads h rd _
  · rw [← s.addrSp_eq]
    exact loadWordInto_loads h rd _

/-- Settles O24: the byte found is the value, or the value less 256 from 128 up. -/
theorem byteLoadsExtend : Obligations.ByteLoadsExtend := by
  intro s rd rb ro imm5 h
  refine ⟨loadByteInto_loads h rd _, ?_, ?_⟩
  · rw [← offset5_eq_ofNat]
    exact loadByteInto_loads h rd _
  · obtain ⟨t, v, ht, hv, hlow, hframe⟩ := finishLoad_loads h rd signByte .byte (s.low rb + s.low ro)
    refine ⟨t, v, ht, hv, ?_, hframe⟩
    rw [hlow, signByte, signExtend_low_toInt (n := 8) (by decide) hv.lt]
    simp only [show 2 * v.toNat < 2 ^ 8 ↔ v.toNat < 128 by omega]
    rfl

/-- Settles O26: each form is `storeWordAt` its address. -/
theorem wordStoresAlign : Obligations.WordStoresAlign := by
  rintro s rd rb ro imm5 imm8 i a h (⟨rfl, rfl⟩ | ⟨rfl, rfl⟩ | ⟨rfl, rfl⟩)
  · exact storeWordAt_stores h _ _
  · rw [← offset5x4_eq_ofNat]
    exact storeWordAt_stores h _ _
  · rw [← s.addrSp_eq]
    exact storeWordAt_stores h _ _

/-- Settles O27: each form is `storeByteAt` its address. -/
theorem byteStores : Obligations.ByteStores := by
  rintro s rd rb ro imm5 i a h (⟨rfl, rfl⟩ | ⟨rfl, rfl⟩)
  · exact storeByteAt_stores h _ _
  · rw [← offset5_eq_ofNat]
    exact storeByteAt_stores h _ _

/-- Settles O28: each form is `storeHalfAt` its address. -/
theorem halfwordStores : Obligations.HalfwordStores := by
  intro s rd rb ro imm5 i a hi
  have hexec : exec i s = storeHalfAt a (s.low rd) s := by
    obtain ⟨rfl, rfl⟩ | ⟨rfl, rfl⟩ := hi
    · rfl
    · rw [← offset5x2_eq_ofNat]
      rfl
  rw [hexec]
  refine ⟨fun ha h => ?_, fun ha hc => storeHalfAt_unspecified ha hc _⟩
  rw [storeHalfAt_aligned ha]
  exact finishStore_stores h .half (alignHalf a) (s.low rd)

/-- Settles O25: LDRH and LDRSH differ in what becomes of the value found. -/
theorem halfwordLoads : Obligations.HalfwordLoads := by
  intro s rd rb ro imm5 i a signed hi
  have hexec : exec i s = bif signed then loadSignedHalfInto rd a s else loadHalfInto rd a s := by
    obtain ⟨rfl, rfl, rfl⟩ | ⟨rfl, rfl, rfl⟩ | ⟨rfl, rfl, rfl⟩ := hi
    · rfl
    · rfl
    · rw [← offset5x2_eq_ofNat]
      rfl
  rw [hexec]
  refine ⟨fun ha h => ?_, fun ha hc h => ?_, fun ha hc => ?_⟩
  · rw [loadHalfInto_even ha, loadSignedHalfInto_even ha]
    cases signed with
    | false =>
      obtain ⟨t, v, ht, hv, hlow, hframe⟩ := finishLoad_loads h rd id .half a
      exact ⟨t, v, ht, hv, hframe, hlow.trans (if_neg fun hs => absurd hs.1 (by decide)).symm⟩
    | true =>
      obtain ⟨t, v, ht, hv, hlow, hframe⟩ := finishLoad_loads h rd signHalf .half a
      refine ⟨t, v, ht, hv, hframe, ?_⟩
      rw [hlow, signHalf_eq hv.lt]
      simp only [true_and]
  · rw [loadHalfInto_forceAlign ha hc, loadSignedHalfInto_forceAlign ha hc]
    cases signed with
    | false =>
      obtain ⟨t, v, ht, hv, hlow, hframe⟩ := finishLoad_loads h rd (fun v => v.rotateRight 8) .half (alignHalf a)
      exact ⟨t, v, ht, hframe, fun _ => ⟨hv, hlow⟩, fun hs => absurd hs (by decide)⟩
    | true =>
      obtain ⟨t, v, ht, hv, hlow, hframe⟩ := finishLoad_loads h rd signByte .byte a
      exact ⟨t, v, ht, hframe, fun hs => absurd hs (by decide), fun _ => ⟨hv, hlow.trans (signByte_eq hv.lt)⟩⟩
  · rw [loadHalfInto_unspecified ha hc, loadSignedHalfInto_unspecified ha hc, Bool.cond_self]
    exact drawInto_frame rd s

/-- Settles O6: the store leaves the four bytes where the load finds them, and a word is its bytes. -/
theorem aStoredWordLoadsBackRotated : Obligations.AStoredWordLoadsBackRotated := by
  intro s rd rd2 rb imm5 hbus
  set a := s.low rb + offset5x4 imm5 with ha
  have h := nextAborts_of_no_answers hbus
  set t := s.answered.storeBytes .word (alignWord a) (s.low rd)
  have hstore : exec (.strImm rd rb imm5) s = .next t := finishStore_ok h .word (alignWord a) (s.low rd)
  have htbus : t.bus = [] := congrArg List.tail hbus
  have ht := nextAborts_of_no_answers htbus
  have hload : exec (.ldrImm rd2 rb imm5) t =
      .next (t.answered.setLow rd2 (rotateLoaded a (t.readValue .word (alignWord a)))) :=
    finishLoad_ok ht rd2 (rotateLoaded a) .word (alignWord a)
  refine ⟨t, _, hstore, hload, ?_, Memory.wf_write s.mem .word (alignWord a) (s.low rd)⟩
  have hfound : t.readValue .word (alignWord a) = s.low rd :=
    Finds.eq_of_holdsBytes htbus (t.readValue_finds .word (alignWord a))
      (holdsBytes_storeBytes s.answered .word (alignWord a) (s.low rd))
  have hmod : a.toNat % 4 = (s.low rb).toNat % 4 := by
    rw [ha, offset5x4_eq_ofNat, BitVec.toNat_add, BitVec.toNat_ofNat]
    omega
  rw [State.low_setLow, if_pos rfl, hfound, rotateLoaded_eq, hmod]

end

section
/-! Exchanges, address generation, and the block transfers with an empty list (42_hireg_bx.md R144, R145; 44_sp_pc_stack.md
R180 to R183; 45_block_transfer.md R193; 46_branch_swi.md R207). -/

namespace Sys2Proof.Machine

/-! ### A jump that picks the state -/

/-- The frame of a jump: T and the pc apart, no more than the listed cells. -/
def JumpFrame (cs : List Cell) (s t : State) : Prop :=
  SameCellsExcept cs s t ∧ SameFlags s t ∧ SameMasksAndMode s t ∧ SameSystem s t ∧ SameMemory s t ∧ NoAccess s t

theorem JumpFrame.refl (s : State) : JumpFrame [] s s :=
  ⟨fun _ _ => rfl, ⟨rfl, rfl, rfl, rfl⟩, ⟨rfl, rfl, rfl, rfl⟩, ⟨rfl, rfl, rfl, rfl⟩, fun _ => rfl, ⟨rfl, rfl, rfl, rfl⟩⟩

theorem JumpFrame.setLr (s : State) (v : Word) : JumpFrame [.lr (bankOf s.cpsr.m)] s (s.setLr v) :=
  ⟨(s.setLr_frame v).1, ⟨rfl, rfl, rfl, rfl⟩, ⟨rfl, rfl, rfl, rfl⟩, ⟨rfl, rfl, rfl, rfl⟩, fun _ => rfl,
    ⟨rfl, rfl, rfl, rfl⟩⟩

theorem JumpFrame.jumpArm {cs : List Cell} {s t : State} (h : JumpFrame cs s t) (a : Word) :
    JumpFrame cs s (t.jumpArm a) := h

theorem JumpFrame.jumpExchange {cs : List Cell} {s t : State} (h : JumpFrame cs s t) (a : Word) :
    JumpFrame cs s (t.jumpExchange a) := by
  unfold State.jumpExchange
  split
  · exact h
  · exact h.jumpArm a

/-- Bit 0 of the target picks the state (R144). -/
theorem State.jumpExchange_state (s : State) (a : Word) :
    (a.getLsbD 0 = true → (s.jumpExchange a).cpsr.t = s.cpsr.t ∧ (s.jumpExchange a).pc = a &&& 0xFFFFFFFE#32) ∧
    (a.getLsbD 0 = false → (s.jumpExchange a).cpsr.t = false ∧ (s.jumpExchange a).pc = a &&& 0xFFFFFFFC#32) := by
  constructor
  · intro h
    rw [State.jumpExchange, if_pos h]
    exact ⟨rfl, rfl⟩
  · intro h
    rw [State.jumpExchange, if_neg (by rw [h]; decide)]
    exact ⟨rfl, rfl⟩

theorem State.lr_jumpExchange (s : State) (a : Word) : (s.jumpExchange a).lr = s.lr := by
  unfold State.jumpExchange
  split <;> rfl

/-! ### SP adjusted -/

theorem State.setSp_frame (s : State) (v : Word) : RegisterFrame [.sp (bankOf s.cpsr.m)] s (s.setSp v) :=
  s.setCell_frame _ v

/-- Four times a 7-bit immediate is far below 2^32. -/
theorem offset7x4_toNat (i : BitVec 7) : (offset7x4 i).toNat = 4 * i.toNat := by
  rw [offset7x4_eq_ofNat, BitVec.toNat_ofNat]
  omega

/-! ### The empty block transfers (R193) -/

theorem State.low_advanceBase (s : State) (rb : Fin 8) : (s.advanceBase rb).low rb = s.low rb + 0x40#32 := by
  rw [State.low, State.advanceBase_cell, if_pos rfl]

/-- The base's write-back adds one cell to the frame. -/
theorem SameCellsExcept.advanceBase {s t : State} (h : SameCellsExcept [] s t) (rb : Fin 8) :
    SameCellsExcept [.low rb] s (t.advanceBase rb) := fun c hc => by
  rw [State.advanceBase_cell, if_neg (List.ne_of_not_mem_cons hc)]
  exact h c List.not_mem_nil

theorem emptyStmPc_aPlus4 {s : State} (h : s.cfg.stmEmptyPcValue = .aPlus4) : s.emptyStmPc = s.pc + 2#32 := by
  simp only [State.emptyStmPc, h]
  rfl

theorem emptyStmPc_aPlus6 {s : State} (h : s.cfg.stmEmptyPcValue = .aPlus6) : s.emptyStmPc = s.pc + 4#32 := by
  simp only [State.emptyStmPc, h]
  exact BitVec.add_assoc s.pc 2#32 2#32

theorem stmEmpty_armv5 {s : State} (h : s.cfg.arch = .armv5) (rb : Fin 8) :
    stmEmpty rb s = .next (s.advanceBase rb) := by
  simp only [stmEmpty, h]

theorem ldmEmpty_armv5 {s : State} (h : s.cfg.arch = .armv5) (rb : Fin 8) :
    ldmEmpty rb s = .next (s.advanceBase rb) := by
  simp only [ldmEmpty, h]

theorem stmEmpty_armv4 {s : State} (h : s.cfg.arch = .armv4) (hok : s.nextAborts = false) (rb : Fin 8) :
    stmEmpty rb s =
      .next ((s.answered.storeBytes .word (alignWord (s.low rb)) s.emptyStmPc).advanceBase rb) := by
  simp only [stmEmpty, h, s.busWrite_ok _ _ _ hok]
  rfl

theorem ldmEmpty_armv4 {s : State} (h : s.cfg.arch = .armv4) (hok : s.nextAborts = false) (rb : Fin 8) :
    ldmEmpty rb s =
      .next ((s.answered.jumpThumb (s.readValue .word (alignWord (s.low rb)))).advanceBase rb) := by
  simp only [ldmEmpty, h, s.busRead_ok _ _ hok]
  rfl

end Sys2Proof.Machine

open Sys2Proof Sys2Proof.Machine

/-- Settles O20: BX is one exchange, whatever the ignored bits. -/
theorem branchAndExchange : Obligations.BranchAndExchange := by
  intro s rs sbz
  obtain ⟨hthumb, harm⟩ := s.jumpExchange_state (s.readReg rs)
  exact ⟨_, rfl, hthumb, harm, (JumpFrame.refl s).jumpExchange _⟩

/-- Settles O21: both forms write the link and then jump to a target read before. -/
theorem linkAndExchangeOnArmv5 : Obligations.LinkAndExchangeOnArmv5 := by
  intro s rs sbz imm11 harch
  have hreg : exec (.blxReg rs sbz) s = .next ((s.setLr (s.pc ||| 1#32)).jumpExchange (s.readReg rs)) := by
    simp only [exec, execBlxReg, harch]
    rfl
  have hsuffix : exec (.blxSuffix imm11) s =
      .next ((s.setLr (s.pc ||| 1#32)).jumpArm (s.lr + branchLow imm11)) := by
    simp only [exec, execBlxSuffix, harch]
    rfl
  obtain ⟨hthumb, harm⟩ := (s.setLr (s.pc ||| 1#32)).jumpExchange_state (s.readReg rs)
  refine ⟨⟨_, hreg, ?_, hthumb, harm, (JumpFrame.setLr s _).jumpExchange _⟩,
    ⟨_, hsuffix, ?_, ?_, rfl, (JumpFrame.setLr s _).jumpArm _⟩⟩
  · rw [State.lr_jumpExchange, State.lr_setLr]
  · rw [State.lr_jumpArm, State.lr_setLr]
  · rw [State.jumpArm_pc, branchLow_eq_ofNat]
    rfl

/-- Settles O30: both forms write Rd alone. -/
theorem addressGeneration : Obligations.AddressGeneration := by
  intro s rd imm8
  refine ⟨⟨_, rfl, ?_, ⟨rfl, rfl, rfl, rfl⟩, rfl, (RegisterFrame.refl s).setLow rd _⟩,
    ⟨_, rfl, ?_, ⟨rfl, rfl, rfl, rfl⟩, rfl, (RegisterFrame.refl s).setLow rd _⟩⟩
  · rw [State.low_setLow, if_pos rfl, s.addrPc_eq]
  · rw [State.low_setLow, if_pos rfl, s.addrSp_eq]

/-- Settles O31: both forms write the current R13 alone. -/
theorem stackPointerAdjustment : Obligations.StackPointerAdjustment := by
  intro s imm7
  refine ⟨⟨_, rfl, ?_, ⟨rfl, rfl, rfl, rfl⟩, rfl, s.setSp_frame _⟩,
    ⟨_, rfl, ?_, ⟨rfl, rfl, rfl, rfl⟩, rfl, s.setSp_frame _⟩⟩
  · rw [State.sp_setSp, BitVec.toNat_add, offset7x4_toNat]
  · rw [State.sp_setSp, BitVec.toNat_sub, offset7x4_toNat]
    omega

/-- Settles O37: on ARMv5 the base is all that moves; on ARMv4 one access comes before it. -/
theorem emptyBlockTransfers : Obligations.EmptyBlockTransfers := by
  intro s rb base
  refine ⟨fun i harch hi => ?_, fun harch hok => ?_, fun harch hok => ?_⟩
  · have hexec : exec i s = .next (s.advanceBase rb) := by
      obtain rfl | rfl := hi
      · exact ldmEmpty_armv5 harch rb
      · exact stmEmpty_armv5 harch rb
    exact ⟨_, hexec, s.low_advanceBase rb, ⟨rfl, rfl, rfl, rfl⟩, rfl, (RegisterFrame.refl s).setLow rb _⟩
  · exact ⟨_, _, ldmEmpty_armv4 harch hok rb, State.low_advanceBase _ rb, s.readValue_finds .word (alignWord base), rfl,
      (SameCellsExcept.refl s).advanceBase (t := s.answered.jumpThumb _) rb, ⟨rfl, rfl, rfl, rfl⟩,
      ⟨⟨rfl, rfl, rfl, rfl⟩, rfl⟩, ⟨rfl, rfl, rfl, rfl⟩, fun _ => rfl, s.answered_oneAccess, rfl⟩
  · have hbytes := holdsBytes_storeBytes s.answered .word (alignWord base) s.emptyStmPc
    refine ⟨_, stmEmpty_armv4 harch hok rb, State.low_advanceBase _ rb, ?_,
      sameMemoryOutside_storeBytes s.answered .word (alignWord base) s.emptyStmPc,
      writesJoin_storeBytes s.answered .word (alignWord base) s.emptyStmPc,
      SameCellsExcept.advanceBase (t := s.answered.storeBytes ..) (fun _ _ => rfl) rb, ⟨rfl, rfl, rfl, rfl⟩,
      ⟨⟨rfl, rfl, rfl, rfl⟩, rfl⟩, ⟨rfl, rfl, rfl, rfl⟩, s.answered_oneAccess, rfl⟩
    cases hvalue : s.cfg.stmEmptyPcValue with
    | aPlus4 => exact emptyStmPc_aPlus4 hvalue ▸ hbytes
    | aPlus6 => exact emptyStmPc_aPlus6 hvalue ▸ hbytes

end

section
/-! Multiple transfers that complete (44_sp_pc_stack.md R184 to R186; 45_block_transfer.md R191, R192): Laws/Transfer.lean
says what the words of a list do to memory and what they are read from; what is left is which word goes to which place,
and which registers are written after it. -/

namespace Sys2Proof.Machine

/-! ### Places in a list -/

theorem listed_eq_nil_iff (rlist : BitVec 8) : listed rlist = [] ↔ rankIn rlist 8 = 0 := by
  rw [← listed_length, List.length_eq_zero_iff]

theorem rankIn_le_eight (rlist : BitVec 8) : rankIn rlist 8 ≤ 8 := by
  rw [rankIn]
  exact (List.length_filter_le ..).trans_eq List.length_range

/-- What PUSH stores is as many words as it lists, and LR (R184). -/
theorem pushWords_length (s : State) (r : Bool) (rlist : BitVec 8) :
    (s.pushWords r rlist).length = rankIn rlist 8 + (if r then 1 else 0) := by
  rw [State.pushWords, List.length_append, List.length_map, listed_length]
  cases r <;> rfl

/-- A listed register's word stands at its place (R93). -/
theorem pushWords_listed (s : State) (r : Bool) {rlist : BitVec 8} {k : Fin 8} (h : rlist.getLsbD k.val = true) :
    (s.pushWords r rlist)[rankIn rlist k.val]? = some (s.low k) := by
  have hk := listed_getElem rlist k h
  have hlt : rankIn rlist k.val < ((listed rlist).map s.low).length := by
    rw [List.length_map]
    exact (List.getElem?_eq_some_iff.mp hk).1
  rw [State.pushWords, List.getElem?_append_left hlt, List.getElem?_map, hk]
  rfl

/-- LR is the last word of a PUSH with R = 1. -/
theorem pushWords_lr (s : State) (rlist : BitVec 8) : (s.pushWords true rlist)[rankIn rlist 8]? = some s.lr := by
  have hlen : ((listed rlist).map s.low).length = rankIn rlist 8 := by rw [List.length_map, listed_length]
  rw [State.pushWords, List.getElem?_append_right hlen.le, hlen, Nat.sub_self]
  rfl

/-- The first listed register is the one with none listed below it. -/
theorem listed_head_iff {rlist : BitVec 8} {k : Fin 8} (h : rlist.getLsbD k.val = true) :
    (listed rlist).head? = some k ↔ rankIn rlist k.val = 0 := by
  have hk := listed_getElem rlist k h
  rw [List.head?_eq_getElem?]
  constructor
  · intro h0
    have hlt := (List.getElem?_eq_some_iff.mp hk).1
    exact ((List.getElem?_inj hlt (listed_nodup rlist)).mp (hk.trans h0.symm))
  · intro h0
    rw [← h0]
    exact hk

/-! ### What a transfer leaves -/

theorem Carries.cells {s t : State} (h : Carries s t) : SameCellsExcept [] s t := fun c _ => by
  rw [State.cell_eq, State.cell_eq, h.regs]

theorem Carries.flags {s t : State} (h : Carries s t) : SameFlags s t := by
  rw [SameFlags, h.cpsr]
  exact ⟨rfl, rfl, rfl, rfl⟩

theorem Carries.control {s t : State} (h : Carries s t) : SameControl s t := by
  rw [SameControl, SameMasksAndMode, h.cpsr]
  exact ⟨⟨rfl, rfl, rfl, rfl⟩, rfl⟩

theorem Carries.system {s t : State} (h : Carries s t) : SameSystem s t := ⟨h.cfg, h.spsr, h.lines, h.coproc⟩

/-- A stored word, by its place. -/
theorem holdsBytes_of_place {t : State} {a v : Word} {vs : List Word} {j : Nat}
    (h : ∀ i (hi : i < vs.length), HoldsBytes t (wordAddr a i) 4 vs[i]) (hj : vs[j]? = some v) :
    HoldsBytes t (wordAddr a j) 4 v := by
  obtain ⟨hlt, hv⟩ := List.getElem?_eq_some_iff.mp hj
  exact hv ▸ h j hlt

/-! ### Registers written from a list of words -/

/-- Everything but the register cells. -/
structure SameButRegisters (s t : State) : Prop where
  cfg    : t.cfg = s.cfg
  pc     : t.pc = s.pc
  cpsr   : t.cpsr = s.cpsr
  spsr   : t.spsr = s.spsr
  lines  : t.lines = s.lines
  coproc : t.coproc = s.coproc
  clock  : t.clock = s.clock
  mem    : t.mem = s.mem
  bus    : t.bus = s.bus
  draws  : t.draws = s.draws
  stored : t.stored = s.stored

theorem SameButRegisters.refl (s : State) : SameButRegisters s s :=
  ⟨rfl, rfl, rfl, rfl, rfl, rfl, rfl, rfl, rfl, rfl, rfl⟩

theorem setLows_sameButRegisters (s : State) (rs : List (Fin 8)) (vs : List Word) :
    SameButRegisters s (s.setLows rs vs) := by
  induction rs generalizing s vs with
  | nil => exact .refl s
  | cons r rs ih =>
    cases vs with
    | nil => exact .refl s
    | cons v vs =>
      have h := ih (s.setLow r v) vs
      exact ⟨h.cfg, h.pc, h.cpsr, h.spsr, h.lines, h.coproc, h.clock, h.mem, h.bus, h.draws, h.stored⟩

/-- Words past the end of the list of registers go nowhere. -/
theorem setLows_take (s : State) (rs : List (Fin 8)) (vs : List Word) :
    s.setLows rs vs = s.setLows rs (vs.take rs.length) := by
  induction rs generalizing s vs with
  | nil => rfl
  | cons r rs ih =>
    cases vs with
    | nil => rfl
    | cons v vs => exact ih (s.setLow r v) vs

/-- A listed register holds the word at its place; words past the last register are allowed. -/
theorem setLows_listed {s : State} {rlist : BitVec 8} {vs : List Word} (hl : rankIn rlist 8 ≤ vs.length) {k : Fin 8}
    (h : rlist.getLsbD k.val = true) {v : Word} (hv : vs[rankIn rlist k.val]? = some v) :
    (s.setLows (listed rlist) vs).low k = v := by
  have hlen : (vs.take (listed rlist).length).length = (listed rlist).length := by
    rw [List.length_take, listed_length, Nat.min_eq_left hl]
  obtain ⟨hlt, hk⟩ := List.getElem?_eq_some_iff.mp (listed_getElem rlist k h)
  obtain ⟨_, hv⟩ := List.getElem?_eq_some_iff.mp hv
  rw [setLows_take, State.low, (s.setLows_cell _ _ _ (listed_nodup rlist) hlen).1 _ hlt (by rw [hk]), List.getElem_take,
    hv]

/-- No cell but the listed registers' is written. -/
theorem setLows_others (s : State) {rlist : BitVec 8} {vs : List Word} (hl : rankIn rlist 8 ≤ vs.length) :
    SameCellsExcept (listedCells rlist) s (s.setLows (listed rlist) vs) := by
  intro c hc
  have hlen : (vs.take (listed rlist).length).length = (listed rlist).length := by
    rw [List.length_take, listed_length, Nat.min_eq_left hl]
  rw [setLows_take]
  exact (s.setLows_cell _ _ c (listed_nodup rlist) hlen).2 fun r hr he => hc (he ▸ List.mem_map_of_mem hr)

/-- A listed register's place is below the number of registers. -/
theorem listed_place_lt {rlist : BitVec 8} {k : Fin 8} (h : rlist.getLsbD k.val = true) :
    rankIn rlist k.val < rankIn rlist 8 := by
  rw [← listed_length]
  exact (List.getElem?_eq_some_iff.mp (listed_getElem rlist k h)).1

/-- After a load of a list each listed register holds what was found at its place. -/
theorem setLows_found {s t : State} {rlist : BitVec 8} {a : Word} {ws : List Word} (hl : rankIn rlist 8 ≤ ws.length)
    (hfound : ∀ j (hj : j < ws.length), FindsAt j s .word (wordAddr a j) ws[j]) {k : Fin 8}
    (h : rlist.getLsbD k.val = true) :
    FindsAt (rankIn rlist k.val) s .word (wordAddr a (rankIn rlist k.val)) ((t.setLows (listed rlist) ws).low k) := by
  have hlt := (listed_place_lt h).trans_le hl
  rw [setLows_listed hl h (List.getElem?_eq_getElem hlt)]
  exact hfound _ hlt

theorem SameButRegisters.setCell {s t : State} (h : SameButRegisters s t) (c : Cell) (v : Word) :
    SameButRegisters s (t.setCell c v) :=
  ⟨h.cfg, h.pc, h.cpsr, h.spsr, h.lines, h.coproc, h.clock, h.mem, h.bus, h.draws, h.stored⟩

theorem SameCellsExcept.setCell {cs : List Cell} {s t : State} (h : SameCellsExcept cs s t) (c : Cell) (v : Word) :
    SameCellsExcept (c :: cs) s (t.setCell c v) := fun d hd => by
  obtain ⟨hne, hcs⟩ := not_or.mp (mt List.mem_cons.mpr hd)
  rw [State.setCell_cell, if_neg hne]
  exact h d hcs

/-- The frame of a load of `n` words that leaves the pc. -/
theorem loaded_frame {cs : List Cell} {n : Nat} {s t u : State} (hc : Carries s t) (hacc : ManyAccesses n s t)
    (hdraws : t.draws = s.draws) (hmem : t.mem = s.mem) (hstored : t.stored = s.stored) (h : SameButRegisters t u)
    (hcells : SameCellsExcept cs t u) : SameCellsExcept cs s u ∧ SameFlags s u ∧ SameControl s u ∧ SameSystem s u ∧
      SameMemory s u ∧ ManyAccesses n s u ∧ u.draws = s.draws ∧ u.stored = s.stored ∧ u.pc = s.pc := by
  have hcpsr : u.cpsr = s.cpsr := h.cpsr.trans hc.cpsr
  refine ⟨fun c hcs => (hcells c hcs).trans (hc.cells c List.not_mem_nil), ?_, ?_,
    ⟨h.cfg.trans hc.cfg, h.spsr.trans hc.spsr, h.lines.trans hc.lines, h.coproc.trans hc.coproc⟩, fun a => ?_,
    ⟨h.clock.trans hacc.1, h.bus.trans hacc.2⟩, h.draws.trans hdraws, h.stored.trans hstored, h.pc.trans hc.pc⟩
  · rw [SameFlags, hcpsr]
    exact ⟨rfl, rfl, rfl, rfl⟩
  · rw [SameControl, SameMasksAndMode, hcpsr]
    exact ⟨⟨rfl, rfl, rfl, rfl⟩, rfl⟩
  · rw [h.mem, hmem]

/-! ### PUSH -/

theorem execPush_done {s : State} {r : Bool} {rlist : BitVec 8} (hn : rankIn rlist 8 + (if r then 1 else 0) ≠ 0)
    {t : State} {base : Word} (hb : base = s.sp - BitVec.ofNat 32 (4 * (rankIn rlist 8 + (if r then 1 else 0))))
    (h : storeWords (s.pushWords r rlist) 0 base s = .done () t) : exec (.push r rlist) s = .next (t.setSp base) := by
  have hwords : s.pushWords r rlist ≠ [] := fun hc => hn (by rw [← pushWords_length s, hc]; rfl)
  have hbase : s.sp - wordsSize (s.pushWords r rlist).length = base := by
    rw [hb, pushWords_length]
    rfl
  simp only [exec, execPush, hwords, if_false, hbase, h]

/-! ### POP -/

theorem execPop_done {s : State} {r : Bool} {rlist : BitVec 8} {n : Nat}
    (hn : n = rankIn rlist 8 + (if r then 1 else 0)) (h0 : n ≠ 0) {t : State} {ws : List Word}
    (h : loadWords n [] s.sp s = .done ws t) {u : State}
    (hu : u = (t.setLows (listed rlist) ws).setSp (s.sp + BitVec.ofNat 32 (4 * n))) :
    exec (.pop r rlist) s = .next (if r then u.popPc (ws.getD (rankIn rlist 8) 0) else u) := by
  have hu' : (t.setLows (listed rlist) ws).setSp (s.sp + wordsSize n) = u := hu.symm
  simp only [exec, execPop, listed_length, ← hn, h0, if_false, h, hu']
  cases r <;> rfl

/-- A popped pc stays in Thumb state on ARMv4, and on ARMv5 where bit 0 says so (R185). -/
theorem popPc_thumb {s : State} {v : Word} (h : s.cfg.arch = .armv4 ∨ v.getLsbD 0 = true) :
    s.popPc v = s.jumpThumb v := by
  cases harch : s.cfg.arch with
  | armv4 => simp only [State.popPc, harch]
  | armv5 =>
    have hv : v.getLsbD 0 = true := h.resolve_left (by rw [harch]; decide)
    simp only [State.popPc, harch, State.jumpExchange, hv, if_true]

/-- On ARMv5 a popped pc with bit 0 clear switches to ARM state. -/
theorem popPc_arm {s : State} {v : Word} (harch : s.cfg.arch = .armv5) (hv : v.getLsbD 0 = false) :
    s.popPc v = s.jumpArm v := by
  simp only [State.popPc, harch, State.jumpExchange, hv, Bool.false_eq_true, if_false]

/-- Both jumps of a POP leave the register cells and the mode. -/
theorem popPc_cell (s : State) (v : Word) (c : Cell) : (s.popPc v).cell c = s.cell c := by
  unfold State.popPc State.jumpExchange
  split
  · rfl
  · split <;> rfl

theorem popPc_mode (s : State) (v : Word) : (s.popPc v).cpsr.m = s.cpsr.m := (Ordinary.popPc s v).masks.2.2.2

/-- The frame of a POP: T and the pc apart. -/
def PopFrame (cs : List Cell) (n : Nat) (s t : State) : Prop :=
  SameCellsExcept cs s t ∧ SameFlags s t ∧ SameMasksAndMode s t ∧ SameSystem s t ∧ SameMemory s t ∧
    ManyAccesses n s t ∧ t.draws = s.draws ∧ t.stored = s.stored

theorem PopFrame.popPc {cs : List Cell} {n : Nat} {s t : State} (h : PopFrame cs n s t) (v : Word) :
    PopFrame cs n s (t.popPc v) := by
  unfold State.popPc State.jumpExchange
  split
  · exact h
  · split <;> exact h

/-! ### LDMIA -/

theorem execLdmia_done {s : State} {rb : Fin 8} {rlist : BitVec 8} (h0 : rankIn rlist 8 ≠ 0) {t : State}
    {ws : List Word} (h : loadWords (rankIn rlist 8) [] (s.low rb) s = .done ws t) :
    exec (.ldmia rb rlist) s = .next (if rlist.getLsbD rb.val = true then t.setLows (listed rlist) ws else
      (t.setLows (listed rlist) ws).setLow rb (s.low rb + BitVec.ofNat 32 (4 * rankIn rlist 8))) := by
  have hne : listed rlist ≠ [] := mt (listed_eq_nil_iff rlist).mp h0
  simp only [exec, execLdmia, hne, if_false, listed_length, h, mem_listed]
  split <;> rfl

/-! ### STMIA -/

/-- Whether STMIA draws or not, it stores from a state that differs in the free values only. -/
theorem stmDraws_state (s : State) (rb : Fin 8) (regs : List (Fin 8)) :
    ∃ d, (if s.stmDraws rb regs then s.drawn else s) = { s with draws := d } := by
  split
  · exact ⟨s.draws + 1, rfl⟩
  · exact ⟨s.draws, rfl⟩

theorem execStmia_done {s : State} {rb : Fin 8} {rlist : BitVec 8} (h0 : rankIn rlist 8 ≠ 0) {t : State}
    {final : Word} (hf : final = s.low rb + BitVec.ofNat 32 (4 * rankIn rlist 8))
    (h : storeWords ((listed rlist).map (s.stmWord rb (listed rlist) final)) 0 (s.low rb)
      (if s.stmDraws rb (listed rlist) then s.drawn else s) = .done () t) :
    exec (.stmia rb rlist) s = .next (t.setLow rb final) := by
  have hne : listed rlist ≠ [] := mt (listed_eq_nil_iff rlist).mp h0
  have hfinal : s.low rb + wordsSize (rankIn rlist 8) = final := hf.symm
  simp only [exec, execStmia, hne, if_false, listed_length, hfinal, h]

/-- The word at a listed register's place. -/
theorem stmWords_listed (s : State) (rb : Fin 8) (final : Word) {rlist : BitVec 8} {k : Fin 8}
    (h : rlist.getLsbD k.val = true) :
    ((listed rlist).map (s.stmWord rb (listed rlist) final))[rankIn rlist k.val]? =
      some (s.stmWord rb (listed rlist) final k) := by
  rw [List.getElem?_map, listed_getElem rlist k h]
  rfl

/-- Every register but a base that is not first stores its own word (R191). -/
theorem stmWord_own {s : State} {rb k : Fin 8} {rlist : BitVec 8} (hk : rlist.getLsbD k.val = true)
    (h : k ≠ rb ∨ rankIn rlist k.val = 0) (final : Word) : s.stmWord rb (listed rlist) final k = s.low k := by
  refine if_neg ?_
  rintro ⟨heq, hhead⟩
  exact hhead ((listed_head_iff hk).mpr (h.resolve_left (not_not.mpr heq)))

/-- On ARMv4 a base that is listed and not first stores the final base (R191). -/
theorem stmWord_final {s : State} {rb : Fin 8} {rlist : BitVec 8} (hk : rlist.getLsbD rb.val = true)
    (h : rankIn rlist rb.val ≠ 0) (harch : s.cfg.arch = .armv4) (final : Word) :
    s.stmWord rb (listed rlist) final rb = final := by
  have hhead : (listed rlist).head? ≠ some rb := mt (listed_head_iff hk).mp h
  simp only [State.stmWord, hhead, harch, ne_eq, not_false_eq_true, and_self, if_true]

/-! ### Nothing to transfer (R186) -/

/-- A result that is not the refusal of an empty list. -/
def NotEmptyList (r : Result) : Prop := r ≠ .refused .emptyStackList

theorem NotEmptyList.next (s : State) : NotEmptyList (.next s) := nofun

theorem NotEmptyList.raise (e : ExceptionKind) (s : State) : NotEmptyList (raise e s) := by
  unfold Machine.raise enter
  split
  · nofun
  · split <;> nofun

theorem NotEmptyList.finishLoad (rd : Fin 8) (f : Word → Word) (x : Access Word) :
    NotEmptyList (finishLoad rd f x) := by
  cases x with
  | ok v s => exact .next _
  | abort s => exact .raise _ _

theorem NotEmptyList.finishStore (x : Access Unit) : NotEmptyList (finishStore x) := by
  cases x with
  | ok v s => exact .next _
  | abort s => exact .raise _ _

theorem NotEmptyList.loadHalfInto (rd : Fin 8) (a : Word) (s : State) : NotEmptyList (loadHalfInto rd a s) := by
  unfold Machine.loadHalfInto
  split
  · split
    · exact .next _
    · exact .finishLoad _ _ _
  · exact .finishLoad _ _ _

theorem NotEmptyList.loadSignedHalfInto (rd : Fin 8) (a : Word) (s : State) :
    NotEmptyList (loadSignedHalfInto rd a s) := by
  unfold Machine.loadSignedHalfInto
  split
  · split
    · exact .next _
    · exact .finishLoad _ _ _
  · exact .finishLoad _ _ _

theorem NotEmptyList.storeHalfAt (a v : Word) (s : State) : NotEmptyList (storeHalfAt a v s) := by
  unfold Machine.storeHalfAt
  split
  · split
    · nofun
    · exact .finishStore _
  · exact .finishStore _

theorem NotEmptyList.abortTransfer (k : Nat) (spoil : State → State) (s : State) :
    NotEmptyList (abortTransfer k spoil s) := by
  unfold Machine.abortTransfer
  split <;> exact .raise _ _

theorem NotEmptyList.stmEmpty (rb : Fin 8) (s : State) : NotEmptyList (stmEmpty rb s) := by
  unfold Machine.stmEmpty
  split
  · exact .next _
  · split
    · exact .next _
    · exact .raise _ _

theorem NotEmptyList.ldmEmpty (rb : Fin 8) (s : State) : NotEmptyList (ldmEmpty rb s) := by
  unfold Machine.ldmEmpty
  split
  · exact .next _
  · split
    · exact .next _
    · exact .raise _ _

theorem NotEmptyList.execStmia (rb : Fin 8) (rlist : BitVec 8) (s : State) :
    NotEmptyList (execStmia rb rlist s) := by
  simp only [Machine.execStmia]
  split
  · exact .stmEmpty _ _
  · split
    · exact .next _
    · exact .abortTransfer _ _ _

theorem NotEmptyList.execLdmia (rb : Fin 8) (rlist : BitVec 8) (s : State) :
    NotEmptyList (execLdmia rb rlist s) := by
  simp only [Machine.execLdmia]
  split
  · exact .ldmEmpty _ _
  · split
    · split <;> exact .next _
    · exact .abortTransfer _ _ _

/-- Well-formedness of PUSH and POP is that there is something to transfer. -/
theorem transfers_none_iff (r : Bool) (rlist : BitVec 8) :
    (r || rlist != 0) = false ↔ (listed rlist).length + (if r then 1 else 0) = 0 := by
  have hlist : ∀ l : BitVec 8, (l != 0) = false ↔ (listed l).length = 0 := by decide
  cases r with
  | false => exact hlist rlist
  | true => simp

theorem execPush_refused_iff (r : Bool) (rlist : BitVec 8) (s : State) :
    (r || rlist != 0) = false ↔ execPush r rlist s = .refused .emptyStackList := by
  have hwords : s.pushWords r rlist = [] ↔ (r || rlist != 0) = false := by
    rw [← List.length_eq_zero_iff, pushWords_length, transfers_none_iff, listed_length]
  rw [← hwords]
  simp only [execPush]
  split
  case isTrue h => exact iff_of_true h rfl
  case isFalse h =>
    refine iff_of_false h ?_
    split
    · exact NotEmptyList.next _
    · exact NotEmptyList.abortTransfer _ _ _

theorem execPop_refused_iff (r : Bool) (rlist : BitVec 8) (s : State) :
    (r || rlist != 0) = false ↔ execPop r rlist s = .refused .emptyStackList := by
  rw [transfers_none_iff]
  by_cases h : (listed rlist).length + (if r then 1 else 0) = 0
  · exact iff_of_true h (if_pos h)
  · refine iff_of_false h ?_
    simp only [execPop, if_neg h]
    split
    · split <;> exact NotEmptyList.next _
    · exact NotEmptyList.abortTransfer _ _ _

end Sys2Proof.Machine

open Sys2Proof Sys2Proof.Machine

/-- Settles O32: the words of `State.pushWords` go to memory by `storeWords_done`, and then SP is written. -/
theorem pushStoresTheList : Obligations.PushStoresTheList := by
  intro s r rlist n base hn hok
  have hlen : (s.pushWords r rlist).length = n := pushWords_length s r rlist
  have hbound : n ≤ 9 := by
    have := rankIn_le_eight rlist
    simp only [n]
    split <;> omega
  obtain ⟨t, ht, hc, hacc, hdraws, hmem, hjoin, hold⟩ :=
    storeWords_done (s.pushWords r rlist) 0 base s (by omega) (by rw [hlen]; exact hok)
  rw [hlen] at hacc hmem hjoin
  refine ⟨t.setSp base, execPush_done hn rfl ht, t.sp_setSp base, fun k hk => ?_, fun hr => ?_, hmem, hjoin,
    fun c hsp => ?_, hc.flags, hc.control, hc.system, hacc, hdraws, hc.pc⟩
  · exact holdsBytes_of_place (t := t) hold (pushWords_listed s r hk)
  · subst hr
    exact holdsBytes_of_place (t := t) hold (pushWords_lr s rlist)
  · rw [State.setSp_cell, hc.cpsr, if_neg (List.ne_of_not_mem_cons hsp)]
    exact hc.cells c List.not_mem_nil

/-- Settles O33: the words found go to the listed registers by place, then SP is written, and the last word is the pc's. -/
theorem popLoadsTheList : Obligations.PopLoadsTheList := by
  intro s r rlist n hn hok
  obtain ⟨ws, t, ht, hlen, hc, hacc, hdraws, hmem, hstored, hfound⟩ := loadWords_done n [] s.sp s hok
  rw [List.nil_append] at ht
  set u := (t.setLows (listed rlist) ws).setSp (s.sp + BitVec.ofNat 32 (4 * n)) with hu
  have hle : rankIn rlist 8 ≤ ws.length := hlen ▸ Nat.le_add_right ..
  have hsp : bankOf (t.setLows (listed rlist) ws).cpsr.m = bankOf s.cpsr.m := by
    rw [(setLows_sameButRegisters t _ ws).cpsr, hc.cpsr]
  have hsame : SameButRegisters t u := (setLows_sameButRegisters t _ ws).setCell _ _
  have hcells : SameCellsExcept (.sp (bankOf s.cpsr.m) :: listedCells rlist) t u :=
    hsp ▸ (setLows_others t hle).setCell (.sp (bankOf (t.setLows (listed rlist) ws).cpsr.m)) _
  obtain ⟨hframe, hflags, ⟨hmasks, hthumb⟩, hsys, hsamemem, hacc, hdraws, hstored, hpc⟩ :=
    loaded_frame hc hacc hdraws hmem hstored hsame hcells
  have hpop : PopFrame _ n s u := ⟨hframe, hflags, hmasks, hsys, hsamemem, hacc, hdraws, hstored⟩
  have husp : u.sp = s.sp + BitVec.ofNat 32 (4 * n) := State.sp_setSp _ _
  have hlow : ∀ k : Fin 8, rlist.getLsbD k.val = true →
      FindsAt (rankIn rlist k.val) s .word (wordAddr s.sp (rankIn rlist k.val)) (u.low k) := fun k hk => by
    rw [hu, State.low_setSp]
    exact setLows_found hle hfound hk
  have hexec := execPop_done (r := r) rfl hn ht hu
  cases r with
  | false => exact ⟨u, hexec, husp, hlow, fun _ => ⟨hpc, hthumb⟩, nofun, hpop⟩
  | true =>
    have hlast : rankIn rlist 8 < ws.length := hlen ▸ Nat.lt_succ_self _
    rw [List.getD_eq_getElem _ _ hlast] at hexec
    refine ⟨_, hexec, ?_, fun k hk => ?_, nofun, fun _ => ⟨_, hfound _ hlast, fun h => ?_, fun h hv => ?_⟩,
      hpop.popPc _⟩
    · rw [← husp, if_pos rfl, State.sp, State.sp, popPc_cell, popPc_mode]
    · rw [if_pos rfl, State.low, popPc_cell]
      exact hlow k hk
    · rw [if_pos rfl, popPc_thumb (hsys.1.symm ▸ h)]
      exact ⟨rfl, hthumb⟩
    · rw [if_pos rfl, popPc_arm (hsys.1.symm ▸ h) hv]
      exact ⟨rfl, rfl⟩

/-- Settles O36: the words found go to the listed registers by place, and the base is written where it is not listed. -/
theorem loadMultipleLoadsTheList : Obligations.LoadMultipleLoadsTheList := by
  intro s rb rlist n hn hok
  obtain ⟨ws, t, ht, hlen, hc, hacc, hdraws, hmem, hstored, hfound⟩ := loadWords_done n [] (s.low rb) s hok
  rw [List.nil_append] at ht
  have hle : rankIn rlist 8 ≤ ws.length := hlen.ge
  have hsame := setLows_sameButRegisters t (listed rlist) ws
  have hcells := setLows_others t hle
  have hexec := execLdmia_done hn ht
  cases hrb : rlist.getLsbD rb.val with
  | true =>
    rw [if_pos hrb] at hexec
    refine ⟨_, hexec, fun k hk => setLows_found hle hfound hk, nofun,
      loaded_frame hc hacc hdraws hmem hstored hsame fun c hcs => hcells c fun hmem => hcs (List.mem_cons_of_mem _ hmem)⟩
  | false =>
    rw [if_neg (by rw [hrb]; decide)] at hexec
    refine ⟨_, hexec, fun k hk => ?_, fun _ => ?_,
      loaded_frame hc hacc hdraws hmem hstored (hsame.setCell _ _) (hcells.setCell _ _)⟩
    · have hne : k ≠ rb := fun he => by rw [he, hrb] at hk; cases hk
      rw [State.low_setLow, if_neg hne]
      exact setLows_found hle hfound hk
    · rw [State.low_setLow, if_pos rfl]

/-- Settles O35: the words go to memory by `storeWords_done`, from a state that differs in the free values only. -/
theorem storeMultipleStoresTheList : Obligations.StoreMultipleStoresTheList := by
  intro s rb rlist n final hn hok
  set words := (listed rlist).map (s.stmWord rb (listed rlist) final)
  have hlen : words.length = n := by rw [List.length_map, listed_length]
  have hbound : n ≤ 8 := rankIn_le_eight rlist
  obtain ⟨d, hd⟩ := stmDraws_state s rb (listed rlist)
  obtain ⟨t, ht, hc, hacc, _, hmem, hjoin, hold⟩ :=
    storeWords_done words 0 (s.low rb) { s with draws := d } (by omega) (by rw [hlen]; exact hok)
  rw [hlen] at hacc hmem hjoin
  refine ⟨t.setLow rb final, execStmia_done hn rfl (hd ▸ ht), ?_, fun k hk hown => ?_, fun hk hrank harch => ?_, hmem,
    hjoin, hc.cells.setCell _ _, hc.flags, hc.control, hc.system, hacc, hc.pc⟩
  · rw [State.low_setLow, if_pos rfl]
  · rw [← stmWord_own hk hown final]
    exact holdsBytes_of_place (t := t) hold (stmWords_listed s rb final hk)
  · have h := stmWord_final hk hrank harch final
    exact holdsBytes_of_place (t := t) hold ((stmWords_listed s rb final hk).trans (congrArg some h))

/-- Settles O34: PUSH and POP refuse when they list nothing, and no other instruction answers that refusal. -/
theorem emptyStackListsAreRefused : Obligations.EmptyStackListsAreRefused := by
  intro i s
  cases i with
  | push r rlist => exact execPush_refused_iff r rlist s
  | pop r rlist => exact execPop_refused_iff r rlist s
  | ldrPc | ldrReg | ldrbReg | ldrsbReg | ldrImm | ldrbImm | ldrSp =>
    exact iff_of_false nofun (NotEmptyList.finishLoad _ _ _)
  | strReg | strbReg | strImm | strbImm | strSp => exact iff_of_false nofun (NotEmptyList.finishStore _)
  | strhReg | strhImm => exact iff_of_false nofun (NotEmptyList.storeHalfAt _ _ _)
  | ldrhReg | ldrhImm => exact iff_of_false nofun (NotEmptyList.loadHalfInto _ _ _)
  | ldrshReg => exact iff_of_false nofun (NotEmptyList.loadSignedHalfInto _ _ _)
  | stmia rb rlist => exact iff_of_false nofun (NotEmptyList.execStmia rb rlist s)
  | ldmia rb rlist => exact iff_of_false nofun (NotEmptyList.execLdmia rb rlist s)
  | udfDE | udfB1 | udfB2B3 | udfB6B7 | udfB8BB => exact iff_of_false nofun (NotEmptyList.raise .undefined s)
  | swi => exact iff_of_false nofun (NotEmptyList.raise .swi s)
  | udfBEBF ignored =>
    refine iff_of_false nofun ?_
    simp only [exec, execUdfBEBF]
    split <;> exact NotEmptyList.raise _ s
  | blxReg | blxSuffix =>
    refine iff_of_false nofun ?_
    simp only [exec, execBlxReg, execBlxSuffix]
    split
    · exact NotEmptyList.raise _ s
    · exact NotEmptyList.next _
  | _ => exact iff_of_false nofun (NotEmptyList.next _)

end

section
/-! A multiple transfer that aborts (60_exceptions.md R231, R244): the words before the abort are stored, what D37 names is
made free, and DataAbort is entered. -/

namespace Sys2Proof.Machine

/-! ### What is made free -/

/-- Making things free: steady work that touches the listed cells and the `n` bytes from `a`, and writes no address. -/
structure Spoils (cs : List Cell) (a : Word) (n : Nat) (s t : State) : Prop where
  steady : Steady s t
  cells  : SameCellsExcept cs s t
  memory : SameMemoryOutside (wordAddr a 0) n s t
  stored : t.stored = s.stored

theorem Spoils.trans {cs ds : List Cell} {a : Word} {n : Nat} {s t u : State} (h : Spoils cs a n s t)
    (h' : Spoils ds a n t u) : Spoils (cs ++ ds) a n s u where
  steady := h.steady.trans h'.steady
  cells := fun c hc => by
    obtain ⟨hcs, hds⟩ := not_or.mp (mt List.mem_append.mpr hc)
    exact (h'.cells c hds).trans (h.cells c hcs)
  memory := h.memory.trans h'.memory
  stored := h'.stored.trans h.stored

theorem Spoils.mono {cs ds : List Cell} {a : Word} {n : Nat} {s t : State} (h : Spoils cs a n s t) (hsub : cs ⊆ ds) :
    Spoils ds a n s t := { h with cells := fun c hc => h.cells c fun hcs => hc (hsub hcs) }

theorem spoilLow_spoils (s : State) (r : Fin 8) (a : Word) (n : Nat) :
    Spoils [.low r] a n s (s.drawn.setLow r s.freeWord) where
  steady := Steady.spoilLows s [r]
  cells := fun c hc => by
    rw [State.setLow_cell, if_neg (List.ne_of_not_mem_cons hc), State.drawn_cell]
  memory := fun _ _ => rfl
  stored := rfl

theorem spoilLows_spoils (s : State) (rs : List (Fin 8)) (a : Word) (n : Nat) :
    Spoils (rs.map .low) a n s (s.spoilLows rs) := by
  induction rs generalizing s with
  | nil => exact ⟨Steady.refl s, fun _ _ => rfl, fun _ _ => rfl, rfl⟩
  | cons r rs ih => exact (spoilLow_spoils s r a n).trans (ih _)

theorem spoilSp_spoils (s : State) (a : Word) (n : Nat) : Spoils [.sp (bankOf s.cpsr.m)] a n s s.spoilSp := by
  refine ⟨Steady.spoilSp s, fun c hc => ?_, fun _ _ => rfl, rfl⟩
  rw [State.spoilSp, State.setSp_cell, State.drawn_cpsr, if_neg (List.ne_of_not_mem_cons hc), State.drawn_cell]

theorem spoilWords_regs_stored (s : State) (a : Word) (k : Nat) :
    (∀ c, (s.spoilWords a k).cell c = s.cell c) ∧ (s.spoilWords a k).stored = s.stored := by
  induction k generalizing s a with
  | zero => exact ⟨fun _ => rfl, rfl⟩
  | succ k ih => exact ih _ (a + 4)

theorem spoilWords_spoils (s : State) (a : Word) {k : Nat} (hk : k < 2 ^ 29) :
    Spoils [] a (4 * k) s (s.spoilWords a k) :=
  have ⟨hcells, hstored⟩ := spoilWords_regs_stored s a k
  ⟨Steady.spoilWords s a k, fun c _ => hcells c, spoilWords_outside s a k hk, hstored⟩

/-! ### The entry -/

/-- A transfer that aborts after `k` words enters DataAbort: precisely for `k = 0`, and after the spoiling otherwise. -/
theorem abortTransfer_entersAfter {s m : State} {k : Nat} {cs : List Cell} {writes : Bool} {a : Word}
    {spoil : State → State} (hv : s.vectorsLegal) (hc : Carries s m)
    (hmem : SameMemoryOutside (wordAddr a 0) (if writes then 4 * k else 0) s m)
    (hjoin : WritesJoin (wordAddr a 0) (if writes then 4 * k else 0) s m)
    (hspoil : Spoils cs a (if writes then 4 * k else 0) m (spoil m)) :
    ∃ t, abortTransfer k spoil m = .next t ∧ EntersAfter k cs writes a s t := by
  obtain ⟨base, hb⟩ := State.vectorBase_of_legal hv
  have hstart : ∀ x : State, x.coproc = s.coproc → x.cfg = s.cfg → x.pc = s.pc → x.cpsr = s.cpsr →
      raise .dataAbort x =
        .next (x.entered .dataAbort (s.pc + ExceptionKind.dataAbort.offset s.cfg s.cpsr.t) base) := by
    intro x hcoproc hcfg hpc hcpsr
    rw [raise_entered dataAbort_raisable ((State.vectorBase_congr hcoproc).trans hb), hcfg, hpc, hcpsr]
  by_cases h0 : k = 0
  · refine ⟨_, (if_pos h0).trans (hstart m hc.coproc hc.cfg hc.pc hc.cpsr), ?_, hmem, hjoin⟩
    rw [if_pos h0]
    exact State.entered_entersSpoiling _ _ hc.cells hc.cpsr hc.system hb
  · obtain ⟨hsteady, hcells, hspoiled, hstored⟩ := hspoil
    have hcpsr : (spoil m).cpsr = s.cpsr := hsteady.cpsr.trans hc.cpsr
    have hcfg : (spoil m).cfg = s.cfg := hsteady.cfg.trans hc.cfg
    have hcoproc : (spoil m).coproc = s.coproc := hsteady.coproc.trans hc.coproc
    refine ⟨_, (if_neg h0).trans (hstart (spoil m) hcoproc hcfg (hsteady.pc.trans hc.pc) hcpsr), ?_,
      hmem.trans hspoiled, fun x => ?_⟩
    · rw [if_neg h0]
      exact State.entered_entersSpoiling _ _ (fun c hcs => (hcells c hcs).trans (hc.cells c List.not_mem_nil)) hcpsr
        ⟨hcfg, hsteady.spsr.trans hc.spsr, hsteady.lines.trans hc.lines, hcoproc⟩ hb
    · rw [State.entered_stored, hstored]
      exact hjoin x

/-- A load of words makes no address a written one, whatever it comes to. -/
theorem loadWords_abort_stored {n j : Nat} {vs : List Word} {a : Word} {s t : State}
    (h : loadWords n vs a s = .abort j t) : t.stored = s.stored := by
  induction n generalizing vs a s with
  | zero => cases h
  | succ n ih =>
    cases hab : s.nextAborts with
    | false =>
      simp only [loadWords, s.busRead_ok _ _ hab] at h
      have hs := ih h
      exact hs
    | true =>
      simp only [loadWords, s.busRead_abort _ _ hab] at h
      cases h
      rfl

/-! ### The four transfers -/

section
variable {s : State} {k : Nat} (hk : AbortsAt k s) (hv : s.vectorsLegal)
include hk hv

/-- A store of words that aborts inside. -/
theorem storeWords_entersAfter {words : List Word} {a : Word} {cs : List Cell} {spoil : State → State}
    (hlt : k < words.length) (hl : words.length < 2 ^ 29)
    (hspoil : ∀ m, m.cpsr = s.cpsr → Spoils cs a (4 * k) m (spoil m)) (s0 : State) (hs0 : ∃ d, s0 = { s with draws := d }) :
    ∃ m t, storeWords words 0 a s0 = .abort k m ∧ abortTransfer k spoil m = .next t ∧ EntersAfter k cs true a s t := by
  obtain ⟨d, rfl⟩ := hs0
  obtain ⟨m, hm, hc, hmem, hjoin⟩ := storeWords_abort words k 0 a { s with draws := d } hl hlt hk
  have hcs : Carries s m := ⟨hc.cfg, hc.regs, hc.pc, hc.cpsr, hc.spsr, hc.lines, hc.coproc⟩
  obtain ⟨t, ht, henters⟩ := abortTransfer_entersAfter (writes := true) hv hcs hmem hjoin (hspoil m hcs.cpsr)
  rw [Nat.zero_add] at hm
  exact ⟨m, t, hm, ht, henters⟩

/-- A load of words that aborts inside. -/
theorem loadWords_entersAfter {n : Nat} {a : Word} {cs : List Cell} {spoil : State → State} (hlt : k < n)
    (hspoil : ∀ m, m.cpsr = s.cpsr → Spoils cs a 0 m (spoil m)) :
    ∃ m t, loadWords n [] a s = .abort k m ∧ abortTransfer k spoil m = .next t ∧ EntersAfter k cs false a s t := by
  obtain ⟨m, hm, hc, hmem⟩ := loadWords_abort n k [] a s hlt hk
  rw [List.length_nil, Nat.zero_add] at hm
  obtain ⟨t, ht, henters⟩ := abortTransfer_entersAfter (writes := false) hv hc
    (fun x _ => congrArg (Memory.byte · x) hmem) (WritesJoin.none _ (loadWords_abort_stored hm)) (hspoil m hc.cpsr)
  exact ⟨m, t, hm, ht, henters⟩

theorem execPush_aborts {r : Bool} {rlist : BitVec 8} (hlt : k < rankIn rlist 8 + (if r then 1 else 0)) :
    ∃ t, exec (.push r rlist) s = .next t ∧ EntersAfter k [.sp (bankOf s.cpsr.m)] true
      (s.sp - BitVec.ofNat 32 (4 * (rankIn rlist 8 + (if r then 1 else 0)))) s t := by
  have hlen := pushWords_length s r rlist
  have hbound := rankIn_le_eight rlist
  have hr : (if r then 1 else 0) ≤ 1 := by cases r <;> decide
  have hwords : s.pushWords r rlist ≠ [] := fun hc => by
    rw [hc, List.length_nil] at hlen
    omega
  rw [← hlen] at hlt ⊢
  obtain ⟨m, t, hm, ht, henters⟩ := storeWords_entersAfter hk hv hlt (by omega)
    (spoil := fun x => (x.spoilWords (s.sp - wordsSize (s.pushWords r rlist).length) k).spoilSp)
    (cs := [.sp (bankOf s.cpsr.m)]) (fun m hm => by
      rw [← hm, ← (Steady.spoilWords m (s.sp - wordsSize (s.pushWords r rlist).length) k).cpsr]
      exact (spoilWords_spoils m _ (by omega)).trans (spoilSp_spoils _ _ _)) s ⟨s.draws, rfl⟩
  refine ⟨t, ?_, henters⟩
  simp only [exec, execPush, hwords, if_false, hm]
  exact ht

theorem execPop_aborts {r : Bool} {rlist : BitVec 8} (hlt : k < rankIn rlist 8 + (if r then 1 else 0)) :
    ∃ t, exec (.pop r rlist) s = .next t ∧
      EntersAfter k (.sp (bankOf s.cpsr.m) :: listedCells rlist) false s.sp s t := by
  obtain ⟨m, t, hm, ht, henters⟩ := loadWords_entersAfter hk hv hlt (a := s.sp)
    (spoil := fun x => (x.spoilLows (listed rlist)).spoilSp)
    (cs := .sp (bankOf s.cpsr.m) :: listedCells rlist) (fun m hm => by
      rw [← hm, ← (Steady.spoilLows m (listed rlist)).cpsr]
      exact ((spoilLows_spoils m (listed rlist) _ _).trans (spoilSp_spoils _ _ _)).mono
        (List.append_subset.mpr ⟨List.subset_cons_self .., List.cons_subset.mpr ⟨List.mem_cons_self, List.nil_subset _⟩⟩))
  refine ⟨t, ?_, henters⟩
  simp only [exec, execPop, listed_length, if_neg (Nat.ne_zero_of_lt hlt), hm]
  exact ht

theorem execStmia_aborts {rb : Fin 8} {rlist : BitVec 8} (hlt : k < rankIn rlist 8) :
    ∃ t, exec (.stmia rb rlist) s = .next t ∧ EntersAfter k [.low rb] true (s.low rb) s t := by
  have hne : listed rlist ≠ [] := mt (listed_eq_nil_iff rlist).mp (Nat.ne_zero_of_lt hlt)
  have hbound := rankIn_le_eight rlist
  set words := (listed rlist).map
    (s.stmWord rb (listed rlist) (s.low rb + wordsSize (listed rlist).length)) with hwords
  have hlen : words.length = rankIn rlist 8 := by rw [List.length_map, listed_length]
  obtain ⟨m, t, hm, ht, henters⟩ := storeWords_entersAfter hk hv (words := words) (a := s.low rb) (by omega) (by omega)
    (spoil := fun x => (x.spoilWords (s.low rb) k).spoilLows [rb])
    (cs := [.low rb]) (fun m _ => (spoilWords_spoils m _ (by omega)).trans (spoilLows_spoils _ [rb] _ _)) _
    (stmDraws_state s rb (listed rlist))
  refine ⟨t, ?_, henters⟩
  simp only [exec, execStmia, hne, if_false, ← hwords, hm]
  exact ht

theorem execLdmia_aborts {rb : Fin 8} {rlist : BitVec 8} (hlt : k < rankIn rlist 8) :
    ∃ t, exec (.ldmia rb rlist) s = .next t ∧
      EntersAfter k (.low rb :: listedCells rlist) false (s.low rb) s t := by
  have hne : listed rlist ≠ [] := mt (listed_eq_nil_iff rlist).mp (Nat.ne_zero_of_lt hlt)
  obtain ⟨m, t, hm, ht, henters⟩ := loadWords_entersAfter hk hv hlt (a := s.low rb)
    (spoil := fun x => x.spoilLows (if rb ∈ listed rlist then listed rlist else rb :: listed rlist))
    (cs := .low rb :: listedCells rlist) (fun m _ => by
      refine (spoilLows_spoils m _ _ _).mono ?_
      split
      · exact List.subset_cons_self ..
      · exact List.Subset.refl _)
  refine ⟨t, ?_, henters⟩
  simp only [exec, execLdmia, hne, if_false, listed_length, hm]
  exact ht

end

end Sys2Proof.Machine

open Sys2Proof Sys2Proof.Machine

/-- Settles O38: one lemma for each of the four transfers. -/
theorem anAbortInsideATransferRaisesDataAbort : Obligations.AnAbortInsideATransferRaisesDataAbort := by
  intro s k r rb rlist hk hv sp n
  exact ⟨fun hlt => ⟨execPush_aborts hk hv hlt, execPop_aborts hk hv hlt⟩,
    fun hlt => ⟨execStmia_aborts hk hv hlt, execLdmia_aborts hk hv hlt⟩⟩

end

section
/-! The step (70_reset_and_hazards.md R267) and the host's calls (R268): what the poll takes, what the fetch gives, and the
instruction run in the state the fetch leaves. -/

namespace Sys2Proof.Machine

/-! ### The poll (60_exceptions.md R223) -/

/-- A line that is masked or not asserted is not taken (R224). -/
theorem not_taken : ∀ {line mask : Bool}, (line = true → mask = true) → (line && !mask) = false := by decide

theorem poll_fiq {s : State} (hline : s.lines.fiq = true) (hmask : s.cpsr.f = false) :
    poll s = some (takeInterrupt .fiq s) := by
  rw [poll, hline, hmask]
  rfl

theorem poll_irq {s : State} (hfiq : s.lines.fiq = true → s.cpsr.f = true) (hline : s.lines.irq = true)
    (hmask : s.cpsr.i = false) : poll s = some (takeInterrupt .irq s) := by
  rw [poll, not_taken hfiq, hline, hmask]
  rfl

section
variable {s : State} (hfiq : s.lines.fiq = true → s.cpsr.f = true) (hirq : s.lines.irq = true → s.cpsr.i = true)
include hfiq hirq

theorem poll_halt (hhalt : s.lines.halt = true) : poll s = some (.next { s with clock := s.clock + 1 }) := by
  rw [poll, not_taken hfiq, not_taken hirq, hhalt]
  rfl

/-- With no unmasked line asserted and no HALT the fetch goes ahead. -/
theorem poll_eq_none (hhalt : s.lines.halt = false) : poll s = none := by
  rw [poll, not_taken hfiq, not_taken hirq, hhalt]
  rfl

end

/-- The link of an interrupt is N + 4 in either state (R227). -/
theorem pcAbandoned_add_offset {s : State} (haligned : s.pcAligned) {e : ExceptionKind} (he : e = .fiq ∨ e = .irq) :
    s.pcAbandoned + e.offset s.cfg s.cpsr.t = s.pc + 4#32 := by
  rw [State.pcAbandoned]
  cases ht : s.cpsr.t with
  | true =>
    rw [State.pcAligned, ht, if_pos rfl] at haligned
    have hoff : e.offset s.cfg true = 2#32 := by obtain rfl | rfl := he <;> rfl
    rw [if_pos rfl, alignHalf_of_even haligned, hoff, BitVec.add_assoc]
    rfl
  | false =>
    rw [State.pcAligned, ht, if_neg (by decide)] at haligned
    have hword : alignWord s.pc = s.pc := by
      apply BitVec.eq_of_toNat_eq
      rw [alignWord_eq, alignWord_toNat]
      have := (low_bits_clear_iff s.pc).mp haligned
      omega
    have hoff : e.offset s.cfg false = 0#32 := by obtain rfl | rfl := he <;> rfl
    rw [if_neg (by decide), hword, hoff, BitVec.add_zero]
    rfl

/-- An interrupt that the poll takes, with its link and no cycle (R227, R232). -/
theorem takeInterrupt_enters {s : State} {e : ExceptionKind} (he : e = .fiq ∨ e = .irq) (hmask : s.masked e = false)
    (haligned : s.pcAligned) (hv : s.vectorsLegal) : ∃ t, takeInterrupt e s = .next t ∧ Enters e (s.pc + 4#32) s t ∧
      t.clock = s.clock ∧ t.stored = s.stored := by
  obtain ⟨base, hb⟩ := State.vectorBase_of_legal hv
  have hmask' : s.abandonFetch.masked e = false := by obtain rfl | rfl := he <;> exact hmask
  have hb' : s.abandonFetch.vectorBase = some base := (State.vectorBase_congr (m := s.abandonFetch) rfl).trans hb
  have hentered := enter_unmasked s.pcAbandoned hmask' hb'
  rw [show s.abandonFetch.cfg = s.cfg from rfl, show s.abandonFetch.cpsr = s.cpsr from rfl,
    pcAbandoned_add_offset haligned he] at hentered
  exact ⟨_, hentered, ⟨State.entered_entersSpoiling e _ (fun _ _ => rfl) rfl ⟨rfl, rfl, rfl, rfl⟩ hb, fun _ => rfl⟩,
    rfl, rfl⟩

/-! ### One boundary -/

theorem step_of_illegal {s : State} (h : ¬ s.modeLegal) : step s = .refused .invalidMode := by
  rw [step, boundary, if_pos (not_not.mp h)]

theorem step_of_poll {s : State} (hmode : s.modeLegal) {r : Result} (hp : poll s = some r) : step s = r := by
  rw [step, boundary, if_neg hmode, hp]

theorem step_of_arm {s : State} (hmode : s.modeLegal) (hp : poll s = none) (ht : s.cpsr.t = false) :
    step s = .fault .handoff := by
  rw [step, boundary, if_neg hmode, hp]
  simp only [ht, Bool.false_eq_true, if_false]

theorem step_of_fetch {s m : State} {op : Half} (hmode : s.modeLegal) (hp : poll s = none) (ht : s.cpsr.t = true)
    (hf : fetch16 s = .ok op m) : step s = exec (decode op) { m with clock := m.clock + 1 } := by
  rw [step, boundary, if_neg hmode, hp]
  simp only [ht, if_true, hf]

theorem step_of_fetch_abort {s m : State} (hmode : s.modeLegal) (hp : poll s = none) (ht : s.cpsr.t = true)
    (hf : fetch16 s = .abort m) : step s = raise .prefetchAbort m := by
  rw [step, boundary, if_neg hmode, hp]
  simp only [ht, if_true, hf]

/-! ### The fetched instruction -/

/-- The state in which a fetched instruction runs: the pc at A + 2, the fetch's answer taken, and the clock past the fetch
and the instruction's own cycle (R71, R272; log 19). -/
def State.fetched (s : State) : State :=
  { s with pc := alignHalf s.pc + 2#32, clock := s.clock + 1 + (s.nextAnswer.waits + 1), bus := s.bus.tail }

/-- A fetch that sees stores, or from an address nothing has written, gives what the read finds. -/
theorem step_of_seen {s : State} (hmode : s.modeLegal) (hp : poll s = none) (ht : s.cpsr.t = true)
    (h : s.nextAborts = false) (hs : s.cfg.fetchSeesStores = true ∨ ¬ s.storedTo (alignHalf s.pc) = true) :
    step s = exec (decode ((s.readValue .half (alignHalf s.pc)).extractLsb' 0 16)) s.fetched := by
  rw [step_of_fetch hmode hp ht (fetch16_seen h hs), State.fetched, Nat.add_right_comm]
  rfl

/-- A fetch from a written address that does not see stores gives a free value. -/
theorem step_of_drawn {s : State} (hmode : s.modeLegal) (hp : poll s = none) (ht : s.cpsr.t = true)
    (h : s.nextAborts = false) (hf : s.cfg.fetchSeesStores = false) (hs : s.storedTo (alignHalf s.pc) = true) :
    step s = exec (decode (s.freeWord.extractLsb' 0 16)) { s.fetched with draws := s.draws + 1 } := by
  rw [step_of_fetch hmode hp ht (fetch16_drawn h hf hs), State.fetched, Nat.add_right_comm]
  rfl

/-- Memory answers a fetch with the halfword of its two bytes. -/
theorem step_of_bytes {s : State} (hmode : s.modeLegal) (hp : poll s = none) (ht : s.cpsr.t = true)
    (h : s.nextAborts = false) (hs : s.cfg.fetchSeesStores = true ∨ ¬ s.storedTo (alignHalf s.pc) = true)
    (hdata : s.nextAnswer.data = none) {i : Instr}
    (hi : decodeBytes [Memory.byte s.mem (alignHalf s.pc), Memory.byte s.mem (alignHalf s.pc + 1#32)] = .ok (i, [])) :
    step s = exec i s.fetched := by
  rw [step_of_seen hmode hp ht h hs, State.readValue_half_memory _ hdata]
  simp only [decodeBytes, Except.ok.injEq, Prod.mk.injEq, and_true] at hi
  rw [← hi]
  rfl

/-! ### The host's calls -/

theorem setLine_lines (s : State) (l : Line) (b : Bool) : ∃ lines, setLine l b s = { s with lines := lines } ∧
    lines.fiq = (if l = .fiq then b else s.lines.fiq) ∧ lines.irq = (if l = .irq then b else s.lines.irq) ∧
    lines.halt = (if l = .halt then b else s.lines.halt) := by
  cases l <;> exact ⟨_, rfl, rfl, rfl, rfl⟩

theorem mapCoprocessor_slot {i : Nat} (hi : i < 16) (h : Coproc) (s : State) :
    ∃ t, mapCoprocessor i h s = .next t ∧ t = { s with coproc := t.coproc } ∧
      ∀ j : Fin 16, t.coproc[j.val] = if j.val = i then some h else s.coproc[j.val] := by
  refine ⟨{ s with coproc := s.coproc.set i (some h) }, dif_pos hi, rfl, fun j => ?_⟩
  simp only [Vector.getElem_set, eq_comm]

theorem enableCp15_slot (s : State) (v : Word) : ∃ coproc, (enableCp15 v s).2 = { s with coproc := coproc } ∧
    ∀ j : Fin 16, coproc[j.val] = if j.val = 15 then some (enableCp15 v s).1 else s.coproc[j.val] := by
  refine ⟨s.coproc.set 15 (some { exceptionVector := v }), rfl, fun j => ?_⟩
  simp only [Vector.getElem_set, eq_comm]
  rfl

/-- The vector base is the handle's answer after `enable_cp15` (R229). -/
theorem enableCp15_vectorBase (s : State) {v : Word} (hv : v = 0x00000000#32 ∨ v = 0xFFFF0000#32) :
    (enableCp15 v s).2.vectorBase = some v := by
  have hslot : (enableCp15 v s).2.coproc[15] = some { exceptionVector := v } := Vector.getElem_set_self _
  rw [State.vectorBase_of_handle hslot, if_pos hv]

theorem newCpu_next {n : Nat} {arch : Arch} (h : (n = 4 ∧ arch = .armv4) ∨ (n = 5 ∧ arch = .armv5)) (b : BusHandle)
    (c : Config) : newCpu n b c = .next (State.powerOn { c with arch := arch } b) := by
  obtain ⟨rfl, rfl⟩ | ⟨rfl, rfl⟩ := h <;> rfl

/-- Of an illegal mode field (R233). -/
theorem writeCpsr_illegal {w : Word} (h : Mode.ofBits (w.extractLsb' 0 5) = none) (s : State) :
    writeCpsr w s = .refused .invalidMode := by
  rw [writeCpsr, show (Psr.ofWord w).m = w.extractLsb' 0 5 from rfl, h]

end Sys2Proof.Machine

open Sys2Proof Sys2Proof.Machine

/-- Settles O52: the three cases are the poll's three branches, in its order. -/
theorem thePollTakesFiqThenIrqThenHalt : Obligations.ThePollTakesFiqThenIrqThenHalt := by
  intro s hmode haligned hv
  refine ⟨fun hline hmask => ?_, fun hfiq hline hmask => ?_, fun hfiq hirq hhalt => ?_⟩
  · rw [step_of_poll hmode (poll_fiq hline hmask)]
    exact takeInterrupt_enters (.inl rfl) hmask haligned hv
  · rw [step_of_poll hmode (poll_irq hfiq hline hmask)]
    exact takeInterrupt_enters (.inr rfl) hmask haligned hv
  · exact step_of_poll hmode (poll_halt hfiq hirq hhalt)

/-- Settles O53: the mode field is checked first, and where the poll takes nothing ARM state hands off. -/
theorem whatStopsAStep : Obligations.WhatStopsAStep := fun _ =>
  ⟨step_of_illegal, fun hmode hfiq hirq hhalt ht => step_of_arm hmode (poll_eq_none hfiq hirq hhalt) ht⟩

/-- Settles O54: the fetch sees stores or does not, and what it reads is memory's or the platform's. -/
theorem aStepRunsTheDecodedInstruction : Obligations.AStepRunsTheDecodedInstruction := by
  intro s hmode hfiq hirq hhalt ht h a fetched written
  have hp := poll_eq_none hfiq hirq hhalt
  have hwritten : s.storedTo (alignHalf s.pc) = true ↔ written := s.storedTo_iff _
  rw [← hwritten]
  refine ⟨fun hs => ⟨fun i hdata hi => step_of_bytes hmode hp ht h hs hdata hi, fun d hdata => ?_⟩,
    fun hf hs => ⟨_, step_of_drawn hmode hp ht h hf hs⟩⟩
  rw [step_of_seen hmode hp ht h hs, State.readValue_half_data _ hdata]
  rfl

/-- Settles O55: the pc is at A + 2 when the aborted fetch raises PrefetchAbort, whose offset in Thumb state is 2. -/
theorem anAbortedFetchEntersPrefetchAbort : Obligations.AnAbortedFetchEntersPrefetchAbort := by
  intro s hmode hfiq hirq hhalt ht h hv
  obtain ⟨base, hb⟩ := State.vectorBase_of_legal hv
  set m : State := { s with pc := alignHalf s.pc + 2, bus := s.bus.tail,
                            clock := s.clock + Config.freeCycles s.draws, draws := s.draws + 1 }
  have hbm : m.vectorBase = some base := (State.vectorBase_congr (m := m) rfl).trans hb
  have hraise := raise_entered (e := .prefetchAbort) (.inr (.inr (.inl rfl))) hbm
  have hlink : m.pc + ExceptionKind.prefetchAbort.offset m.cfg m.cpsr.t = (s.pc &&& 0xFFFFFFFE#32) + 4#32 := by
    rw [show m.cpsr.t = true from ht]
    exact BitVec.add_assoc ..
  rw [hlink] at hraise
  exact ⟨_, (step_of_fetch_abort hmode (poll_eq_none hfiq hirq hhalt) ht (fetch16_abort h)).trans hraise,
    State.entered_entersSpoiling _ _ (fun _ _ => rfl) rfl ⟨rfl, rfl, rfl, rfl⟩ hb, fun _ => rfl⟩

/-- Settles O51, call by call. -/
theorem theHostCalls : Obligations.TheHostCalls := by
  refine ⟨fun _ _ => rfl, setLine_lines, fun s i h => ⟨fun hi => dif_neg (by omega), fun hi => mapCoprocessor_slot hi h s⟩,
    fun s v => ⟨rfl, enableCp15_slot s v⟩, fun s v p hv => ?_, fun n b c arch h => ?_, fun n b c h4 h5 => ?_,
    fun s w a v => ?_, fun s => ⟨rfl, rfl⟩, fun s w h => writeCpsr_illegal h s⟩
  · exact ⟨_, enter_unmasked p rfl (enableCp15_vectorBase s hv), rfl⟩
  · exact ⟨_, newCpu_next h b c, rfl, rfl, rfl, rfl, rfl, rfl, fun j => Vector.getElem_replicate ..⟩
  · rw [newCpu, if_neg h4, if_neg h5]
  · exact ⟨holdsBytes_storeBytes s w a v, sameMemoryOutside_storeBytes s w a v, writesJoin_storeBytes s w a v, _, _, rfl,
      Memory.wf_write s.mem w a v⟩

end

section
/-! The long-branch pair as two steps (46_branch_swi.md R209). Each half is a step over a word that memory answers; the
first half leaves the state in which the second is fetched. -/

namespace Sys2Proof.Machine

/-- Nothing pending, Thumb state, an even pc, and memory answering every access: what a step over a placed word takes. -/
structure Undisturbed (s : State) : Prop where
  mode   : s.modeLegal
  thumb  : s.cpsr.t = true
  even   : s.pc.getLsbD 0 = false
  lines  : s.lines = { fiq := false, irq := false, halt := false }
  bus    : s.bus = []
  stores : s.cfg.fetchSeesStores = true

/-- Two bytes that hold a halfword are that halfword. -/
theorem half_of_holdsBytes {s : State} {a : Word} {w : Half} (h : HoldsBytes s a 2 (w.zeroExtend 32)) :
    Memory.byte s.mem (a + 1#32) ++ Memory.byte s.mem a = w := by
  have hlow : Memory.byte s.mem (a + 0#32) = _ := h 0 (by decide)
  have hhigh : Memory.byte s.mem (a + 1#32) = _ := h 1 (by decide)
  rw [BitVec.add_zero] at hlow
  rw [hlow, hhigh]
  apply BitVec.eq_of_toNat_eq
  have := w.isLt
  simp only [Laws.RoundTrip.append_toNat, BitVec.extractLsb'_toNat, BitVec.truncate_eq_setWidth, BitVec.toNat_setWidth]
  omega

/-- A step over a word in memory runs its instruction, at a cost of two cycles (R272). -/
theorem Undisturbed.step_word {s : State} (h : Undisturbed s) {i : Instr}
    (hi : HoldsBytes s s.pc 2 ((encode i).zeroExtend 32)) :
    step s = exec i { s with pc := s.pc + 2#32, clock := s.clock + 2 } := by
  obtain ⟨hmode, ht, heven, hlines, hbus, hstores⟩ := h
  have hp : poll s = none := by simp [poll, hlines]
  have hans : s.nextAnswer = {} := by rw [State.nextAnswer, hbus]; rfl
  have halign : alignHalf s.pc = s.pc := alignHalf_of_even heven
  have hfetched : s.fetched = { s with pc := s.pc + 2#32, clock := s.clock + 2 } := by
    rw [State.fetched, halign, hans, hbus]
    cases s
    cases hbus
    rfl
  rw [← hfetched]
  refine step_of_bytes hmode hp ht (nextAborts_of_no_answers hbus) (.inl hstores) (by rw [hans]) ?_
  rw [halign, decodeBytes, half_of_holdsBytes hi, decode_encode]

/-- The state after the first half: LR is written and the pc is at the suffix. -/
def State.afterPrefix (s : State) (hi : BitVec 11) : State :=
  { s with pc := s.pc + 2#32, clock := s.clock + 2 }.setLr (s.pc + 4#32 + branchHigh hi)

theorem Undisturbed.step_blPrefix {s : State} (h : Undisturbed s) {hi : BitVec 11}
    (hw : HoldsBytes s s.pc 2 ((encode (.blPrefix hi)).zeroExtend 32)) : step s = .next (s.afterPrefix hi) := by
  have hpc : s.pc + 2#32 + 2 = s.pc + 4#32 := BitVec.add_assoc ..
  rw [h.step_word hw, State.afterPrefix, ← hpc]
  rfl

theorem Undisturbed.afterPrefix {s : State} (h : Undisturbed s) (hi : BitVec 11) : Undisturbed (s.afterPrefix hi) :=
  ⟨h.mode, h.thumb, even_add s.pc 2#32 h.even rfl, h.lines, h.bus, h.stores⟩

end Sys2Proof.Machine

open Sys2Proof Sys2Proof.Machine

/-- Settles O43: the second step starts in the state the first leaves, at the suffix. -/
theorem aLongBranchPairCalls : Obligations.ALongBranchPairCalls := by
  intro s hi lo hmode ht heven hlines hbus hstores hprefix hsuffix
  have hs : Undisturbed s := ⟨hmode, ht, heven, hlines, hbus, hstores⟩
  set t := s.afterPrefix hi with htdef
  have hpc : t.pc + 2#32 = s.pc + 4#32 := BitVec.add_assoc ..
  have hlr : t.lr = s.pc + 4#32 + branchHigh hi := State.lr_setLr _ _
  have hstep : step t = .next (({ t with pc := t.pc + 2#32, clock := t.clock + 2 }.setLr
      (t.pc + 2#32 ||| 1)).jumpThumb (t.lr + branchLow lo)) := (hs.afterPrefix hi).step_word hsuffix
  refine ⟨t, _, hs.step_blPrefix hprefix, hstep, ?_, ?_, rfl, rfl, fun c hc => ?_⟩
  · rw [State.jumpThumb_pc, hlr, branchHigh_eq_ofInt, branchLow_eq_ofNat]
    rfl
  · rw [State.lr_jumpThumb, State.lr_setLr, hpc]
    rfl
  · have hne : c ≠ .lr (bankOf s.cpsr.m) := List.ne_of_not_mem_cons hc
    have hprefixCell : t.cell c = s.cell c := (State.setLr_cell _ c _).trans (if_neg hne)
    have hsuffixCell := State.setLr_cell { t with pc := t.pc + 2#32, clock := t.clock + 2 } c (t.pc + 2#32 ||| 1)
    exact (hsuffixCell.trans (if_neg hne)).trans hprefixCell

end
